-- ==== Sys2Proof/Word.lean ====
section
/-! DEFINITION. The word types of the SFE: every value is an unsigned integer or a byte sequence
(00_scope.md R7, R8). -/

namespace Sys2Proof

/-- A Byte, an integer 0..255 (00_scope.md R8). -/
abbrev Byte := BitVec 8

/-- A 16-bit register value: HF0..HF7, IN_LEN, OUT_LEN, ARG, MSG_LEN (10_state.md R36 to R40). -/
abbrev Half := BitVec 16

/-- A 32-bit host bus word or command word (20_memory.md R81, 30_encoding.md R110). -/
abbrev Word := BitVec 32

/-- A finite sequence of bytes, index 0 first on the wire (00_scope.md R8). -/
abbrev Bytes := List Byte

end Sys2Proof
end

