-- ==== Sys2Proof/Syntax.lean ====
section
/-! DEFINITION. The instruction set of the SFE: 32 commands and 5 RX_CTRL actions (30_encoding.md R114),
the header kinds, the agents (60_exceptions.md R408) and the host's statements (30_encoding.md R119). -/

namespace Sys2Proof

/-- The header kinds and, in order, their codes 0..5 (30_encoding.md R113). -/
inductive HeaderKind
  | cspv1 | cspv2 | sfhdr | olchdr | olshdr | olsftr
  deriving DecidableEq, Repr

/-- The two operation formats: a command word written to CMD and an action word written to RX_CTRL
(30_encoding.md R110, R111). -/
inductive Format
  | cmd | rxctrl
  deriving DecidableEq, Repr

/-- One constructor per row of the opcode table. `idx` is the adapter index of the four indexed commands,
0..15 (30_encoding.md R110, R112); `Instr.wf` states its range. -/
inductive Instr
  /-- NOP, rule R295. -/
  | nop
  /-- CFG.LOCK, rule R297. -/
  | cfgLock
  /-- CFG.UNLOCK, rule R298. -/
  | cfgUnlock
  /-- HDR.VALIDATE CSPV1, rule R150. -/
  | hdrValidateCspv1
  /-- HDR.VALIDATE CSPV2, rule R158. -/
  | hdrValidateCspv2
  /-- HDR.VALIDATE SFHDR, rule R163. -/
  | hdrValidateSfhdr
  /-- HDR.VALIDATE OLCHDR, rule R168. -/
  | hdrValidateOlchdr
  /-- HDR.VALIDATE OLSHDR, rule R172. -/
  | hdrValidateOlshdr
  /-- HDR.VALIDATE OLSFTR, rule R177. -/
  | hdrValidateOlsftr
  /-- HDR.ENCODE CSPV1, rule R151. -/
  | hdrEncodeCspv1
  /-- HDR.ENCODE CSPV2, rule R159. -/
  | hdrEncodeCspv2
  /-- HDR.ENCODE SFHDR, rule R164. -/
  | hdrEncodeSfhdr
  /-- HDR.ENCODE OLCHDR, rule R169. -/
  | hdrEncodeOlchdr
  /-- HDR.ENCODE OLSHDR, rule R173. -/
  | hdrEncodeOlshdr
  /-- HDR.ENCODE OLSFTR, rule R178. -/
  | hdrEncodeOlsftr
  /-- HDR.DECODE CSPV1, rule R152. -/
  | hdrDecodeCspv1
  /-- HDR.DECODE CSPV2, rule R160. -/
  | hdrDecodeCspv2
  /-- HDR.DECODE SFHDR, rule R165. -/
  | hdrDecodeSfhdr
  /-- HDR.DECODE OLCHDR, rule R170. -/
  | hdrDecodeOlchdr
  /-- HDR.DECODE OLSHDR, rule R174. -/
  | hdrDecodeOlshdr
  /-- HDR.DECODE OLSFTR, rule R179. -/
  | hdrDecodeOlsftr
  /-- CRC.ADP, rule R210. -/
  | crcAdp (idx : Nat)
  /-- CRC.CC1110, rule R211. -/
  | crcCc1110
  /-- CRC.C32C, rule R212. -/
  | crcC32c
  /-- CRC.C32IEEE, rule R213. -/
  | crcC32ieee
  /-- ADP.WRAP, rule R280. -/
  | adpWrap (idx : Nat)
  /-- ADP.UNWRAP, rule R281. -/
  | adpUnwrap (idx : Nat)
  /-- ADP.WSIZE, rule R282. -/
  | adpWsize (idx : Nat)
  /-- PIPE.WRAP, rule R303. -/
  | pipeWrap
  /-- PIPE.UNWRAP, rule R304. -/
  | pipeUnwrap
  /-- PIPE.WSIZE, rule R305. -/
  | pipeWsize
  /-- SEND, rule R306. -/
  | send
  /-- RX.START, rule R361. -/
  | rxStart
  /-- RX.RESET, rule R362. -/
  | rxReset
  /-- RX.CANCEL, rule R363. -/
  | rxCancel
  /-- RX.MSG_POP, rule R364. -/
  | rxMsgPop
  /-- RX.ERR_POP, rule R365. -/
  | rxErrPop
  deriving DecidableEq, Repr

/-- The HDR.VALIDATE command of a header kind. -/
def Instr.validateOf : HeaderKind → Instr
  | .cspv1 => .hdrValidateCspv1
  | .cspv2 => .hdrValidateCspv2
  | .sfhdr => .hdrValidateSfhdr
  | .olchdr => .hdrValidateOlchdr
  | .olshdr => .hdrValidateOlshdr
  | .olsftr => .hdrValidateOlsftr

/-- The HDR.ENCODE command of a header kind. -/
def Instr.encodeOf : HeaderKind → Instr
  | .cspv1 => .hdrEncodeCspv1
  | .cspv2 => .hdrEncodeCspv2
  | .sfhdr => .hdrEncodeSfhdr
  | .olchdr => .hdrEncodeOlchdr
  | .olshdr => .hdrEncodeOlshdr
  | .olsftr => .hdrEncodeOlsftr

/-- The HDR.DECODE command of a header kind. -/
def Instr.decodeOf : HeaderKind → Instr
  | .cspv1 => .hdrDecodeCspv1
  | .cspv2 => .hdrDecodeCspv2
  | .sfhdr => .hdrDecodeSfhdr
  | .olchdr => .hdrDecodeOlchdr
  | .olshdr => .hdrDecodeOlshdr
  | .olsftr => .hdrDecodeOlsftr

/-- The format an instruction is written in (30_encoding.md R111). -/
def Instr.format : Instr → Format
  | .rxStart | .rxReset | .rxCancel | .rxMsgPop | .rxErrPop => .rxctrl
  | .nop | .cfgLock | .cfgUnlock | .hdrValidateCspv1 | .hdrValidateCspv2 | .hdrValidateSfhdr |
    .hdrValidateOlchdr | .hdrValidateOlshdr | .hdrValidateOlsftr | .hdrEncodeCspv1 | .hdrEncodeCspv2
    | .hdrEncodeSfhdr | .hdrEncodeOlchdr | .hdrEncodeOlshdr | .hdrEncodeOlsftr | .hdrDecodeCspv1 |
    .hdrDecodeCspv2 | .hdrDecodeSfhdr | .hdrDecodeOlchdr | .hdrDecodeOlshdr | .hdrDecodeOlsftr |
    .crcAdp _ | .crcCc1110 | .crcC32c | .crcC32ieee | .adpWrap _ | .adpUnwrap _ | .adpWsize _ |
    .pipeWrap | .pipeUnwrap | .pipeWsize | .send => .cmd

/-- The agents whose steps interleave (60_exceptions.md R408), and the reset input `rst` (70_reset_and_hazards.md
R430), which the platform may assert between any two steps. -/
inductive Agent
  | host | codec | rx | source | sink | rst
  deriving DecidableEq, Repr, Inhabited

/-- The two values of the open parameter ZERO_READ_POLICY (44_frame_receiver.md R338). -/
inductive ZeroReadPolicy
  | retry | endOfStream
  deriving DecidableEq, Repr, Inhabited

/-- The stage of an outstanding pull (44_frame_receiver.md R331). -/
inductive PullStage
  | seek | read
  deriving DecidableEq, Repr

/-- The SOURCE's answers to a pull (20_memory.md R90). -/
inductive SourceAnswer
  | data (v : Bytes) | zero | eof | error
  deriving DecidableEq, Repr

/-- The SINK's answers to a push (20_memory.md R92). -/
inductive SinkAnswer
  | accepted (n : Nat) | error
  deriving DecidableEq, Repr

/-- One entry of the transaction history of the two ports (10_state.md R65). -/
inductive PortEvent
  | pull (stage : PullStage) (k : Nat)
  | pulled (a : SourceAnswer)
  | push (v : Bytes)
  | pushed (a : SinkAnswer)
  deriving DecidableEq, Repr

/-- The statements of a host program (30_encoding.md R119). `width` is the access width in bytes: only 4 exists
(00_scope.md R12), and any other is the bus error of 20_memory.md R82. `waitRx` is the polling loop of the
pseudo-instruction `waitrx` (30_encoding.md R120). -/
inductive HostStmt
  /-- `wr OFF, V` -/
  | wr (off : BitVec 16) (width : Nat) (v : Word)
  /-- `rd OFF -> name` -/
  | rd (off : BitVec 16) (width : Nat)
  /-- `poll OFF, MASK, V` -/
  | poll (off : BitVec 16) (mask value : Word)
  /-- `waitrx` -/
  | waitRx
  deriving DecidableEq, Repr

end Sys2Proof
end

