-- ==== Sys2Proof/WellFormed.lean ====
section
/-! DEFINITION. Which instructions and host statements are well formed. -/

namespace Sys2Proof

/-- An adapter index fits the 4-bit field IDX (30_encoding.md R110). -/
abbrev indexWf (idx : Nat) : Prop := idx < 16

/-- An instruction has an encoding: its adapter index, where it has one, is 0..15 (30_encoding.md R112). -/
def Instr.wf : Instr → Bool
  | .crcAdp i | .adpWrap i | .adpUnwrap i | .adpWsize i => decide (indexWf i)
  | .nop | .cfgLock | .cfgUnlock | .hdrValidateCspv1 | .hdrValidateCspv2 | .hdrValidateSfhdr |
    .hdrValidateOlchdr | .hdrValidateOlshdr | .hdrValidateOlsftr | .hdrEncodeCspv1 | .hdrEncodeCspv2
    | .hdrEncodeSfhdr | .hdrEncodeOlchdr | .hdrEncodeOlshdr | .hdrEncodeOlsftr | .hdrDecodeCspv1 |
    .hdrDecodeCspv2 | .hdrDecodeSfhdr | .hdrDecodeOlchdr | .hdrDecodeOlshdr | .hdrDecodeOlsftr |
    .crcCc1110 | .crcC32c | .crcC32ieee | .pipeWrap | .pipeUnwrap | .pipeWsize | .send | .rxStart |
    .rxReset | .rxCancel | .rxMsgPop | .rxErrPop => true

/-- A bus access the SFE performs: 32 bits wide, at a word-aligned offset (20_memory.md R82). -/
abbrev accessWf (off : BitVec 16) (width : Nat) : Prop := off.toNat % 4 = 0 ∧ width = 4

/-- A host statement whose every bus access is performed (20_memory.md R82). -/
def HostStmt.wf : HostStmt → Bool
  | .wr off width _ => decide (accessWf off width)
  | .rd off width => decide (accessWf off width)
  | .poll off _ _ => decide (accessWf off 4)
  | .waitRx => true

end Sys2Proof
end

