-- ==== Sys2Proof/Decode.lean ====
section
/-! DEFINITION. The decoder of command words and RX_CTRL action words (30_encoding.md R110 to R121), total and rejecting
by name, and after it the encoder, written from the same tables, and the mnemonic text of R118. -/

namespace Sys2Proof

/-- Why a word names no command (30_encoding.md R115, R116). -/
inductive Illegal
  /-- RSV, bits 31:12, is not 0. -/
  | reservedBits
  /-- IDX ≠ 0 on an OPC that takes no index. -/
  | indexOnNoIndexCommand
  /-- A header OPC whose kind nibble is 6..15. -/
  | headerKind
  /-- An OPC outside the map of R114. -/
  | opcode
  deriving DecidableEq, Repr

/-- OPC = c[7:0] (30_encoding.md R110). -/
def opcOf (c : Word) : Nat := (c.extractLsb' 0 8).toNat

/-- IDX = c[11:8] (30_encoding.md R110). -/
def idxOf (c : Word) : Nat := (c.extractLsb' 8 4).toNat

/-- RSV = c[31:12] (30_encoding.md R110). -/
def rsvOf (c : Word) : Nat := (c.extractLsb' 12 20).toNat

/-- The header kind of a kind nibble (30_encoding.md R113). -/
def kindOfCode : Nat → Option HeaderKind
  | 0 => some .cspv1
  | 1 => some .cspv2
  | 2 => some .sfhdr
  | 3 => some .olchdr
  | 4 => some .olshdr
  | 5 => some .olsftr
  | _ => none

/-- The indexed commands (30_encoding.md R115, third line). -/
def indexedOfOpc (opc idx : Nat) : Option Instr :=
  match opc with
  | 0x40 => some (.crcAdp idx)
  | 0x50 => some (.adpWrap idx)
  | 0x51 => some (.adpUnwrap idx)
  | 0x52 => some (.adpWsize idx)
  | _ => none

/-- The commands with neither an index nor a header kind (30_encoding.md R114, R115). -/
def plainOfOpc : Nat → Option Instr
  | 0x00 => some .nop
  | 0x01 => some .cfgLock
  | 0x02 => some .cfgUnlock
  | 0x41 => some .crcCc1110
  | 0x42 => some .crcC32c
  | 0x43 => some .crcC32ieee
  | 0x60 => some .pipeWrap
  | 0x61 => some .pipeUnwrap
  | 0x62 => some .pipeWsize
  | 0x63 => some .send
  | _ => none

/-- The header operation of an OPC's high nibble (30_encoding.md R115). -/
def headerOpOf : Nat → Option (HeaderKind → Instr)
  | 1 => some Instr.validateOf
  | 2 => some Instr.encodeOf
  | 3 => some Instr.decodeOf
  | _ => none

/-- The decoder of command words (30_encoding.md R115). -/
def decodeCmd (c : Word) : Except Illegal Instr :=
  if rsvOf c ≠ 0 then .error .reservedBits
  else
    match indexedOfOpc (opcOf c) (idxOf c) with
    | some i => .ok i
    | none =>
      if idxOf c ≠ 0 then .error .indexOnNoIndexCommand
      else
        match plainOfOpc (opcOf c) with
        | some i => .ok i
        | none =>
          match headerOpOf (opcOf c / 16) with
          | none => .error .opcode
          | some op =>
            match kindOfCode (opcOf c % 16) with
            | none => .error .headerKind
            | some k => .ok (op k)

/-- The action of one RX_CTRL bit, when the bit is set. -/
def actionOf (a : Word) (bit : Nat) (i : Instr) : List Instr := if a.getLsbD bit then [i] else []

/-- The actions of an RX_CTRL word, in the order they are performed; bits 31:5 are ignored
(10_state.md R57, 44_frame_receiver.md R360, 30_encoding.md R116). -/
def decodeRxctrl (a : Word) : List Instr :=
  actionOf a 2 .rxCancel ++ actionOf a 3 .rxMsgPop ++ actionOf a 4 .rxErrPop
    ++ actionOf a 1 .rxReset ++ actionOf a 0 .rxStart

/-- What a word stands for: one command when written to CMD, the list of its actions when written to RX_CTRL
(30_encoding.md R111). -/
def decode (f : Format) (c : Word) : Except Illegal (List Instr) :=
  match f with
  | .cmd => (decodeCmd c).map fun i => [i]
  | .rxctrl => .ok (decodeRxctrl c)

/-- OPC of a command, and the action word of an RX_CTRL action (30_encoding.md R114, R121). -/
def Instr.opc : Instr → Nat
  | .nop => 0x00
  | .cfgLock => 0x01
  | .cfgUnlock => 0x02
  | .hdrValidateCspv1 => 0x10
  | .hdrValidateCspv2 => 0x11
  | .hdrValidateSfhdr => 0x12
  | .hdrValidateOlchdr => 0x13
  | .hdrValidateOlshdr => 0x14
  | .hdrValidateOlsftr => 0x15
  | .hdrEncodeCspv1 => 0x20
  | .hdrEncodeCspv2 => 0x21
  | .hdrEncodeSfhdr => 0x22
  | .hdrEncodeOlchdr => 0x23
  | .hdrEncodeOlshdr => 0x24
  | .hdrEncodeOlsftr => 0x25
  | .hdrDecodeCspv1 => 0x30
  | .hdrDecodeCspv2 => 0x31
  | .hdrDecodeSfhdr => 0x32
  | .hdrDecodeOlchdr => 0x33
  | .hdrDecodeOlshdr => 0x34
  | .hdrDecodeOlsftr => 0x35
  | .crcAdp _ => 0x40
  | .crcCc1110 => 0x41
  | .crcC32c => 0x42
  | .crcC32ieee => 0x43
  | .adpWrap _ => 0x50
  | .adpUnwrap _ => 0x51
  | .adpWsize _ => 0x52
  | .pipeWrap => 0x60
  | .pipeUnwrap => 0x61
  | .pipeWsize => 0x62
  | .send => 0x63
  | .rxStart => 0x01
  | .rxReset => 0x02
  | .rxCancel => 0x04
  | .rxMsgPop => 0x08
  | .rxErrPop => 0x10

/-- IDX of an instruction, 0 for those that take none (30_encoding.md R117). -/
def Instr.index : Instr → Nat
  | .crcAdp i | .adpWrap i | .adpUnwrap i | .adpWsize i => i
  | .nop | .cfgLock | .cfgUnlock | .hdrValidateCspv1 | .hdrValidateCspv2 | .hdrValidateSfhdr |
    .hdrValidateOlchdr | .hdrValidateOlshdr | .hdrValidateOlsftr | .hdrEncodeCspv1 | .hdrEncodeCspv2
    | .hdrEncodeSfhdr | .hdrEncodeOlchdr | .hdrEncodeOlshdr | .hdrEncodeOlsftr | .hdrDecodeCspv1 |
    .hdrDecodeCspv2 | .hdrDecodeSfhdr | .hdrDecodeOlchdr | .hdrDecodeOlshdr | .hdrDecodeOlsftr |
    .crcCc1110 | .crcC32c | .crcC32ieee | .pipeWrap | .pipeUnwrap | .pipeWsize | .send | .rxStart |
    .rxReset | .rxCancel | .rxMsgPop | .rxErrPop => 0

/-- enc(m) = OPC(m) | IDX << 8 (30_encoding.md R117, R121). -/
def encode (i : Instr) : Word := BitVec.ofNat 32 (i.opc ||| i.index <<< 8)

/-- The format of an opcode-table row by its width: the RX_CTRL actions are the rows whose bits all lie in the first
byte; every command row has 32 bits (assumption 15). -/
def formatOfBits (nbits : Nat) : Format := if nbits ≤ 8 then .rxctrl else .cmd

/-- What the decoder reads from a table row's word: the command, or the first action the word performs. -/
def decodeTableWord (nbits w : Nat) : Option Instr :=
  match decode (formatOfBits nbits) (BitVec.ofNat 32 w) with
  | .ok (i :: _) => some i
  | _ => none

/-- The name of a header kind in assembler text (30_encoding.md R118). -/
def HeaderKind.text : HeaderKind → String
  | .cspv1 => "CSPV1"
  | .cspv2 => "CSPV2"
  | .sfhdr => "SFHDR"
  | .olchdr => "OLCHDR"
  | .olshdr => "OLSHDR"
  | .olsftr => "OLSFTR"

/-- The six header kinds, in code order. -/
def allKinds : List HeaderKind := [.cspv1, .cspv2, .sfhdr, .olchdr, .olshdr, .olsftr]

/-- Every command with the fields of its assembler text, `MNEMONIC`, `HDR.OP KIND` or `MNEMONIC i`
(30_encoding.md R118). -/
def commandTexts : List (List String × Instr) :=
  [(["NOP"], .nop), (["CFG.LOCK"], .cfgLock), (["CFG.UNLOCK"], .cfgUnlock),
   (["CRC.CC1110"], .crcCc1110), (["CRC.C32C"], .crcC32c), (["CRC.C32IEEE"], .crcC32ieee),
   (["PIPE.WRAP"], .pipeWrap), (["PIPE.UNWRAP"], .pipeUnwrap), (["PIPE.WSIZE"], .pipeWsize), (["SEND"], .send)]
  ++ allKinds.map (fun k => (["HDR.VALIDATE", k.text], Instr.validateOf k))
  ++ allKinds.map (fun k => (["HDR.ENCODE", k.text], Instr.encodeOf k))
  ++ allKinds.map (fun k => (["HDR.DECODE", k.text], Instr.decodeOf k))
  ++ (List.range 16).flatMap (fun n =>
      [(["CRC.ADP", toString n], .crcAdp n), (["ADP.WRAP", toString n], .adpWrap n),
       (["ADP.UNWRAP", toString n], .adpUnwrap n), (["ADP.WSIZE", toString n], .adpWsize n)])

/-- The command of a line of assembler text given as its space-separated fields; case is significant
(30_encoding.md R118). -/
def assemble (fields : List String) : Option Instr := (commandTexts.find? (·.1 = fields)).map (·.2)

end Sys2Proof
end

