-- ==== Sys2Proof/Config.lean ====
section
/-! DEFINITION. What an implementation of the SFE fixes: the sizes it takes as parameters (00_scope.md R6), the two open
parameters, the oracles of the two ports (70_reset_and_hazards.md R448), and the free values, which are opaque constants
that no proof can evaluate. -/

namespace Sys2Proof

/-- The sized parameters of the SFE, each an argument of the model: State holds them and no step changes them
(00_scope.md R6; assumption 7). -/
structure Params where
  /-- SYNC_MAX, the largest sync marker length in bytes. -/
  syncMax : Nat
  /-- FRAME_MAX, the largest frame size in bytes. -/
  frameMax : Nat
  /-- DATAPATH_MAX, the largest byte sequence of the command engine, and the size of IN_BUF and OUT_BUF. -/
  datapathMax : Nat
  /-- ADP_MAX, the largest number of adapters in the chain. -/
  adpMax : Nat
  /-- RDBUF_CAP, the capacity of the frame reader buffer. -/
  rdbufCap : Nat
  deriving DecidableEq, Repr

/-- MSGBUF_SIZE, the size of MSG_BUF: FRAME_MAX (00_scope.md R6). -/
def Params.msgbufSize (p : Params) : Nat := p.frameMax

/-- The constraints on the sized parameters (00_scope.md R6). -/
abbrev Params.wf (p : Params) : Prop :=
  (1 ≤ p.syncMax ∧ p.syncMax ≤ 8) ∧ (1 ≤ p.frameMax ∧ p.frameMax ≤ 4086)
    ∧ (p.frameMax + 10 ≤ p.datapathMax ∧ p.datapathMax ≤ 4096) ∧ (1 ≤ p.adpMax ∧ p.adpMax ≤ 8)
    ∧ 2 * (p.syncMax + p.frameMax) ≤ p.rdbufCap

/-- The values this hardware takes (00_scope.md R6). -/
def Config.params : Params :=
  { syncMax := 8, frameMax := 2048, datapathMax := 4096, adpMax := 8, rdbufCap := 2 * (8 + 2048) }

/-- ZERO_READ_POLICY, an open parameter of the spec (44_frame_receiver.md R338; assumption 6). -/
opaque Config.zeroReadPolicy : ZeroReadPolicy

/-- DECODE_CHECK, an open parameter of the spec: whether HDR.DECODE of a kind also fails on reserved bits and
out-of-range fields (40_header_codecs.md R146; assumption 5). -/
opaque Config.decodeCheck : HeaderKind → Bool

/-- The two oracles of a launch (70_reset_and_hazards.md R448): each maps the history of its port's transactions, the one
outstanding last, to an answer or to no answer (20_memory.md R90, R92; assumption 2). -/
structure Ports where
  source : List PortEvent → Option SourceAnswer
  sink : List PortEvent → Option SinkAnswer
  deriving Inhabited

/-- The free oracles behind the two ports of `step`: any two functions of the histories (assumption 2). -/
opaque Config.ports : Ports

/-- The free draw for the unspecified byte at a host-space offset in the step with the given number
(60_exceptions.md R398; assumption 3). -/
opaque Config.freeByte : (tick : Nat) → (offset : Nat) → Byte

/-- The free choice of the agent that takes the step with the given number, once the schedule held in State is used
up (20_memory.md R95; assumption 1). -/
opaque Config.turn : (tick : Nat) → Agent

end Sys2Proof
end

