-- ==== Sys2Proof/Machine/State.lean ====
section
/-! DEFINITION. The state of the machine as plain data: every register, flag, buffer and hidden state of 10_state.md,
the plain data that stands for the agents outside the SFE, and the state after reset (70_reset_and_hazards.md R431). -/

namespace Sys2Proof.Machine

/-- The error codes (60_exceptions.md R390). `EndOfStream` is never reported as a code, so it has none here. -/
inductive ErrCode
  | configInvalid | payloadTooLarge | headerFieldOutOfRange | headerDecodeError | crcMismatch | asmMismatch
  | lengthMismatch | typeMismatch | tooShort | writeShort | transportError
  | cmdInvalid | operandInvalid | notConfigured | busy | capacityExceeded
  deriving DecidableEq, Repr

/-- STATUS (10_state.md R35). Its reserved bits read 0 and are not held. -/
structure Status where
  busy : Bool
  done : Bool
  err : Bool
  dropped : Bool
  cfgLocked : Bool
  errCode : BitVec 8
  errIdx : BitVec 4
  deriving DecidableEq, Repr

/-- The implemented bits of one adapter descriptor (10_state.md R49): W0[3:0], W0[15:8], W1, W2 and W3[23:0]. -/
structure Desc where
  kind : BitVec 4
  opts : BitVec 8
  w1 : Word
  w2 : Word
  w3 : BitVec 24
  deriving DecidableEq, Repr

/-- The configuration registers (43_pipeline_and_control.md R296; 10_state.md R44 to R56). -/
structure Cfg where
  syncLen : BitVec 4
  sync0 : Word
  sync1 : Word
  frameSize : Half
  nAdp : BitVec 4
  errqEn : Bool
  adp : Vector Desc 8
  deriving DecidableEq, Repr

/-- RX_STATUS.STATE (10_state.md R59), in code order. -/
inductive RxState
  | idle | seeking | reading | decoding | delivering | reporting | canceled | eos
  deriving DecidableEq, Repr

/-- RX_STATUS (10_state.md R58). -/
structure RxStatus where
  state : RxState
  msgValid : Bool
  errValid : Bool
  cancelPending : Bool
  ctrlRejected : Bool
  deriving DecidableEq, Repr

/-- ERR_INFO (10_state.md R61). -/
structure ErrInfo where
  code : BitVec 8
  stage : BitVec 4
  adpIdx : BitVec 4
  deriving DecidableEq, Repr

/-- The stage an error item belongs to (44_frame_receiver.md R341). -/
inductive ErrStage
  | seek | read | unwrap
  deriving DecidableEq, Repr

/-- rx_item: the outcome of DECODING before it is offered (44_frame_receiver.md R341). -/
inductive RxItem
  | msg (x : Bytes)
  | err (e : ErrCode) (stage : ErrStage) (idx : Nat)
  deriving DecidableEq, Repr

/-- The bytes of the three windows, keyed by their offset in the host register space (20_memory.md R80), in canonical
form: offsets strictly rising. An offset that is not listed holds no specified value. -/
abbrev Memory := List Host.Cell

/-- The whole state. The fields from `sinkAnswer` on are the model's own: the SINK's answer held until SEND's completion
step, the plain data that stands for the HOST, SOURCE and SINK, the schedule, the step counter and the sizes. -/
structure State where
  status : Status
  inLen : Half
  outLen : Half
  result : Word
  arg : Half
  hf : Vector Half 8
  irqEn : BitVec 4
  irqStatus : BitVec 4
  cfg : Cfg
  rx : RxStatus
  msgLen : Half
  errInfo : ErrInfo
  /-- IN_BUF, OUT_BUF and MSG_BUF (10_state.md R62 to R64). -/
  mem : Memory
  /-- The accepted command word while BUSY (10_state.md R65). -/
  cmd : Option Word
  pipeI : Nat
  /-- The bytes of the push issued by SEND and not yet answered. -/
  sinkPending : Option Bytes
  rdbuf : Bytes
  frame : Bytes
  pullPending : Option (PullStage × Nat)
  rxItem : Option RxItem
  /-- The sequence of Push and Pull transactions with their answers since reset, oldest first. -/
  portLog : List PortEvent
  /-- The pushed bytes and the SINK's answer, between the answer and SEND's completion step (assumption 10). -/
  sinkAnswer : Option (Bytes × SinkAnswer)
  /-- The HOST's remaining statements (70_reset_and_hazards.md R448; assumption 2). -/
  program : List HostStmt
  /-- The values the HOST's `rd` statements returned, with their offsets, oldest first (assumption 18). -/
  hostReads : List (BitVec 16 × Word)
  /-- The SOURCE's first answers to come; its oracle gives the ones after them (70_reset_and_hazards.md R448;
  assumption 2). -/
  sourcePlan : List SourceAnswer
  /-- The SINK's first answers to come; its oracle gives the ones after them (70_reset_and_hazards.md R448;
  assumption 2). -/
  sinkPlan : List SinkAnswer
  /-- The ports' own record of the transactions before the last reset (70_reset_and_hazards.md R432; assumption 16). -/
  pastLog : List PortEvent
  /-- The agents that take the next steps, next first (assumption 1). -/
  sched : List Agent
  /-- The number of steps taken, the argument of every free value (assumption 4). -/
  tick : Nat
  /-- The sizes this SFE is built with (00_scope.md R6; assumption 7). -/
  params : Params
  deriving DecidableEq, Repr

/-- The one fault of the machine. -/
inductive Fault
  /-- `fault BusError` (20_memory.md R82, 60_exceptions.md R398) of the HOST's statement `stmt`, which accesses the bus at
  an offset that is not word-aligned or with a width other than 4 bytes: the fault names its kind and its statement
  (70_reset_and_hazards.md R449). Raised by the HOST's step only; the access is not performed. Safe: the spec itself says
  that the host program faults. -/
  | busError (stmt : HostStmt)
  deriving DecidableEq, Repr

/-- Why a step has no meaning. -/
inductive Refusal
  /-- An instruction without a meaning in `exec`. No arm raises it. Safe: the run stops. -/
  | notModelled (mnemonic : String)
  deriving DecidableEq, Repr

/-- STATUS after reset: 0x0000_0000 (70_reset_and_hazards.md R431). -/
def Status.reset : Status :=
  { busy := false, done := false, err := false, dropped := false, cfgLocked := false, errCode := 0, errIdx := 0 }

/-- A descriptor after reset: every word 0 (10_state.md R49). -/
def Desc.reset : Desc := { kind := 0, opts := 0, w1 := 0, w2 := 0, w3 := 0 }

/-- The configuration registers after reset: 0 (70_reset_and_hazards.md R431). -/
def Cfg.reset : Cfg :=
  { syncLen := 0, sync0 := 0, sync1 := 0, frameSize := 0, nAdp := 0, errqEn := false, adp := Vector.replicate 8 Desc.reset }

/-- RX_STATUS after reset: 0 (70_reset_and_hazards.md R431). -/
def RxStatus.reset : RxStatus :=
  { state := .idle, msgValid := false, errValid := false, cancelPending := false, ctrlRejected := false }

/-- The state right after reset (70_reset_and_hazards.md R431): the buffers unspecified (nothing listed), nothing in
flight, every flag 0; the sizes are this hardware's; no host program and no port answers are placed (assumption 2). -/
def State.reset : State :=
  { status := Status.reset, inLen := 0, outLen := 0, result := 0, arg := 0, hf := Vector.replicate 8 0
    irqEn := 0, irqStatus := 0, cfg := Cfg.reset, rx := RxStatus.reset, msgLen := 0
    errInfo := { code := 0, stage := 0, adpIdx := 0 }, mem := [], cmd := none, pipeI := 0, sinkPending := none
    rdbuf := [], frame := [], pullPending := none, rxItem := none, portLog := [], sinkAnswer := none
    program := [], hostReads := [], sourcePlan := [], sinkPlan := [], pastLog := [], sched := [], tick := 0
    params := Config.params }

end Sys2Proof.Machine
end

