-- ==== Sys2Proof/Machine/Flags.lean ====
section
/-! DEFINITION. The flags of the SFE (10_state.md R66) and the numeric codes its status registers show: STATUS, RX_STATUS,
ERR_INFO, IRQ_STATUS and the `irq` output. -/

namespace Sys2Proof.Machine

/-- The 8-bit error codes (60_exceptions.md R390). -/
def ErrCode.code : ErrCode → BitVec 8
  | .configInvalid => 0x01
  | .payloadTooLarge => 0x02
  | .headerFieldOutOfRange => 0x03
  | .headerDecodeError => 0x04
  | .crcMismatch => 0x05
  | .asmMismatch => 0x06
  | .lengthMismatch => 0x07
  | .typeMismatch => 0x08
  | .tooShort => 0x09
  | .writeShort => 0x0A
  | .transportError => 0x0C
  | .cmdInvalid => 0x20
  | .operandInvalid => 0x21
  | .notConfigured => 0x22
  | .busy => 0x23
  | .capacityExceeded => 0x24

/-- The codes of RX_STATUS.STATE (10_state.md R59). -/
def RxState.code : RxState → BitVec 3
  | .idle => 0
  | .seeking => 1
  | .reading => 2
  | .decoding => 3
  | .delivering => 4
  | .reporting => 5
  | .canceled => 6
  | .eos => 7

/-- The receiver runs: STATE 1..5 (43_pipeline_and_control.md R298). -/
def RxState.running : RxState → Bool
  | .seeking | .reading | .decoding | .delivering | .reporting => true
  | .idle | .canceled | .eos => false

/-- The codes of ERR_INFO.STAGE (10_state.md R61, 44_frame_receiver.md R341). -/
def ErrStage.code : ErrStage → BitVec 4
  | .seek => 1
  | .read => 2
  | .unwrap => 3

/-- The stage an error item of a pull belongs to (44_frame_receiver.md R340). -/
def errStageOf : PullStage → ErrStage
  | .seek => .seek
  | .read => .read

/-- STATUS as the host reads it (10_state.md R35). -/
def Status.word (st : Status) : Word :=
  0#12 ++ st.errIdx ++ st.errCode ++ 0#3 ++ BitVec.ofBool st.cfgLocked ++ BitVec.ofBool st.dropped
    ++ BitVec.ofBool st.err ++ BitVec.ofBool st.done ++ BitVec.ofBool st.busy

/-- RX_STATUS as the host reads it (10_state.md R58). -/
def RxStatus.word (r : RxStatus) : Word :=
  0#20 ++ BitVec.ofBool r.ctrlRejected ++ BitVec.ofBool r.cancelPending ++ BitVec.ofBool r.errValid
    ++ BitVec.ofBool r.msgValid ++ 0#5 ++ r.state.code

/-- ERR_INFO as the host reads it (10_state.md R61). -/
def ErrInfo.word (e : ErrInfo) : Word := 0#16 ++ e.adpIdx ++ e.stage ++ e.code

/-- IRQ_STATUS bit 0, CMD_DONE (60_exceptions.md R400). -/
def irqCmdDone : BitVec 4 := 1

/-- IRQ_STATUS bit 1, MSG (60_exceptions.md R400). -/
def irqMsg : BitVec 4 := 2

/-- IRQ_STATUS bit 2, ERR (60_exceptions.md R400). -/
def irqErr : BitVec 4 := 4

/-- IRQ_STATUS bit 3, RX_END (60_exceptions.md R400). -/
def irqRxEnd : BitVec 4 := 8

/-- The `irq` output, a level: some pending source is enabled (60_exceptions.md R402). -/
def State.irq (s : State) : Bool := s.irqStatus &&& s.irqEn ≠ 0

end Sys2Proof.Machine
end

