-- ==== Sys2Proof/Machine/Ops.lean ====
section
/-! DEFINITION. The named operations over memory and registers: the window memory and its canonical form, the drop rules of
10_state.md R33, the acceptance of a command (43_pipeline_and_control.md R290), its completion without error and its
completion WITH an error, which is how the SFE takes an exception (60_exceptions.md R392, R395 to R397), and the receiver's
shared steps. -/

namespace Sys2Proof.Machine

/-- The offset of byte 0 of IN_BUF in the host register space (10_state.md R62). -/
def inBase : Nat := 0x1000

/-- The offset of byte 0 of OUT_BUF (10_state.md R63). -/
def outBase : Nat := 0x2000

/-- The offset of byte 0 of MSG_BUF (10_state.md R64). -/
def msgBase : Nat := 0x3000

/-- The value an offset that is not listed reads as: none, the byte is unspecified and its reader draws a free value
(60_exceptions.md R398; assumptions 3 and 17). -/
def Memory.unlisted : Option Byte := none

/-- The byte at an offset of the window memory, or that it is unspecified. -/
def Memory.read : Memory → Nat → Option Byte
  | [], _ => Memory.unlisted
  | (k, b) :: m, a => if k = a then some b else Memory.read m a

/-- Consecutive bytes as cells, the first at `base`. -/
def Memory.cells (base : Nat) : Bytes → Memory
  | [] => []
  | b :: bs => (base, b) :: Memory.cells (base + 1) bs

/-- The bytes from `base` on become `bs`; every other offset keeps what it holds. The one write operation of the window
memory. -/
def Memory.splice (base : Nat) (bs : Bytes) (m : Memory) : Memory :=
  m.filter (fun c => c.1 < base) ++ Memory.cells base bs ++ m.filter (fun c => base + bs.length ≤ c.1)

/-- An offset of a byte of IN_BUF, OUT_BUF or MSG_BUF (10_state.md R62 to R64, 20_memory.md R80). -/
abbrev windowByte (p : Params) (a : Nat) : Prop :=
  (inBase ≤ a ∧ a < inBase + p.datapathMax) ∨ (outBase ≤ a ∧ a < outBase + p.datapathMax)
    ∨ (msgBase ≤ a ∧ a < msgBase + p.msgbufSize)

/-- The canonical form of the window memory: offsets strictly rising, each a byte of a window. Since an unlisted offset
has no value, no listed value equals it. -/
abbrev Memory.wf (p : Params) (m : Memory) : Prop :=
  m.Pairwise (fun c d => c.1 < d.1) ∧ ∀ c ∈ m, windowByte p c.1

/-- A free draw for an unspecified byte, one per step and offset (60_exceptions.md R398; assumption 3). -/
def State.draw (s : State) (a : Nat) : Byte := Config.freeByte s.tick a

/-- Byte a of IN_BUF as the SFE and the host read it (10_state.md R62). -/
def State.inByte (s : State) (a : Nat) : Byte := (s.mem.read (inBase + a)).getD (s.draw (inBase + a))

/-- Byte a of OUT_BUF as the host reads it: unspecified at OUT_LEN and past it (10_state.md R63). -/
def State.outByte (s : State) (a : Nat) : Byte :=
  if a < s.outLen.toNat then (s.mem.read (outBase + a)).getD (s.draw (outBase + a)) else s.draw (outBase + a)

/-- Byte a of MSG_BUF as the host reads it: unspecified at MSG_LEN and past it, and while MSG_VALID = 0
(10_state.md R64). -/
def State.msgByte (s : State) (a : Nat) : Byte :=
  if s.rx.msgValid ∧ a < s.msgLen.toNat then (s.mem.read (msgBase + a)).getD (s.draw (msgBase + a))
  else s.draw (msgBase + a)

/-- The input of a command, IN = InBuf(0, IN_LEN) (10_state.md R36). -/
def State.input (s : State) : Bytes := (List.range s.inLen.toNat).map s.inByte

/-- STATUS.DROPPED <- 1 (10_state.md R33 items 6 and 7, 43_pipeline_and_control.md R290). -/
def State.drop (s : State) : State := { s with status := { s.status with dropped := true } }

/-- OutBuf <- v; OUT_LEN <- len(v) (10_state.md R37, R63): byte j of v at OUT_BUF offset j. No byte is stored past the
window; under a locked configuration no output is that long (42_adapters.md R231). -/
def State.writeOut (v : Bytes) (s : State) : State :=
  { s with mem := Memory.splice outBase (v.take s.params.datapathMax) s.mem, outLen := BitVec.ofNat 16 v.length }

/-- A word of IN_BUF at byte index a, the lowest index in the least significant lane (20_memory.md R83). A lane past the
window's last byte is unmapped and stores nothing (10_state.md R62; assumption 23). -/
def State.writeInWord (a : Nat) (v : Word) (s : State) : State :=
  let bs := [v.extractLsb' 0 8, v.extractLsb' 8 8, v.extractLsb' 16 8, v.extractLsb' 24 8]
  { s with mem := Memory.splice (inBase + a) (bs.take (s.params.datapathMax - a)) s.mem }

/-- RESULT <- v (10_state.md R38). -/
def State.writeResult (v : Word) (s : State) : State := { s with result := v }

/-- HF <- h (40_header_codecs.md R145). -/
def State.writeHf (h : Vector Half 8) (s : State) : State := { s with hf := h }

/-- STATUS.CFG_LOCKED <- b (43_pipeline_and_control.md R297, R298). -/
def State.setLocked (b : Bool) (s : State) : State := { s with status := { s.status with cfgLocked := b } }

/-- The acceptance of command word c (43_pipeline_and_control.md R290). -/
def State.accept (c : Word) (s : State) : State :=
  { s with
    cmd := some c
    status := { s.status with busy := true, done := false, err := false, dropped := false, errCode := 0, errIdx := 0 } }

/-- An error a command raises: its code and its error index (60_exceptions.md R391). -/
structure Raised where
  code : ErrCode
  idx : Nat
  deriving DecidableEq, Repr

/-- Completion without error (60_exceptions.md R395): the command engine is idle again. -/
def State.completeOk (s : State) : State :=
  { s with
    cmd := none
    status := { s.status with busy := false, done := true, err := false, errCode := 0, errIdx := 0 }
    irqStatus := s.irqStatus ||| irqCmdDone }

/-- Completion with an error, `raise E(idx)` (60_exceptions.md R396): how an exception is taken. STATUS.ERR, ERR_CODE and
ERR_IDX save it, and no output is written. Its counterpart, the return, is the next acceptance (R397). -/
def State.completeErr (e : Raised) (s : State) : State :=
  { s with
    cmd := none
    status := { s.status with
      busy := false, done := true, err := true, errCode := e.code.code, errIdx := BitVec.ofNat 4 e.idx }
    irqStatus := s.irqStatus ||| irqCmdDone }

/-- The completion step of a command whose own pseudocode gave `r`: its outputs in the same step when it raised nothing,
and none of them when it raised (43_pipeline_and_control.md R294, 60_exceptions.md R395, R396). -/
def complete (s : State) (r : Except Raised State) : State :=
  match r with
  | .ok t => t.completeOk
  | .error e => s.completeErr e

/-- The entry of the receiver in CANCELED or EOS, which sets IRQ_STATUS.RX_END (60_exceptions.md R400). -/
def State.rxEnd (st : RxState) (s : State) : State :=
  { s with rx := { s.rx with state := st }, irqStatus := s.irqStatus ||| irqRxEnd }

/-- RX_STATUS.STATE <- st. -/
def State.setRxState (st : RxState) (s : State) : State := { s with rx := { s.rx with state := st } }

/-- STATE <- top(), the iteration top, cancel checkpoint CP1 (44_frame_receiver.md R343). -/
def State.enterTop (s : State) : State :=
  if s.rx.cancelPending then s.rxEnd .canceled else s.setRxState .seeking

/-- RX_STATUS.CTRL_REJECTED <- 1 (44_frame_receiver.md R361, R362). -/
def State.rejectCtrl (s : State) : State := { s with rx := { s.rx with ctrlRejected := true } }

/-- `Pull(k)`; pull_pending <- stage (44_frame_receiver.md R331). -/
def State.issuePull (stage : PullStage) (k : Nat) (s : State) : State :=
  { s with pullPending := some (stage, k), portLog := s.portLog ++ [.pull stage k] }

/-- `Push(f)`; sink_pending <- 1; the pipeline controller waits in P_WAIT past its last stage
(43_pipeline_and_control.md R301, R306; assumption 9). -/
def State.issuePush (f : Bytes) (s : State) : State :=
  { s with sinkPending := some f, pipeI := s.cfg.nAdp.toNat, portLog := s.portLog ++ [.push f] }

end Sys2Proof.Machine
end

