-- ==== Sys2Proof/Machine/Operands.lean ====
section
/-! DEFINITION. Operand forms: bit fields and byte orders (00_scope.md R7 to R9), the sync marker, the fields of the adapter
descriptors (10_state.md R49 to R56), and which operands each command reads (30_encoding.md R112). -/

namespace Sys2Proof.Machine

/-- x[hi:lo] = (x >> lo) mod 2^(hi-lo+1) (00_scope.md R7). -/
def slice (x hi lo : Nat) : Nat := (x >>> lo) % 2 ^ (hi - lo + 1)

/-- v[a:b], the bytes a..b−1 (00_scope.md R8). -/
def sub (v : Bytes) (a b : Nat) : Bytes := (v.drop a).take (b - a)

/-- zeros(n) (00_scope.md R8). -/
def zeros (n : Nat) : Bytes := List.replicate n 0

/-- be_N(x), the N-byte big-endian serialization (00_scope.md R9). -/
def be : (n x : Nat) → Bytes
  | 0, _ => []
  | n + 1, x => BitVec.ofNat 8 (x >>> (8 * n)) :: be n x

/-- le_N(x), the N-byte little-endian serialization (00_scope.md R9). -/
def le : (n x : Nat) → Bytes
  | 0, _ => []
  | n + 1, x => BitVec.ofNat 8 x :: le n (x >>> 8)

/-- from_be(v) (00_scope.md R9). -/
def fromBe (v : Bytes) : Nat := v.foldl (fun x b => x * 256 + b.toNat) 0

/-- from_le(v) (00_scope.md R9). -/
def fromLe : Bytes → Nat
  | [] => 0
  | b :: v => b.toNat + 256 * fromLe v

/-- The first four bytes of a 32-bit word, its least significant lane first (10_state.md R45, 20_memory.md R83). -/
def laneBytes (w : Word) : Bytes := le 4 w.toNat

/-- SYNC, the m = CFG_SYNC_LEN marker bytes (10_state.md R45). -/
def Cfg.sync (c : Cfg) : Bytes := (laneBytes c.sync0 ++ laneBytes c.sync1).take c.syncLen.toNat

/-- m, the sync marker length (44_frame_receiver.md R332). -/
def Cfg.m (c : Cfg) : Nat := c.syncLen.toNat

/-- FS, the frame size (44_frame_receiver.md R332). -/
def Cfg.fs (c : Cfg) : Nat := c.frameSize.toNat

/-- L = m + FS (44_frame_receiver.md R332). -/
def Cfg.l (c : Cfg) : Nat := c.m + c.fs

/-- N, the number of adapters in the chain (10_state.md R47). -/
def Cfg.n (c : Cfg) : Nat := c.nAdp.toNat

/-- Descriptor i. No descriptor of index 8 or more exists; it reads as KIND NONE (assumption 14). -/
def Cfg.desc (c : Cfg) (i : Nat) : Desc := c.adp[i]?.getD Desc.reset

/-- The chain of descriptors 0..N−1 with their indices (10_state.md R47). -/
def Cfg.chain (c : Cfg) : List (Nat × Desc) := (List.range c.n).map fun i => (i, c.desc i)

/-- The seven adapter kinds (10_state.md R50). -/
inductive AdapterKind
  | crc16 | crc32 | spaceframe | cspv1 | cspv2 | olstClient | olstSpace
  deriving DecidableEq, Repr

/-- The kind of a KIND code; 0 and 8..15 are no kind (10_state.md R50). -/
def adapterKindOf (kind : BitVec 4) : Option AdapterKind :=
  match kind.toNat with
  | 1 => some .crc16
  | 2 => some .crc32
  | 3 => some .spaceframe
  | 4 => some .cspv1
  | 5 => some .cspv2
  | 6 => some .olstClient
  | 7 => some .olstSpace
  | _ => none

/-- The KIND of a descriptor is CRC16 or CRC32 (43_pipeline_and_control.md R292). -/
def Desc.isCrc (d : Desc) : Bool :=
  adapterKindOf d.kind = some .crc16 ∨ adapterKindOf d.kind = some .crc32

/-- W0[8] REFIN (10_state.md R51). -/
def Desc.refin (d : Desc) : Bool := d.opts.getLsbD 0

/-- W0[9] REFOUT (10_state.md R51). -/
def Desc.refout (d : Desc) : Bool := d.opts.getLsbD 1

/-- W0[9:8] VARIANT (10_state.md R52). -/
def Desc.variant (d : Desc) : Nat := slice d.opts.toNat 1 0

/-- W0[10] WITH_ASM (10_state.md R53). -/
def Desc.withAsm (d : Desc) : Bool := d.opts.getLsbD 2

/-- W0[11] WITH_CRC (10_state.md R53). -/
def Desc.withCrc (d : Desc) : Bool := d.opts.getLsbD 3

/-- W0[15:12] SF_TYPE (10_state.md R53). -/
def Desc.sfType (d : Desc) : Nat := slice d.opts.toNat 7 4

/-- W1[15:0]: POLY, PDS, MAX_DATA or HWID by kind (10_state.md R51, R53 to R56). -/
def Desc.w1lo (d : Desc) : Half := d.w1.extractLsb' 0 16

/-- W1[31:16]: INIT or SEQ by kind (10_state.md R51, R55, R56). -/
def Desc.w1hi (d : Desc) : Half := d.w1.extractLsb' 16 16

/-- W2[15:0]: XOROUT or DST by kind (10_state.md R51, R54). -/
def Desc.w2lo (d : Desc) : Half := d.w2.extractLsb' 0 16

/-- W2[31:16]: SRC (10_state.md R54). -/
def Desc.w2hi (d : Desc) : Half := d.w2.extractLsb' 16 16

/-- W3[7:0]: PRIO or DST by kind (10_state.md R54 to R56). -/
def Desc.w3b0 (d : Desc) : Byte := d.w3.extractLsb' 0 8

/-- W3[15:8]: DPORT or OLCMD by kind (10_state.md R54 to R56). -/
def Desc.w3b1 (d : Desc) : Byte := d.w3.extractLsb' 8 8

/-- W3[23:16]: SPORT or PORT by kind (10_state.md R54, R56). -/
def Desc.w3b2 (d : Desc) : Byte := d.w3.extractLsb' 16 8

/-- PDS, the payload data size of a SPACEFRAME descriptor (10_state.md R53). -/
def Desc.pds (d : Desc) : Nat := d.w1lo.toNat

/-- MAX_DATA of a CSPV1 or CSPV2 descriptor (10_state.md R54). -/
def Desc.maxData (d : Desc) : Nat := d.w1lo.toNat

/-- The commands that need CFG_LOCKED = 1 (43_pipeline_and_control.md R292). -/
def needsLock : Instr → Bool
  | .crcAdp _ | .adpWrap _ | .adpUnwrap _ | .adpWsize _ | .pipeWrap | .pipeUnwrap | .pipeWsize |
    .send => true
  | .nop | .cfgLock | .cfgUnlock | .hdrValidateCspv1 | .hdrValidateCspv2 | .hdrValidateSfhdr |
    .hdrValidateOlchdr | .hdrValidateOlshdr | .hdrValidateOlsftr | .hdrEncodeCspv1 | .hdrEncodeCspv2
    | .hdrEncodeSfhdr | .hdrEncodeOlchdr | .hdrEncodeOlshdr | .hdrEncodeOlsftr | .hdrDecodeCspv1 |
    .hdrDecodeCspv2 | .hdrDecodeSfhdr | .hdrDecodeOlchdr | .hdrDecodeOlshdr | .hdrDecodeOlsftr |
    .crcCc1110 | .crcC32c | .crcC32ieee | .rxStart | .rxReset | .rxCancel | .rxMsgPop | .rxErrPop => false

/-- The commands that name an adapter (43_pipeline_and_control.md R292). -/
def adapterIndex : Instr → Option Nat
  | .crcAdp i | .adpWrap i | .adpUnwrap i | .adpWsize i => some i
  | .nop | .cfgLock | .cfgUnlock | .hdrValidateCspv1 | .hdrValidateCspv2 | .hdrValidateSfhdr |
    .hdrValidateOlchdr | .hdrValidateOlshdr | .hdrValidateOlsftr | .hdrEncodeCspv1 | .hdrEncodeCspv2
    | .hdrEncodeSfhdr | .hdrEncodeOlchdr | .hdrEncodeOlshdr | .hdrEncodeOlsftr | .hdrDecodeCspv1 |
    .hdrDecodeCspv2 | .hdrDecodeSfhdr | .hdrDecodeOlchdr | .hdrDecodeOlshdr | .hdrDecodeOlsftr |
    .crcCc1110 | .crcC32c | .crcC32ieee | .pipeWrap | .pipeUnwrap | .pipeWsize | .send | .rxStart |
    .rxReset | .rxCancel | .rxMsgPop | .rxErrPop => none

/-- The commands that read IN (43_pipeline_and_control.md R292). -/
def readsIn : Instr → Bool
  | .hdrDecodeCspv1 | .hdrDecodeCspv2 | .hdrDecodeSfhdr | .hdrDecodeOlchdr | .hdrDecodeOlshdr |
    .hdrDecodeOlsftr | .crcAdp _ | .crcCc1110 | .crcC32c | .crcC32ieee | .adpWrap _ | .adpUnwrap _ |
    .pipeWrap | .pipeUnwrap | .send => true
  | .nop | .cfgLock | .cfgUnlock | .hdrValidateCspv1 | .hdrValidateCspv2 | .hdrValidateSfhdr |
    .hdrValidateOlchdr | .hdrValidateOlshdr | .hdrValidateOlsftr | .hdrEncodeCspv1 | .hdrEncodeCspv2
    | .hdrEncodeSfhdr | .hdrEncodeOlchdr | .hdrEncodeOlshdr | .hdrEncodeOlsftr | .adpWsize _ |
    .pipeWsize | .rxStart | .rxReset | .rxCancel | .rxMsgPop | .rxErrPop => false

/-- The command that needs a CRC descriptor (43_pipeline_and_control.md R292). -/
def needsCrcKind : Instr → Bool
  | .crcAdp _ => true
  | .nop | .cfgLock | .cfgUnlock | .hdrValidateCspv1 | .hdrValidateCspv2 | .hdrValidateSfhdr |
    .hdrValidateOlchdr | .hdrValidateOlshdr | .hdrValidateOlsftr | .hdrEncodeCspv1 | .hdrEncodeCspv2
    | .hdrEncodeSfhdr | .hdrEncodeOlchdr | .hdrEncodeOlshdr | .hdrEncodeOlsftr | .hdrDecodeCspv1 |
    .hdrDecodeCspv2 | .hdrDecodeSfhdr | .hdrDecodeOlchdr | .hdrDecodeOlshdr | .hdrDecodeOlsftr |
    .crcCc1110 | .crcC32c | .crcC32ieee | .adpWrap _ | .adpUnwrap _ | .adpWsize _ | .pipeWrap |
    .pipeUnwrap | .pipeWsize | .send | .rxStart | .rxReset | .rxCancel | .rxMsgPop | .rxErrPop => false

/-- The common checks of a legal command, in order; the first that fails (43_pipeline_and_control.md R292). That the word
is legal is checked before, by the step that decodes it. -/
def commonChecks (i : Instr) (s : State) : Option Raised :=
  if needsLock i ∧ s.status.cfgLocked = false then some ⟨.notConfigured, 0⟩
  else
    match adapterIndex i with
    | some idx =>
      if s.cfg.n ≤ idx then some ⟨.operandInvalid, idx⟩
      else if needsCrcKind i ∧ !(s.cfg.desc idx).isCrc then some ⟨.operandInvalid, idx⟩
      else if readsIn i ∧ s.params.datapathMax < s.inLen.toNat then some ⟨.operandInvalid, 0⟩
      else none
    | none =>
      if readsIn i ∧ s.params.datapathMax < s.inLen.toNat then some ⟨.operandInvalid, 0⟩ else none

/-- A command evaluated in its completion step: the common checks, then its own pseudocode `body`
(43_pipeline_and_control.md R291, R292). -/
def runCommand (i : Instr) (body : State → Except Raised State) (s : State) : State :=
  match commonChecks i s with
  | some e => s.completeErr e
  | none => complete s (body s)

end Sys2Proof.Machine
end

