-- ==== Sys2Proof/Machine/Crc.lean ====
section
/-! DEFINITION. The CRC generator (41_crc.md R200 to R206) and the meanings of the four CRC commands. -/

namespace Sys2Proof.Machine

/-- A CRC parameter set of width w (41_crc.md R200). -/
structure CrcParams (w : Nat) where
  poly : BitVec w
  init : BitVec w
  refin : Bool
  refout : Bool
  xorout : BitVec w
  deriving DecidableEq, Repr

/-- reflect_w(x): bit i of the result is bit w−1−i of x (00_scope.md R10). -/
def reflect {w : Nat} (x : BitVec w) : BitVec w := x.reverse

/-- One shift of the register: out of its top bit, with the polynomial fed back when that bit was 1 (41_crc.md R200). -/
def crcShift {w : Nat} (poly c : BitVec w) : BitVec w := if c.msb then (c <<< 1) ^^^ poly else c <<< 1

/-- The register after one byte of the message: the byte into its top bits, then eight shifts (41_crc.md R200). -/
def crcByte {w : Nat} (p : CrcParams w) (c : BitVec w) (b : Byte) : BitVec w :=
  let b := if p.refin then reflect b else b
  (crcShift p.poly)^[8] (c ^^^ (b.setWidth w <<< (w - 8)))

/-- crc(P, v) (41_crc.md R200). -/
def crc {w : Nat} (p : CrcParams w) (v : Bytes) : BitVec w :=
  let c := v.foldl (crcByte p) p.init
  (if p.refout then reflect c else c) ^^^ p.xorout

/-- C32IEEE, VARIANT 1 (41_crc.md R202). -/
def c32ieee : CrcParams 32 :=
  { poly := 0x04C11DB7, init := 0xFFFFFFFF, refin := true, refout := true, xorout := 0xFFFFFFFF }

/-- C32C, VARIANT 2, Castagnoli (41_crc.md R202). -/
def c32c : CrcParams 32 :=
  { poly := 0x1EDC6F41, init := 0xFFFFFFFF, refin := true, refout := true, xorout := 0xFFFFFFFF }

/-- P16(i), the parameter set of a CRC16 descriptor (41_crc.md R201, 10_state.md R51). -/
def p16 (d : Desc) : CrcParams 16 :=
  { poly := d.w1lo, init := d.w1hi, refin := d.refin, refout := d.refout, xorout := d.w2lo }

/-- One bit of the message through the CC1110 register (41_crc.md R203). -/
def cc1110Bit (c : BitVec 16) (bit : Bool) : BitVec 16 :=
  if Bool.xor (c.getLsbD 15) bit then (c <<< 1) ^^^ 0x8005 else c <<< 1

/-- One byte of the message, most significant bit first (41_crc.md R203). -/
def cc1110Byte (c : BitVec 16) (b : Byte) : BitVec 16 :=
  [7, 6, 5, 4, 3, 2, 1, 0].foldl (fun c j => cc1110Bit c (b.getLsbD j)) c

/-- cc1110(v) (41_crc.md R203). -/
def cc1110 (v : Bytes) : BitVec 16 := v.foldl cc1110Byte 0xFFFF

/-- crc_adp(i, v), zero-extended to 32 bits; none for a descriptor that is no CRC adapter, which CFG.LOCK refuses
(41_crc.md R205; assumption 14). -/
def crcAdp (d : Desc) (v : Bytes) : Option Word :=
  match adapterKindOf d.kind with
  | some .crc16 => some ((crc (p16 d) v).setWidth 32)
  | some .crc32 =>
    if d.variant = 1 then some (crc c32ieee v)
    else if d.variant = 2 then some (crc c32c v)
    else none
  | _ => none

/-- trailer_len: 2 for CRC16, 4 for CRC32 (41_crc.md R204). -/
def trailerLen (d : Desc) : Nat := if adapterKindOf d.kind = some .crc16 then 2 else 4

/-- The pseudocode of CRC.ADP i (41_crc.md R210). -/
def crcAdpBody (idx : Nat) (s : State) : Except Raised State :=
  match crcAdp (s.cfg.desc idx) s.input with
  | none => .error ⟨.configInvalid, idx⟩
  | some c => .ok (s.writeResult c)

/-- CRC.ADP i (41_crc.md R210). -/
def execCrcAdp (idx : Nat) (s : State) : Host.Outcome State Fault Refusal :=
  .next (runCommand (.crcAdp idx) (crcAdpBody idx) s)

/-- CRC.CC1110 (41_crc.md R211). -/
def execCrcCc1110 (s : State) : Host.Outcome State Fault Refusal :=
  .next (runCommand .crcCc1110 (fun s => .ok (s.writeResult ((cc1110 s.input).setWidth 32))) s)

/-- CRC.C32C (41_crc.md R212). -/
def execCrcC32c (s : State) : Host.Outcome State Fault Refusal :=
  .next (runCommand .crcC32c (fun s => .ok (s.writeResult (crc c32c s.input))) s)

/-- CRC.C32IEEE (41_crc.md R213). -/
def execCrcC32ieee (s : State) : Host.Outcome State Fault Refusal :=
  .next (runCommand .crcC32ieee (fun s => .ok (s.writeResult (crc c32ieee s.input))) s)

end Sys2Proof.Machine
end

