-- ==== Sys2Proof/Machine/Header.lean ====
section
/-! DEFINITION. The header packer HPK: ranges, packing, unpacking, validate, encode and decode of the six header kinds
(40_header_codecs.md R140 to R180), and the meanings of the eighteen header commands. -/

namespace Sys2Proof.Machine

/-- h.s, the value of slot s of a header value (40_header_codecs.md R140). -/
def fld (h : Vector Half 8) (j : Fin 8) : Nat := h[j].toNat

/-- A header value from its fields in slot order; every further slot is 0 (40_header_codecs.md R145). -/
def header (fs : List Nat) : Vector Half 8 := Vector.ofFn fun j => BitVec.ofNat 16 (fs.getD j.val 0)

/-- HLEN_k (40_header_codecs.md R147). -/
def hlen : HeaderKind → Nat
  | .cspv1 => 4
  | .cspv2 => 6
  | .sfhdr => 2
  | .olchdr => 7
  | .olshdr => 6
  | .olsftr => 4

/-- The slots a kind uses, ascending, each with its range (10_state.md R41). -/
def ranges : HeaderKind → List (Fin 8 × Nat × Nat)
  | .cspv1 => [(0, 0, 3), (1, 0, 31), (2, 0, 31), (3, 0, 63), (4, 0, 63)]
  | .cspv2 => [(0, 0, 3), (1, 0, 16383), (2, 0, 16383), (3, 0, 63), (4, 0, 63)]
  | .sfhdr => [(0, 0, 0), (1, 0, 1024)]
  | .olchdr => [(0, 6, 251), (1, 0, 65535), (2, 0, 65535), (3, 0, 255), (4, 0, 255)]
  | .olshdr => [(0, 0, 255), (1, 0, 255), (2, 0, 65535), (3, 0, 255), (4, 0, 255)]
  | .olsftr => [(0, 0, 65535), (1, 0, 255), (2, 0, 255)]

/-- validate_k(h): the lowest slot whose value is out of its range, or none (40_header_codecs.md R141). -/
def validate (k : HeaderKind) (h : Vector Half 8) : Option (Fin 8) :=
  ((ranges k).find? fun r => fld h r.1 < r.2.1 || r.2.2 < fld h r.1).map (·.1)

/-- pack_k(h) (40_header_codecs.md R149, R157, R162, R167, R171, R175). -/
def pack (k : HeaderKind) (h : Vector Half 8) : Bytes :=
  match k with
  | .cspv1 => be 4 (fld h 0 <<< 30 ||| fld h 1 <<< 25 ||| fld h 2 <<< 20 ||| fld h 3 <<< 14 ||| fld h 4 <<< 8)
  | .cspv2 => be 6 (fld h 0 <<< 46 ||| fld h 1 <<< 32 ||| fld h 2 <<< 18 ||| fld h 3 <<< 12 ||| fld h 4 <<< 6)
  | .sfhdr => be 2 (fld h 0 <<< 11 ||| fld h 1)
  | .olchdr => le 1 (fld h 0) ++ le 2 (fld h 1) ++ le 2 (fld h 2) ++ le 1 (fld h 3) ++ le 1 (fld h 4)
  | .olshdr => le 1 (fld h 0) ++ le 1 (fld h 1) ++ le 2 (fld h 2) ++ le 1 (fld h 3) ++ le 1 (fld h 4)
  | .olsftr => le 2 (fld h 0) ++ le 1 (fld h 2) ++ le 1 (fld h 1)

/-- unpack_k(v) for len(v) = HLEN_k: the header value and the raw reserved bits (40_header_codecs.md R149, R157, R162,
R167, R171, R175). -/
def unpack (k : HeaderKind) (v : Bytes) : Vector Half 8 × Nat :=
  match k with
  | .cspv1 =>
    let w := fromBe v
    (header [slice w 31 30, slice w 29 25, slice w 24 20, slice w 19 14, slice w 13 8], slice w 7 0)
  | .cspv2 =>
    let w := fromBe v
    (header [slice w 47 46, slice w 45 32, slice w 31 18, slice w 17 12, slice w 11 6], slice w 5 0)
  | .sfhdr =>
    let w := fromBe v
    (header [slice w 14 11, slice w 10 0], slice w 15 15)
  | .olchdr =>
    (header [fromLe (sub v 0 1), fromLe (sub v 1 3), fromLe (sub v 3 5), fromLe (sub v 5 6), fromLe (sub v 6 7)], 0)
  | .olshdr =>
    (header [fromLe (sub v 0 1), fromLe (sub v 1 2), fromLe (sub v 2 4), fromLe (sub v 4 5), fromLe (sub v 5 6)], 0)
  | .olsftr => (header [fromLe (sub v 0 2), fromLe (sub v 3 4), fromLe (sub v 2 3)], 0)

/-- decode_k(v): the length always, the reserved bits and the ranges under DECODE_CHECK (40_header_codecs.md R143,
R146). -/
def decodeHeader (k : HeaderKind) (v : Bytes) : Except ErrCode (Vector Half 8) :=
  if v.length ≠ hlen k then .error .headerDecodeError
  else
    let (h, rsv) := unpack k v
    if (rsv != 0 || (validate k h).isSome) && Config.decodeCheck k then .error .headerDecodeError else .ok h

/-- encode_k(h): validate, then pack (40_header_codecs.md R142). -/
def encodeHeader (k : HeaderKind) (h : Vector Half 8) : Except Raised Bytes :=
  match validate k h with
  | some slot => .error ⟨.headerFieldOutOfRange, slot.val⟩
  | none => .ok (pack k h)

/-- The pseudocode of HDR.VALIDATE k (40_header_codecs.md R150). -/
def hdrValidate (k : HeaderKind) (s : State) : Except Raised State :=
  match validate k s.hf with
  | some slot => .error ⟨.headerFieldOutOfRange, slot.val⟩
  | none => .ok s

/-- The pseudocode of HDR.ENCODE k (40_header_codecs.md R151). -/
def hdrEncode (k : HeaderKind) (s : State) : Except Raised State :=
  match encodeHeader k s.hf with
  | .error e => .error e
  | .ok v => .ok (s.writeOut v)

/-- The pseudocode of HDR.DECODE k (40_header_codecs.md R152). -/
def hdrDecode (k : HeaderKind) (s : State) : Except Raised State :=
  match decodeHeader k s.input with
  | .error e => .error ⟨e, 0⟩
  | .ok h => .ok (s.writeHf h)

/-- HDR.VALIDATE CSPV1 (40_header_codecs.md R150). -/
def execHdrValidateCspv1 (s : State) : Host.Outcome State Fault Refusal :=
  .next (runCommand .hdrValidateCspv1 (hdrValidate .cspv1) s)

/-- HDR.VALIDATE CSPV2 (40_header_codecs.md R158). -/
def execHdrValidateCspv2 (s : State) : Host.Outcome State Fault Refusal :=
  .next (runCommand .hdrValidateCspv2 (hdrValidate .cspv2) s)

/-- HDR.VALIDATE SFHDR (40_header_codecs.md R163). -/
def execHdrValidateSfhdr (s : State) : Host.Outcome State Fault Refusal :=
  .next (runCommand .hdrValidateSfhdr (hdrValidate .sfhdr) s)

/-- HDR.VALIDATE OLCHDR (40_header_codecs.md R168). -/
def execHdrValidateOlchdr (s : State) : Host.Outcome State Fault Refusal :=
  .next (runCommand .hdrValidateOlchdr (hdrValidate .olchdr) s)

/-- HDR.VALIDATE OLSHDR (40_header_codecs.md R172). -/
def execHdrValidateOlshdr (s : State) : Host.Outcome State Fault Refusal :=
  .next (runCommand .hdrValidateOlshdr (hdrValidate .olshdr) s)

/-- HDR.VALIDATE OLSFTR (40_header_codecs.md R177). -/
def execHdrValidateOlsftr (s : State) : Host.Outcome State Fault Refusal :=
  .next (runCommand .hdrValidateOlsftr (hdrValidate .olsftr) s)

/-- HDR.ENCODE CSPV1 (40_header_codecs.md R151). -/
def execHdrEncodeCspv1 (s : State) : Host.Outcome State Fault Refusal :=
  .next (runCommand .hdrEncodeCspv1 (hdrEncode .cspv1) s)

/-- HDR.ENCODE CSPV2 (40_header_codecs.md R159). -/
def execHdrEncodeCspv2 (s : State) : Host.Outcome State Fault Refusal :=
  .next (runCommand .hdrEncodeCspv2 (hdrEncode .cspv2) s)

/-- HDR.ENCODE SFHDR (40_header_codecs.md R164). -/
def execHdrEncodeSfhdr (s : State) : Host.Outcome State Fault Refusal :=
  .next (runCommand .hdrEncodeSfhdr (hdrEncode .sfhdr) s)

/-- HDR.ENCODE OLCHDR (40_header_codecs.md R169). -/
def execHdrEncodeOlchdr (s : State) : Host.Outcome State Fault Refusal :=
  .next (runCommand .hdrEncodeOlchdr (hdrEncode .olchdr) s)

/-- HDR.ENCODE OLSHDR (40_header_codecs.md R173). -/
def execHdrEncodeOlshdr (s : State) : Host.Outcome State Fault Refusal :=
  .next (runCommand .hdrEncodeOlshdr (hdrEncode .olshdr) s)

/-- HDR.ENCODE OLSFTR (40_header_codecs.md R178). -/
def execHdrEncodeOlsftr (s : State) : Host.Outcome State Fault Refusal :=
  .next (runCommand .hdrEncodeOlsftr (hdrEncode .olsftr) s)

/-- HDR.DECODE CSPV1 (40_header_codecs.md R152). -/
def execHdrDecodeCspv1 (s : State) : Host.Outcome State Fault Refusal :=
  .next (runCommand .hdrDecodeCspv1 (hdrDecode .cspv1) s)

/-- HDR.DECODE CSPV2 (40_header_codecs.md R160). -/
def execHdrDecodeCspv2 (s : State) : Host.Outcome State Fault Refusal :=
  .next (runCommand .hdrDecodeCspv2 (hdrDecode .cspv2) s)

/-- HDR.DECODE SFHDR (40_header_codecs.md R165). -/
def execHdrDecodeSfhdr (s : State) : Host.Outcome State Fault Refusal :=
  .next (runCommand .hdrDecodeSfhdr (hdrDecode .sfhdr) s)

/-- HDR.DECODE OLCHDR (40_header_codecs.md R170). -/
def execHdrDecodeOlchdr (s : State) : Host.Outcome State Fault Refusal :=
  .next (runCommand .hdrDecodeOlchdr (hdrDecode .olchdr) s)

/-- HDR.DECODE OLSHDR (40_header_codecs.md R174). -/
def execHdrDecodeOlshdr (s : State) : Host.Outcome State Fault Refusal :=
  .next (runCommand .hdrDecodeOlshdr (hdrDecode .olshdr) s)

/-- HDR.DECODE OLSFTR (40_header_codecs.md R179). -/
def execHdrDecodeOlsftr (s : State) : Host.Outcome State Fault Refusal :=
  .next (runCommand .hdrDecodeOlsftr (hdrDecode .olsftr) s)

end Sys2Proof.Machine
end

