-- ==== Sys2Proof/Machine/Adapters.lean ====
section
/-! DEFINITION. The seven adapters: wrap, unwrap and wrapped size (42_adapters.md R230 to R270), and the meanings of the
three adapter commands. -/

namespace Sys2Proof.Machine

/-- The capacity check that ends a wrap (42_adapters.md R231). -/
def withinDatapath (p : Params) (r : Bytes) : Except ErrCode Bytes :=
  if p.datapathMax < r.length then .error .capacityExceeded else .ok r

/-- wrap_CRC (42_adapters.md R232). -/
def wrapCrc (p : Params) (d : Desc) (v : Bytes) : Except ErrCode Bytes :=
  match crcAdp d v with
  | none => .error .configInvalid
  | some c => withinDatapath p (v ++ be (trailerLen d) c.toNat)

/-- unwrap_CRC (42_adapters.md R233). -/
def unwrapCrc (d : Desc) (v : Bytes) : Except ErrCode Bytes :=
  let t := trailerLen d
  if v.length ≤ t then .error .tooShort
  else
    let p := v.take (v.length - t)
    match crcAdp d p with
    | none => .error .configInvalid
    | some c => if fromBe (v.drop (v.length - t)) ≠ c.toNat then .error .crcMismatch else .ok p

/-- The Spaceframe ASM, 1A CF FC 1D (42_adapters.md R240). -/
def asm : Bytes := [0x1A, 0xCF, 0xFC, 0x1D]

/-- fsize_i, the frame size of a SPACEFRAME descriptor (42_adapters.md R240). -/
def fsize (d : Desc) : Nat := (if d.withAsm then 4 else 0) + 2 + d.pds + (if d.withCrc then 4 else 0)

/-- A CRC-32C over `body`, big-endian, after it (42_adapters.md R241). -/
def appendCrc32c (body : Bytes) : Bytes := body ++ be 4 (crc c32c body).toNat

/-- wrap_SF (42_adapters.md R241). -/
def wrapSf (d : Desc) (msg : Bytes) : Except ErrCode Bytes :=
  if d.pds < msg.length then .error .payloadTooLarge
  else
    let h := header [d.sfType, msg.length]
    if (validate .sfhdr h).isSome then .error .headerFieldOutOfRange
    else
      let body := pack .sfhdr h ++ msg ++ zeros (d.pds - msg.length)
      let body := if d.withCrc then appendCrc32c body else body
      .ok (if d.withAsm then asm ++ body else body)

/-- The last steps of unwrap_SF, on the frame without ASM and CRC (42_adapters.md R242). -/
def unwrapSfBody (d : Desc) (f : Bytes) : Except ErrCode Bytes :=
  match decodeHeader .sfhdr (f.take 2) with
  | .error e => .error e
  | .ok h =>
    if fld h 0 ≠ d.sfType then .error .typeMismatch
    else if d.pds < fld h 1 then .error .lengthMismatch
    else .ok (sub f 2 (2 + fld h 1))

/-- The CRC step of unwrap_SF (42_adapters.md R242). -/
def unwrapSfCrc (d : Desc) (f : Bytes) : Except ErrCode Bytes :=
  if d.withCrc then
    if fromBe (f.drop (f.length - 4)) ≠ (crc c32c (f.take (f.length - 4))).toNat then .error .crcMismatch
    else unwrapSfBody d (f.take (f.length - 4))
  else unwrapSfBody d f

/-- unwrap_SF (42_adapters.md R242). -/
def unwrapSf (d : Desc) (f : Bytes) : Except ErrCode Bytes :=
  if f.length ≠ fsize d then .error .lengthMismatch
  else if d.withAsm then
    if f.take 4 ≠ asm then .error .asmMismatch else unwrapSfCrc d (f.drop 4)
  else unwrapSfCrc d f

/-- hdr_i of a CSPV1 descriptor, in the slots priority, source, destination, ports (42_adapters.md R248). -/
def cspv1Header (d : Desc) : Vector Half 8 :=
  header [d.w3b0.toNat, d.w2hi.toNat, d.w2lo.toNat, d.w3b1.toNat, d.w3b2.toNat]

/-- hdr_i of a CSPV2 descriptor, in the slots priority, destination, source, ports (42_adapters.md R248). -/
def cspv2Header (d : Desc) : Vector Half 8 :=
  header [d.w3b0.toNat, d.w2lo.toNat, d.w2hi.toNat, d.w3b1.toNat, d.w3b2.toNat]

/-- The wrap of both CSP adapters: the size check, check_csp_header, the header and the message
(42_adapters.md R249, R250, R254). -/
def wrapCsp (p : Params) (k : HeaderKind) (hdr : Vector Half 8) (maxData : Nat) (msg : Bytes) : Except ErrCode Bytes :=
  if maxData < msg.length then .error .payloadTooLarge
  else if (validate k hdr).isSome then .error .headerFieldOutOfRange
  else withinDatapath p (pack k hdr ++ msg)

/-- The unwrap of both CSP adapters; the decoded header is discarded (42_adapters.md R251, R255). -/
def unwrapCsp (k : HeaderKind) (maxData : Nat) (v : Bytes) : Except ErrCode Bytes :=
  if hlen k + maxData < v.length then .error .payloadTooLarge
  else if v.length < hlen k then .error .headerDecodeError
  else
    match decodeHeader k (v.take (hlen k)) with
    | .error e => .error e
    | .ok _ => .ok (v.drop (hlen k))

/-- hdr_i(d) of an OLST_CLIENT descriptor for data of length n (42_adapters.md R260). -/
def olcHeader (d : Desc) (n : Nat) : Vector Half 8 :=
  header [6 + n, d.w1lo.toNat, d.w1hi.toNat, d.w3b0.toNat, d.w3b1.toNat]

/-- wrap_OLC, and the capacity check (42_adapters.md R231, R262; assumption 24). -/
def wrapOlc (p : Params) (d : Desc) (v : Bytes) : Except ErrCode Bytes :=
  if 251 < 6 + v.length then .error .payloadTooLarge
  else withinDatapath p (pack .olchdr (olcHeader d v.length) ++ v)

/-- unwrap_OLC (42_adapters.md R263). -/
def unwrapOlc (v : Bytes) : Except ErrCode Bytes :=
  if v.length < 7 then .error .headerDecodeError
  else
    match decodeHeader .olchdr (v.take 7) with
    | .error e => .error e
    | .ok h => if fld h 0 ≠ v.length - 1 then .error .lengthMismatch else .ok (v.drop 7)

/-- shdr_i(d) of an OLST_SPACE descriptor for data of length n (42_adapters.md R265). -/
def olsHeader (d : Desc) (n : Nat) : Vector Half 8 :=
  header [9 + n, d.w3b2.toNat, d.w1hi.toNat, d.w3b0.toNat, d.w3b1.toNat]

/-- spcrc(h, d, hw) (42_adapters.md R266). -/
def spcrc (h : Vector Half 8) (v : Bytes) (hw : Nat) : BitVec 16 := cc1110 (pack .olshdr h ++ v ++ le 2 hw)

/-- wrap_OLS, and the capacity check (42_adapters.md R231, R267; assumption 24). -/
def wrapOls (p : Params) (d : Desc) (v : Bytes) : Except ErrCode Bytes :=
  if 255 < 9 + v.length then .error .payloadTooLarge
  else
    let h := olsHeader d v.length
    let c := spcrc h v d.w1lo.toNat
    withinDatapath p (pack .olshdr h ++ v ++ le 2 d.w1lo.toNat ++ be 2 c.toNat)

/-- unwrap_OLS (42_adapters.md R268). -/
def unwrapOls (v : Bytes) : Except ErrCode Bytes :=
  let n := v.length
  if n < 10 then .error .headerDecodeError
  else if fromBe (v.drop (n - 2)) ≠ (cc1110 (v.take (n - 2))).toNat then .error .crcMismatch
  else
    match decodeHeader .olshdr (v.take 6) with
    | .error e => .error e
    | .ok h => if fld h 0 ≠ n - 1 then .error .lengthMismatch else .ok (sub v 6 (n - 4))

/-- wrap_i (42_adapters.md R230). A descriptor with no adapter kind, which CFG.LOCK refuses, is ConfigInvalid
(assumption 14). -/
def wrap (p : Params) (d : Desc) (v : Bytes) : Except ErrCode Bytes :=
  match adapterKindOf d.kind with
  | some .crc16 | some .crc32 => wrapCrc p d v
  | some .spaceframe => wrapSf d v
  | some .cspv1 => wrapCsp p .cspv1 (cspv1Header d) d.maxData v
  | some .cspv2 => wrapCsp p .cspv2 (cspv2Header d) d.maxData v
  | some .olstClient => wrapOlc p d v
  | some .olstSpace => wrapOls p d v
  | none => .error .configInvalid

/-- unwrap_i (42_adapters.md R230; assumption 14). -/
def unwrap (d : Desc) (v : Bytes) : Except ErrCode Bytes :=
  match adapterKindOf d.kind with
  | some .crc16 | some .crc32 => unwrapCrc d v
  | some .spaceframe => unwrapSf d v
  | some .cspv1 => unwrapCsp .cspv1 d.maxData v
  | some .cspv2 => unwrapCsp .cspv2 d.maxData v
  | some .olstClient => unwrapOlc v
  | some .olstSpace => unwrapOls v
  | none => .error .configInvalid

/-- wsize_i (42_adapters.md R234, R243, R252, R256, R264, R269). A descriptor with no adapter kind adds nothing
(assumption 14). -/
def wsize (d : Desc) (n : Nat) : Nat :=
  match adapterKindOf d.kind with
  | some .crc16 | some .crc32 => n + trailerLen d
  | some .spaceframe => fsize d
  | some .cspv1 => n + 4
  | some .cspv2 => n + 6
  | some .olstClient => n + 7
  | some .olstSpace => n + 10
  | none => n

/-- A result of the datapath into OUT_BUF and OUT_LEN, its error with the given index (42_adapters.md R280). -/
def output (s : State) (idx : Nat) (r : Except ErrCode Bytes) : Except Raised State :=
  match r with
  | .error e => .error ⟨e, idx⟩
  | .ok v => .ok (s.writeOut v)

/-- ADP.WRAP i (42_adapters.md R280). -/
def execAdpWrap (idx : Nat) (s : State) : Host.Outcome State Fault Refusal :=
  .next (runCommand (.adpWrap idx) (fun s => output s idx (wrap s.params (s.cfg.desc idx) s.input)) s)

/-- ADP.UNWRAP i (42_adapters.md R281). -/
def execAdpUnwrap (idx : Nat) (s : State) : Host.Outcome State Fault Refusal :=
  .next (runCommand (.adpUnwrap idx) (fun s => output s idx (unwrap (s.cfg.desc idx) s.input)) s)

/-- ADP.WSIZE i (42_adapters.md R282). -/
def execAdpWsize (idx : Nat) (s : State) : Host.Outcome State Fault Refusal :=
  .next (runCommand (.adpWsize idx)
    (fun s => .ok (s.writeResult (BitVec.ofNat 32 (wsize (s.cfg.desc idx) s.arg.toNat)))) s)

end Sys2Proof.Machine
end

