-- ==== Sys2Proof/Machine/Control.lean ====
section
/-! DEFINITION. The configuration check (43_pipeline_and_control.md R299) and the meanings of NOP, CFG.LOCK and
CFG.UNLOCK. -/

namespace Sys2Proof.Machine

/-- What cfg_check asks of one descriptor of the chain (43_pipeline_and_control.md R299). -/
def Desc.valid (p : Params) (d : Desc) : Bool :=
  match adapterKindOf d.kind with
  | none => false
  | some .crc16 => d.w1lo ≠ 0
  | some .crc32 => d.variant = 1 ∨ d.variant = 2
  | some .spaceframe => d.sfType = 0 ∧ d.pds ≤ p.frameMax
  | some .cspv1 | some .cspv2 | some .olstClient | some .olstSpace => true

/-- cfg_check(): the error index of the first failure, or none (43_pipeline_and_control.md R299). -/
def cfgCheck (p : Params) (c : Cfg) : Option Nat :=
  if c.m < 1 ∨ p.syncMax < c.m then some 0xF
  else if c.fs < 1 ∨ p.frameMax < c.fs then some 0xF
  else if p.adpMax < c.n then some 0xF
  else (c.chain.find? fun q => !q.2.valid p).map (·.1)

/-- The pseudocode of CFG.LOCK (43_pipeline_and_control.md R297). -/
def cfgLockBody (s : State) : Except Raised State :=
  match cfgCheck s.params s.cfg with
  | some j => .error ⟨.configInvalid, j⟩
  | none => .ok (s.setLocked true)

/-- The pseudocode of CFG.UNLOCK (43_pipeline_and_control.md R298). -/
def cfgUnlockBody (s : State) : Except Raised State :=
  if s.rx.state.running then .error ⟨.busy, 0⟩ else .ok (s.setLocked false)

/-- NOP (43_pipeline_and_control.md R295). -/
def execNop (s : State) : Host.Outcome State Fault Refusal := .next (runCommand .nop (fun s => .ok s) s)

/-- CFG.LOCK (43_pipeline_and_control.md R297). -/
def execCfgLock (s : State) : Host.Outcome State Fault Refusal := .next (runCommand .cfgLock cfgLockBody s)

/-- CFG.UNLOCK (43_pipeline_and_control.md R298). -/
def execCfgUnlock (s : State) : Host.Outcome State Fault Refusal := .next (runCommand .cfgUnlock cfgUnlockBody s)

end Sys2Proof.Machine
end

