-- ==== Sys2Proof/Machine/Pipeline.lean ====
section
/-! DEFINITION. The pipeline controller (43_pipeline_and_control.md R300, R301), the sender (R306), and the meanings of
PIPE.WRAP, PIPE.UNWRAP, PIPE.WSIZE and SEND. -/

namespace Sys2Proof.Machine

/-- A chain of stages in run order, aborting at the first failing stage with its index
(43_pipeline_and_control.md R300). -/
def runStages (f : Desc → Bytes → Except ErrCode Bytes) : List (Nat × Desc) → Bytes → Except Raised Bytes
  | [], x => .ok x
  | (i, d) :: rest, x =>
    match f d x with
    | .error e => .error ⟨e, i⟩
    | .ok y => runStages f rest y

/-- pipe_wrap(v): stages 0..N−1 (43_pipeline_and_control.md R300). -/
def pipeWrap (p : Params) (c : Cfg) (v : Bytes) : Except Raised Bytes := runStages (wrap p) c.chain v

/-- pipe_unwrap(y): stages N−1..0 (43_pipeline_and_control.md R300). -/
def pipeUnwrap (c : Cfg) (y : Bytes) : Except Raised Bytes := runStages unwrap c.chain.reverse y

/-- pipe_wsize(n) (43_pipeline_and_control.md R300). -/
def pipeWsize (c : Cfg) (n : Nat) : Nat := c.chain.foldl (fun n p => wsize p.2 n) n

/-- A result of the pipeline into OUT_BUF and OUT_LEN (43_pipeline_and_control.md R303, R304). -/
def pipeOutput (s : State) (r : Except Raised Bytes) : Except Raised State :=
  match r with
  | .error e => .error e
  | .ok v => .ok (s.writeOut v)

/-- PIPE.WRAP (43_pipeline_and_control.md R303). -/
def execPipeWrap (s : State) : Host.Outcome State Fault Refusal :=
  .next (runCommand .pipeWrap (fun s => pipeOutput s (pipeWrap s.params s.cfg s.input)) s)

/-- PIPE.UNWRAP (43_pipeline_and_control.md R304). -/
def execPipeUnwrap (s : State) : Host.Outcome State Fault Refusal :=
  .next (runCommand .pipeUnwrap (fun s => pipeOutput s (pipeUnwrap s.cfg s.input)) s)

/-- PIPE.WSIZE (43_pipeline_and_control.md R305). -/
def execPipeWsize (s : State) : Host.Outcome State Fault Refusal :=
  .next (runCommand .pipeWsize (fun s => .ok (s.writeResult (BitVec.ofNat 32 (pipeWsize s.cfg s.arg.toNat)))) s)

/-- The frame SEND pushes, SYNC ‖ x, or the error that stops it before the push (43_pipeline_and_control.md R306). -/
def sendFrame (p : Params) (c : Cfg) (v : Bytes) : Except Raised Bytes :=
  match pipeWrap p c v with
  | .error e => .error e
  | .ok x => if c.fs < x.length then .error ⟨.payloadTooLarge, 0xF⟩ else .ok (c.sync ++ x)

/-- SEND, its push step: checks, pipeline and `Push` (43_pipeline_and_control.md R291, R306). An error before the push
completes the command; otherwise it stays in flight until the SINK answers. -/
def execSend (s : State) : Host.Outcome State Fault Refusal :=
  match commonChecks .send s with
  | some e => .next (s.completeErr e)
  | none =>
    match sendFrame s.params s.cfg s.input with
    | .error e => .next (s.completeErr e)
    | .ok f => .next (s.issuePush f)

/-- The SINK's answer is consumed and the pipeline controller is back in P_IDLE (43_pipeline_and_control.md R301). -/
def State.endSend (s : State) : State := { s with sinkAnswer := none, pipeI := 0 }

/-- SEND, its completion step after the SINK's answer (43_pipeline_and_control.md R306). -/
def sendComplete (f : Bytes) (a : SinkAnswer) (s : State) : State :=
  match a with
  | .accepted n =>
    if n < f.length then s.endSend.completeErr ⟨.writeShort, 0⟩ else s.endSend.completeOk
  | .error => s.endSend.completeErr ⟨.transportError, 0⟩

end Sys2Proof.Machine
end

