-- ==== Sys2Proof/Machine/RxCtrl.lean ====
section
/-! DEFINITION. The meanings of the five RX_CTRL actions (44_frame_receiver.md R360 to R365). -/

namespace Sys2Proof.Machine

/-- The receiver's private state after an admissible RESET action (44_frame_receiver.md R362). -/
def State.resetReceiver (s : State) : State :=
  { s with rdbuf := [], frame := [], rxItem := none, rx := RxStatus.reset }

/-- START (44_frame_receiver.md R361). -/
def execRxStart (s : State) : Host.Outcome State Fault Refusal :=
  if s.rx.state = .idle ∧ s.status.cfgLocked then
    .next (State.enterTop { s with rx := { s.rx with cancelPending := false } })
  else .next s.rejectCtrl

/-- RESET (44_frame_receiver.md R362). -/
def execRxReset (s : State) : Host.Outcome State Fault Refusal :=
  if s.rx.state.running then .next s.rejectCtrl else .next s.resetReceiver

/-- CANCEL (44_frame_receiver.md R363). -/
def execRxCancel (s : State) : Host.Outcome State Fault Refusal :=
  .next { s with rx := { s.rx with cancelPending := true } }

/-- MSG_POP (44_frame_receiver.md R364). -/
def execRxMsgPop (s : State) : Host.Outcome State Fault Refusal :=
  if s.rx.msgValid then .next (State.enterTop { s with rx := { s.rx with msgValid := false } }) else .next s

/-- ERR_POP (44_frame_receiver.md R365). -/
def execRxErrPop (s : State) : Host.Outcome State Fault Refusal :=
  if s.rx.errValid then .next (State.enterTop { s with rx := { s.rx with errValid := false } }) else .next s

end Sys2Proof.Machine
end

