-- ==== Sys2Proof/Machine/Dispatch.lean ====
section
/-! DEFINITION. One arm per instruction: the evaluation of a command by the command engine, or one RX_CTRL action. -/

namespace Sys2Proof.Machine

def exec (i : Instr) (s : State) : Host.Outcome State Fault Refusal :=
  match i with
  | .nop => Sys2Proof.Machine.execNop s
  | .cfgLock => Sys2Proof.Machine.execCfgLock s
  | .cfgUnlock => Sys2Proof.Machine.execCfgUnlock s
  | .hdrValidateCspv1 => Sys2Proof.Machine.execHdrValidateCspv1 s
  | .hdrValidateCspv2 => Sys2Proof.Machine.execHdrValidateCspv2 s
  | .hdrValidateSfhdr => Sys2Proof.Machine.execHdrValidateSfhdr s
  | .hdrValidateOlchdr => Sys2Proof.Machine.execHdrValidateOlchdr s
  | .hdrValidateOlshdr => Sys2Proof.Machine.execHdrValidateOlshdr s
  | .hdrValidateOlsftr => Sys2Proof.Machine.execHdrValidateOlsftr s
  | .hdrEncodeCspv1 => Sys2Proof.Machine.execHdrEncodeCspv1 s
  | .hdrEncodeCspv2 => Sys2Proof.Machine.execHdrEncodeCspv2 s
  | .hdrEncodeSfhdr => Sys2Proof.Machine.execHdrEncodeSfhdr s
  | .hdrEncodeOlchdr => Sys2Proof.Machine.execHdrEncodeOlchdr s
  | .hdrEncodeOlshdr => Sys2Proof.Machine.execHdrEncodeOlshdr s
  | .hdrEncodeOlsftr => Sys2Proof.Machine.execHdrEncodeOlsftr s
  | .hdrDecodeCspv1 => Sys2Proof.Machine.execHdrDecodeCspv1 s
  | .hdrDecodeCspv2 => Sys2Proof.Machine.execHdrDecodeCspv2 s
  | .hdrDecodeSfhdr => Sys2Proof.Machine.execHdrDecodeSfhdr s
  | .hdrDecodeOlchdr => Sys2Proof.Machine.execHdrDecodeOlchdr s
  | .hdrDecodeOlshdr => Sys2Proof.Machine.execHdrDecodeOlshdr s
  | .hdrDecodeOlsftr => Sys2Proof.Machine.execHdrDecodeOlsftr s
  | .crcAdp idx => Sys2Proof.Machine.execCrcAdp idx s
  | .crcCc1110 => Sys2Proof.Machine.execCrcCc1110 s
  | .crcC32c => Sys2Proof.Machine.execCrcC32c s
  | .crcC32ieee => Sys2Proof.Machine.execCrcC32ieee s
  | .adpWrap idx => Sys2Proof.Machine.execAdpWrap idx s
  | .adpUnwrap idx => Sys2Proof.Machine.execAdpUnwrap idx s
  | .adpWsize idx => Sys2Proof.Machine.execAdpWsize idx s
  | .pipeWrap => Sys2Proof.Machine.execPipeWrap s
  | .pipeUnwrap => Sys2Proof.Machine.execPipeUnwrap s
  | .pipeWsize => Sys2Proof.Machine.execPipeWsize s
  | .send => Sys2Proof.Machine.execSend s
  | .rxStart => Sys2Proof.Machine.execRxStart s
  | .rxReset => Sys2Proof.Machine.execRxReset s
  | .rxCancel => Sys2Proof.Machine.execRxCancel s
  | .rxMsgPop => Sys2Proof.Machine.execRxMsgPop s
  | .rxErrPop => Sys2Proof.Machine.execRxErrPop s

end Sys2Proof.Machine
end

