-- ==== Sys2Proof/Machine/Bus.lean ====
section
/-! DEFINITION. The host register space: the register map (10_state.md R32), what a read returns and what a write does
(10_state.md R33 to R64, 20_memory.md R80 to R88). -/

namespace Sys2Proof.Machine

/-- The registers of 10_state.md R32, and the window words by the index of their lowest byte. -/
inductive Reg
  | id | cmd | status | inLen | outLen | result | arg | irqEn | irqStatus
  | syncLen | sync0 | sync1 | frameSize | nAdp | flags | rxCtrl | rxStatus | msgLen | errInfo
  | hf (j : Fin 8)
  | adp (i : Fin 8) (w : Fin 4)
  | inBuf (a : Nat) | outBuf (a : Nat) | msgBuf (a : Nat)
  deriving DecidableEq, Repr

/-- The single registers of the map (10_state.md R32). -/
def scalarReg : Nat → Option Reg
  | 0x000 => some .id
  | 0x004 => some .cmd
  | 0x008 => some .status
  | 0x00C => some .inLen
  | 0x010 => some .outLen
  | 0x014 => some .result
  | 0x018 => some .arg
  | 0x040 => some .irqEn
  | 0x044 => some .irqStatus
  | 0x080 => some .syncLen
  | 0x084 => some .sync0
  | 0x088 => some .sync1
  | 0x08C => some .frameSize
  | 0x090 => some .nAdp
  | 0x094 => some .flags
  | 0x200 => some .rxCtrl
  | 0x204 => some .rxStatus
  | 0x208 => some .msgLen
  | 0x20C => some .errInfo
  | _ => none

/-- The register at a word-aligned offset, or none where it is unmapped (10_state.md R32, R62 to R64). The words
of the OUT_BUF window from DATAPATH_MAX on are unmapped like those of the other two windows, though R63 has no such sentence
(assumption 23). -/
def regAt (p : Params) (off : Nat) : Option Reg :=
  if 0x020 ≤ off ∧ off < 0x040 then some (.hf (Fin.ofNat 8 ((off - 0x020) / 4)))
  else if 0x100 ≤ off ∧ off < 0x180 then
    some (.adp (Fin.ofNat 8 ((off - 0x100) / 16)) (Fin.ofNat 4 ((off - 0x100) / 4)))
  else if inBase ≤ off ∧ off < inBase + p.datapathMax then some (.inBuf (off - inBase))
  else if outBase ≤ off ∧ off < outBase + p.datapathMax then some (.outBuf (off - outBase))
  else if msgBase ≤ off ∧ off < msgBase + p.msgbufSize then some (.msgBuf (off - msgBase))
  else scalarReg off

/-- Word w of a descriptor as the host reads it; its unimplemented bits read 0 (10_state.md R49). -/
def Desc.word (d : Desc) (w : Fin 4) : Word :=
  match w with
  | 0 => 0#16 ++ d.opts ++ 0#4 ++ d.kind
  | 1 => d.w1
  | 2 => d.w2
  | 3 => 0#8 ++ d.w3

/-- A descriptor after the host writes v to its word w: the implemented bits only (10_state.md R33, R49). -/
def Desc.setWord (d : Desc) (w : Fin 4) (v : Word) : Desc :=
  match w with
  | 0 => { d with kind := v.extractLsb' 0 4, opts := v.extractLsb' 8 8 }
  | 1 => { d with w1 := v }
  | 2 => { d with w2 := v }
  | 3 => { d with w3 := v.extractLsb' 0 24 }

/-- The word of a window of the given size whose lowest byte has index a: byte a in the least significant lane
(20_memory.md R83). A lane past the window's last byte is unmapped and reads 0 (10_state.md R33; assumption 23). -/
def lanes (size : Nat) (byte : Nat → Byte) (a : Nat) : Word :=
  let lane := fun j => if a + j < size then byte (a + j) else 0
  lane 3 ++ lane 2 ++ lane 1 ++ lane 0

/-- The value a read of a register returns; no read has a side effect (10_state.md R33, 20_memory.md R86). -/
def readReg (s : State) : Reg → Word
  | .id => 0x53460001
  | .cmd => 0
  | .status => s.status.word
  | .inLen => s.inLen.setWidth 32
  | .outLen => s.outLen.setWidth 32
  | .result => s.result
  | .arg => s.arg.setWidth 32
  | .irqEn => s.irqEn.setWidth 32
  | .irqStatus => s.irqStatus.setWidth 32
  | .syncLen => s.cfg.syncLen.setWidth 32
  | .sync0 => s.cfg.sync0
  | .sync1 => s.cfg.sync1
  | .frameSize => s.cfg.frameSize.setWidth 32
  | .nAdp => s.cfg.nAdp.setWidth 32
  | .flags => (BitVec.ofBool s.cfg.errqEn).setWidth 32
  | .rxCtrl => 0
  | .rxStatus => s.rx.word
  | .msgLen => s.msgLen.setWidth 32
  | .errInfo => s.errInfo.word
  | .hf j => s.hf[j].setWidth 32
  | .adp i w => s.cfg.adp[i].word w
  | .inBuf a => lanes s.params.datapathMax s.inByte a
  | .outBuf a => lanes s.params.datapathMax s.outByte a
  | .msgBuf a => lanes s.params.msgbufSize s.msgByte a

/-- MemRead(off, 4): an unmapped offset reads 0 (10_state.md R33, 20_memory.md R81). -/
def busRead (s : State) (off : BitVec 16) : Word :=
  match regAt s.params off.toNat with
  | some r => readReg s r
  | none => 0

/-- A write to an operand register: dropped while BUSY (10_state.md R33, 43_pipeline_and_control.md R293). -/
def operandWrite (s t : State) : State := if s.status.busy then s.drop else t

/-- A write to a configuration register: dropped while locked (10_state.md R33, 43_pipeline_and_control.md R297). -/
def configWrite (s : State) (c : Cfg) : State := if s.status.cfgLocked then s.drop else { s with cfg := c }

/-- A write to CMD (43_pipeline_and_control.md R290). -/
def cmdWrite (c : Word) (s : State) : State := if s.status.busy then s.drop else s.accept c

/-- The actions of one RX_CTRL write, each seeing the state the previous one left (44_frame_receiver.md R360). -/
def runActions : List Instr → State → Host.Outcome State Fault Refusal
  | [], s => .next s
  | i :: is, s =>
    match exec i s with
    | .next t => runActions is t
    | .fault f => .fault f
    | .refused r => .refused r

/-- What a write of v to a register does (10_state.md R33 to R64). -/
def writeReg (v : Word) (s : State) : Reg → Host.Outcome State Fault Refusal
  | .cmd => .next (cmdWrite v s)
  | .rxCtrl => runActions (decodeRxctrl v) s
  | .inLen => .next (operandWrite s { s with inLen := v.extractLsb' 0 16 })
  | .arg => .next (operandWrite s { s with arg := v.extractLsb' 0 16 })
  | .hf j => .next (operandWrite s { s with hf := s.hf.set j (v.extractLsb' 0 16) })
  | .inBuf a => .next (operandWrite s (s.writeInWord a v))
  | .irqEn => .next { s with irqEn := v.extractLsb' 0 4 }
  | .irqStatus => .next { s with irqStatus := s.irqStatus &&& ~~~(v.extractLsb' 0 4) }
  | .syncLen => .next (configWrite s { s.cfg with syncLen := v.extractLsb' 0 4 })
  | .sync0 => .next (configWrite s { s.cfg with sync0 := v })
  | .sync1 => .next (configWrite s { s.cfg with sync1 := v })
  | .frameSize => .next (configWrite s { s.cfg with frameSize := v.extractLsb' 0 16 })
  | .nAdp => .next (configWrite s { s.cfg with nAdp := v.extractLsb' 0 4 })
  | .flags => .next (configWrite s { s.cfg with errqEn := v.getLsbD 0 })
  | .adp i w => .next (configWrite s { s.cfg with adp := s.cfg.adp.set i (s.cfg.adp[i].setWord w v) })
  | .id | .status | .outLen | .result | .rxStatus | .msgLen | .errInfo => .next s
  | .outBuf _ | .msgBuf _ => .next s

/-- MemWrite(off, 4, v): a write to an unmapped offset is ignored (10_state.md R33, 20_memory.md R81). -/
def busWrite (off : BitVec 16) (v : Word) (s : State) : Host.Outcome State Fault Refusal :=
  match regAt s.params off.toNat with
  | some r => writeReg v s r
  | none => .next s

end Sys2Proof.Machine
end

