-- ==== Sys2Proof/Machine/Receiver.lean ====
section
/-! DEFINITION. The receiver RX: seek, read, decode, offer and cancel-offer steps (44_frame_receiver.md R330 to R352). -/

namespace Sys2Proof.Machine

/-- find(b): the least j with b[j : j+m] = SYNC, or none (44_frame_receiver.md R333). -/
def findMarker (sync : Bytes) : Bytes → Option Nat
  | [] => if sync.isPrefixOf [] then some 0 else none
  | b :: bs => if sync.isPrefixOf (b :: bs) then some 0 else (findMarker sync bs).map (· + 1)

/-- The bytes a seek keeps when it finds no marker: the trailing m − 1 (44_frame_receiver.md R334). -/
def keepTail (m : Nat) (b : Bytes) : Bytes := b.drop (b.length - (m - 1))

/-- seek_step (44_frame_receiver.md R334). -/
def seekStep (s : State) : State :=
  match findMarker s.cfg.sync s.rdbuf with
  | some j => State.setRxState .reading { s with rdbuf := s.rdbuf.drop j, frame := [] }
  | none =>
    let kept := keepTail s.cfg.m s.rdbuf
    State.issuePull .seek (s.params.rdbufCap - kept.length) { s with rdbuf := kept }

/-- read_step (44_frame_receiver.md R337). -/
def readStep (s : State) : State :=
  let need := s.cfg.l - s.frame.length
  if need = 0 then s.setRxState .decoding
  else if s.rdbuf = [] then s.issuePull .read need
  else { s with frame := s.frame ++ s.rdbuf.take need, rdbuf := s.rdbuf.drop need }

/-- The outcome of decoding a frame: strip the marker, unwrap through the chain (44_frame_receiver.md R345). Every error
of the unwrap is reported by its own code, PayloadTooLarge of a CSP unwrap among them (assumption 26). -/
def decodeFrame (c : Cfg) (frame : Bytes) : RxItem :=
  match pipeUnwrap c (frame.drop c.m) with
  | .ok x => .msg x
  | .error e => .err e.code .unwrap e.idx

/-- decode_step (44_frame_receiver.md R345). -/
def decodeStep (s : State) : State := { s with rxItem := some (decodeFrame s.cfg s.frame), frame := [] }

/-- offer_msg(x) (44_frame_receiver.md R347). No byte is stored past MSG_BUF; no decoded message is that long (R345). -/
def offerMsg (x : Bytes) (s : State) : State :=
  { s with
    mem := Memory.splice msgBase (x.take s.params.msgbufSize) s.mem
    msgLen := BitVec.ofNat 16 x.length
    rx := { s.rx with msgValid := true, state := .delivering }
    irqStatus := s.irqStatus ||| irqMsg }

/-- offer_err(E, s, i): offered when an error channel is attached, dropped otherwise
(44_frame_receiver.md R349, R350). -/
def offerErr (e : ErrCode) (stage : ErrStage) (idx : Nat) (s : State) : State :=
  if s.cfg.errqEn then
    { s with
      errInfo := { code := e.code, stage := stage.code, adpIdx := BitVec.ofNat 4 idx }
      rx := { s.rx with errValid := true, state := .reporting }
      irqStatus := s.irqStatus ||| irqErr }
  else s.enterTop

/-- rx_item <- none (44_frame_receiver.md R346). -/
def State.clearItem (s : State) : State := { s with rxItem := none }

/-- offer_step, cancel checkpoint CP2 (44_frame_receiver.md R346). -/
def offerStep (it : RxItem) (s : State) : State :=
  if s.rx.cancelPending then s.clearItem.rxEnd .canceled
  else
    match it with
    | .msg x => offerMsg x s.clearItem
    | .err e st i => offerErr e st i s.clearItem

/-- cancel_offer_step, cancel checkpoint CP3 (44_frame_receiver.md R348). -/
def cancelOfferStep (s : State) : State :=
  State.rxEnd .canceled { s with rx := { s.rx with msgValid := false, errValid := false } }

/-- The receiver's own step, or none when no RX step is enabled (44_frame_receiver.md R331, R351). -/
def rxStep? (s : State) : Option State :=
  if s.pullPending.isSome then none
  else
    match s.rx.state with
    | .seeking => some (seekStep s)
    | .reading => some (readStep s)
    | .decoding =>
      match s.rxItem with
      | none => some (decodeStep s)
      | some it => some (offerStep it s)
    | .delivering | .reporting => if s.rx.cancelPending then some (cancelOfferStep s) else none
    | .idle | .canceled | .eos => none

/-- The turn of RX: its enabled step, or nothing (assumption 12). -/
def rxStep (s : State) : State := (rxStep? s).getD s

end Sys2Proof.Machine
end

