-- ==== Sys2Proof/Machine/Ports.lean ====
section
/-! DEFINITION. The answer steps of the SOURCE and SINK ports (20_memory.md R90 to R93; 44_frame_receiver.md R335, R338 to
R340). An answer is the next one of the plan in State and, past the plan's end, what the port's oracle gives for the
history of its transactions (70_reset_and_hazards.md R448; assumption 2). -/

namespace Sys2Proof.Machine

/-- An answer as the port presents it to a pull of at most k bytes, and what is left of it for later pulls: no
more than k bytes at once, and no bytes at all are `Zero` (20_memory.md R90, R91; assumption 11). -/
def presentSource (k : Nat) : SourceAnswer → SourceAnswer × List SourceAnswer
  | .data v =>
    if v = [] then (.zero, [])
    else (.data (v.take k), if k < v.length then [.data (v.drop k)] else [])
  | .zero => (.zero, [])
  | .eof => (.eof, [])
  | .error => (.error, [])

/-- The `Eof` answer: EOS, and the partial frame of a read is discarded (44_frame_receiver.md R335, R339). -/
def sourceEof (stage : PullStage) (s : State) : State :=
  match stage with
  | .seek => s.rxEnd .eos
  | .read => State.rxEnd .eos { s with frame := [] }

/-- The transport error item of a stage (44_frame_receiver.md R339, R340). -/
def sourceError (stage : PullStage) (s : State) : State :=
  let s := State.setRxState .decoding { s with rxItem := some (.err .transportError (errStageOf stage) 0) }
  match stage with
  | .seek => s
  | .read => { s with frame := [] }

/-- The answer handling of a stage (44_frame_receiver.md R335, R338, R339). -/
def handleSource (stage : PullStage) (a : SourceAnswer) (s : State) : State :=
  match a with
  | .data v =>
    match stage with
    | .seek => { s with rdbuf := s.rdbuf ++ v }
    | .read => { s with frame := s.frame ++ v }
  | .zero =>
    match Config.zeroReadPolicy with
    | .retry => s
    | .endOfStream => sourceEof stage s
  | .eof => sourceEof stage s
  | .error => sourceError stage s

/-- An entry of the SOURCE's history (20_memory.md R90). -/
def isPull : PortEvent → Bool
  | .pull _ _ | .pulled _ => true
  | .push _ | .pushed _ => false

/-- The history of pulls, oldest first, the outstanding one last (70_reset_and_hazards.md R448). It reaches back over
resets (R432). -/
def State.pulls (s : State) : List PortEvent := (s.pastLog ++ s.portLog).filter isPull

/-- The history of pushes, oldest first, the outstanding one last (70_reset_and_hazards.md R448). -/
def State.pushes (s : State) : List PortEvent := (s.pastLog ++ s.portLog).filter fun e => !isPull e

/-- The next answer of an agent outside the SFE, and its plan after it: the plan's first one, then what the oracle gives
(70_reset_and_hazards.md R448; assumption 2). -/
def nextAnswer {α : Type} (plan : List α) (oracle : Option α) : Option (α × List α) :=
  match plan with
  | a :: rest => some (a, rest)
  | [] => oracle.map fun a => (a, [])

/-- The SOURCE's answer to the pull outstanding in s, and the plan after it, or no answer. -/
def State.sourceNext (o : Ports) (s : State) : Option (SourceAnswer × List SourceAnswer) :=
  nextAnswer s.sourcePlan (o.source s.pulls)

/-- The SINK's answer to the push outstanding in s, and the plan after it, or no answer. -/
def State.sinkNext (o : Ports) (s : State) : Option (SinkAnswer × List SinkAnswer) :=
  nextAnswer s.sinkPlan (o.sink s.pushes)

/-- The turn of the SOURCE: the answer to the outstanding pull, when there is one and the SOURCE answers it
(20_memory.md R90, 44_frame_receiver.md R331). -/
def sourceStep (o : Ports) (s : State) : State :=
  match s.pullPending, s.sourceNext o with
  | some (stage, k), some (a, rest) =>
    handleSource stage (presentSource k a).1
      { s with
        pullPending := none
        sourcePlan := (presentSource k a).2 ++ rest
        portLog := s.portLog ++ [.pulled (presentSource k a).1] }
  | _, _ => s

/-- An answer as the SINK presents it to a push of n bytes: it accepts no more than it was offered
(20_memory.md R92; assumption 11). -/
def presentSink (n : Nat) : SinkAnswer → SinkAnswer
  | .accepted a => .accepted (min a n)
  | .error => .error

/-- The turn of the SINK: the answer to the outstanding push, when there is one and the SINK answers it; SEND's completion
step takes it (20_memory.md R92, 43_pipeline_and_control.md R291). -/
def sinkStep (o : Ports) (s : State) : State :=
  match s.sinkPending, s.sinkNext o with
  | some f, some (a, rest) =>
    { s with
      sinkPending := none
      sinkAnswer := some (f, presentSink f.length a)
      sinkPlan := rest
      portLog := s.portLog ++ [.pushed (presentSink f.length a)] }
  | _, _ => s

end Sys2Proof.Machine
end

