-- ==== Sys2Proof/Machine/Agents.lean ====
section
/-! DEFINITION. The turns of the agents of 60_exceptions.md R408 and of the reset input: the command engine, the host
program (30_encoding.md R119, R120) and `rst` (70_reset_and_hazards.md R430). -/

namespace Sys2Proof.Machine

/-- The turn of CODEC (43_pipeline_and_control.md R291, R292): it evaluates the accepted command, or completes a SEND whose
push the SINK has answered; while the push is unanswered, or with no command in flight, it does nothing
(assumption 12). -/
def codecStep (s : State) : Host.Outcome State Fault Refusal :=
  match s.cmd with
  | none => .next s
  | some c =>
    match s.sinkAnswer with
    | some (f, a) => .next (sendComplete f a s)
    | none =>
      if s.sinkPending.isSome then .next s
      else
        match decodeCmd c with
        | .error _ => .next (s.completeErr ⟨.cmdInvalid, 0⟩)
        | .ok i => exec i s

/-- `waitrx` ends: an item is offered, or STATE ≥ 6 (30_encoding.md R120). -/
def rxReady (s : State) : Bool := s.rx.msgValid || s.rx.errValid || 6 ≤ s.rx.state.code.toNat

/-- One statement of the host program; `s` has it already removed from the program (30_encoding.md R119). A poll that does
not succeed stays in front (assumption 18). -/
def runStmt (stmt : HostStmt) (s : State) : Host.Outcome State Fault Refusal :=
  match stmt with
  | .wr off width v => if accessWf off width then busWrite off v s else .fault (.busError stmt)
  | .rd off width =>
    if accessWf off width then .next { s with hostReads := s.hostReads ++ [(off, busRead s off)] }
    else .fault (.busError stmt)
  | .poll off mask value =>
    if accessWf off 4 then
      if busRead s off &&& mask = value then .next s else .next { s with program := stmt :: s.program }
    else .fault (.busError stmt)
  | .waitRx => if rxReady s then .next s else .next { s with program := stmt :: s.program }

/-- The turn of HOST: its next statement, or nothing when the program has ended (60_exceptions.md R408). -/
def hostStep (s : State) : Host.Outcome State Fault Refusal :=
  match s.program with
  | [] => .next s
  | stmt :: rest => runStmt stmt { s with program := rest }

/-- `rst`: every state of the SFE takes its reset value and the port transactions are abandoned; the agents outside the
SFE keep what they hold, the two ports their record of the transactions so far, and the sizes stay
(70_reset_and_hazards.md R430 to R432; assumption 16). -/
def hwReset (s : State) : State :=
  { State.reset with
    program := s.program, hostReads := s.hostReads, sourcePlan := s.sourcePlan, sinkPlan := s.sinkPlan
    pastLog := s.pastLog ++ s.portLog, sched := s.sched, tick := s.tick, params := s.params }

/-- The turn of an agent, the ports answering by the oracles o (60_exceptions.md R408). -/
def agentStep (o : Ports) (a : Agent) (s : State) : Host.Outcome State Fault Refusal :=
  match a with
  | .host => hostStep s
  | .codec => codecStep s
  | .rx => .next (rxStep s)
  | .source => .next (sourceStep o s)
  | .sink => .next (sinkStep o s)
  | .rst => .next (hwReset s)

/-- The agent that takes the next step: the schedule's next one, or a free choice (20_memory.md R95; assumption 1). -/
def State.turn (s : State) : Agent :=
  match s.sched with
  | a :: _ => a
  | [] => Config.turn s.tick

/-- The state in which a turn is taken: the schedule and the step counter have moved on. -/
def State.begin (s : State) : State := { s with sched := s.sched.tail, tick := s.tick + 1 }

/-- `loadin b0 b1 ...` from byte index a on: the bytes as words of IN_BUF, the missing bytes of the last one 0
(30_encoding.md R120). -/
def loadWords (a : Nat) : Bytes → List HostStmt
  | [] => []
  | [b0] => [.wr (BitVec.ofNat 16 (inBase + a)) 4 (0#8 ++ 0#8 ++ 0#8 ++ b0)]
  | [b0, b1] => [.wr (BitVec.ofNat 16 (inBase + a)) 4 (0#8 ++ 0#8 ++ b1 ++ b0)]
  | [b0, b1, b2] => [.wr (BitVec.ofNat 16 (inBase + a)) 4 (0#8 ++ b2 ++ b1 ++ b0)]
  | b0 :: b1 :: b2 :: b3 :: bs => .wr (BitVec.ofNat 16 (inBase + a)) 4 (b3 ++ b2 ++ b1 ++ b0) :: loadWords (a + 4) bs

/-- `loadin b0 b1 ...` (30_encoding.md R120). -/
def loadin (bs : Bytes) : List HostStmt := loadWords 0 bs ++ [.wr 0x00C 4 (BitVec.ofNat 32 bs.length)]

/-- `sethf v0, ..., v(j-1)` (30_encoding.md R120). -/
def sethf (vs : List Nat) : List HostStmt :=
  (List.range 8).map fun j => .wr (BitVec.ofNat 16 (0x020 + 4 * j)) 4 (BitVec.ofNat 32 (vs.getD j 0))

/-- `wait` (30_encoding.md R120). -/
def wait : List HostStmt := [.poll 0x008 1 0]

/-- `cmd M` (30_encoding.md R119). -/
def issue (i : Instr) : List HostStmt := [.wr 0x004 4 (encode i)]

/-- `run M` (30_encoding.md R120). -/
def runCmd (i : Instr) : List HostStmt := issue i ++ wait

/-- The word with byte k of bs in lane k, missing bytes 0. -/
def packLanes (bs : Bytes) : Word := bs.getD 3 0 ++ bs.getD 2 0 ++ bs.getD 1 0 ++ bs.getD 0 0

/-- `setsync b0 ... b(m-1)` (30_encoding.md R120). -/
def setsync (bs : Bytes) : List HostStmt :=
  [.wr 0x080 4 (BitVec.ofNat 32 bs.length), .wr 0x084 4 (packLanes bs), .wr 0x088 4 (packLanes (bs.drop 4))]

/-- `rx A1|A2...`: one RX_CTRL write with the bits of the named actions (30_encoding.md R119, R121). -/
def rxActions (is : List Instr) : List HostStmt := [.wr 0x200 4 (is.foldl (fun a i => a ||| encode i) 0)]

/-- `popmsg` (30_encoding.md R120). -/
def popmsg : List HostStmt := rxActions [.rxMsgPop]

/-- `poperr` (30_encoding.md R120). -/
def poperr : List HostStmt := rxActions [.rxErrPop]

/-- The state in which the next step of CODEC runs the accepted command word c. -/
def placeCommand (c : Word) (s : State) : State :=
  { s.accept c with sinkPending := none, sinkAnswer := none, sched := .codec :: s.sched }

/-- The state in which the next step of HOST writes the action word a to RX_CTRL. -/
def placeActions (a : Word) (s : State) : State :=
  { s with program := .wr 0x200 4 a :: s.program, sched := .host :: s.sched }

end Sys2Proof.Machine
end

