-- ==== Sys2Proof/Machine/Step.lean ====
section
/-! DEFINITION. One step of the machine: one agent takes its turn (20_memory.md R95, 60_exceptions.md R408). -/

namespace Sys2Proof.Machine

/-- One atomic step of agent a, the ports answering by the oracles o (20_memory.md R95). -/
def stepBy (o : Ports) (a : Agent) (s : State) : Host.Outcome State Fault Refusal := agentStep o a s.begin

/-- One atomic step: the agent whose turn it is, the ports answering by free oracles (assumptions 1 and 2). -/
def step (s : State) : Host.Outcome State Fault Refusal := stepBy Config.ports s.turn s

/-- The instruction word of a table row placed where the very next step runs it: an accepted command word, or an RX_CTRL
write of the host (assumption 2). -/
def State.withFetchWord (s : State) (nbits w : Nat) : State :=
  match formatOfBits nbits with
  | .cmd => placeCommand (BitVec.ofNat 32 w) s
  | .rxctrl => placeActions (BitVec.ofNat 32 w) s

end Sys2Proof.Machine
end

