-- ==== Sys2Proof/Machine/Run.lean ====
section
/-! DEFINITION. Runs of the machine: launches (70_reset_and_hazards.md R448), interleavings, the weak fairness of CODEC and
RX (R446) and the ends of a run (R449). Runs are about sequences of states; nothing of them is held in State. -/

namespace Sys2Proof.Machine

/-- A launch (70_reset_and_hazards.md R448). `start` names the sizes (PREM_PARAMS), the host program (PREM_PROGRAM) and,
where the launch is not from reset, every other value and whatever is in flight; `ports` names the SOURCE and the SINK
oracle (PREM_SOURCE, PREM_SINK). The two open parameters are constants of Config (assumptions 5 and 6). -/
structure Launch where
  start : State
  ports : Ports

/-- A launch from the reset state: the five premises (70_reset_and_hazards.md R448). -/
def Launch.ofReset (p : Params) (program : List HostStmt) (ports : Ports) : Launch :=
  { start := { State.reset with params := p, program := program }, ports := ports }

/-- An interleaving of the agents' steps: which agent takes the step after each number of steps (20_memory.md R95). -/
abbrev Interleaving := Nat → Agent

/-- What the launch has come to after n steps of an interleaving. -/
def Launch.after (l : Launch) (σ : Interleaving) : Nat → Host.Outcome State Fault Refusal
  | 0 => .next l.start
  | n + 1 =>
    match l.after σ n with
    | .next s => stepBy l.ports (σ n) s
    | .fault f => .fault f
    | .refused r => .refused r

/-- A CODEC step is enabled: a command is in flight and does not wait for the SINK (43_pipeline_and_control.md R291,
R306). -/
def codecEnabled (s : State) : Bool := s.cmd.isSome && (s.sinkAnswer.isSome || s.sinkPending.isNone)

/-- An RX step is enabled (44_frame_receiver.md R351). -/
def rxEnabled (s : State) : Bool := (rxStep? s).isSome

/-- From step n on every state of the run has the property. -/
def Launch.always (l : Launch) (σ : Interleaving) (n : Nat) (P : State → Bool) : Prop :=
  ∀ m, n ≤ m → ∃ s, l.after σ m = .next s ∧ P s = true

/-- Weak fairness: CODEC's and RX's steps are each taken eventually while they stay enabled; the HOST, the SOURCE and the
SINK have no such obligation (70_reset_and_hazards.md R446, 44_frame_receiver.md R352). -/
structure Launch.Fair (l : Launch) (σ : Interleaving) : Prop where
  codec : ∀ n, l.always σ n codecEnabled → ∃ m, n ≤ m ∧ σ m = .codec
  rx : ∀ n, l.always σ n rxEnabled → ∃ m, n ≤ m ∧ σ m = .rx

/-- The run has ended: the host program is done, no command is in flight and no RX step is enabled
(70_reset_and_hazards.md R449). -/
def State.ended (s : State) : Bool := s.program.isEmpty && !s.status.busy && !rxEnabled s

/-- What a run can wait for forever: the four reasons of 70_reset_and_hazards.md R449, and the endless Zero answers of R440
(93_implementation_defined.md I16). -/
inductive WaitReason
  | sinkUnanswered | pullUnanswered | slotUndrained | pollUnmet | zeroReads
  deriving DecidableEq, Repr

/-- The answer of a transaction record to a pull (20_memory.md R90). -/
def PortEvent.sourceAnswer : PortEvent → Option SourceAnswer
  | .pulled a => some a
  | .pull _ _ | .push _ | .pushed _ => none

/-- The SOURCE's latest answer (20_memory.md R90). -/
def State.lastPulled (s : State) : Option SourceAnswer := s.portLog.reverse.findSome? PortEvent.sourceAnswer

/-- The state waits, for now, for the reason's event: a push or a pull without its answer, an offered item, a poll as the
HOST's next statement, or, in SEEKING or READING, an answer of the SOURCE after one that was `Zero`
(70_reset_and_hazards.md R435, R436, R440, R442, R449). A run is stuck only when it does so forever. -/
def State.waitsFor (s : State) : WaitReason → Bool
  | .sinkUnanswered => s.sinkPending.isSome
  | .pullUnanswered => s.pullPending.isSome
  | .slotUndrained => s.rx.msgValid || s.rx.errValid
  | .pollUnmet =>
    match s.program with
    | .poll _ _ _ :: _ | .waitRx :: _ => true
    | .wr _ _ _ :: _ | .rd _ _ :: _ | [] => false
  | .zeroReads => (s.rx.state = .seeking ∨ s.rx.state = .reading) ∧ s.lastPulled = some .zero

/-- The outcomes of a run (70_reset_and_hazards.md R449). A fault names its kind and its statement. -/
inductive RunEnd
  | done (s : State) | fault (f : Fault) | stuck (r : WaitReason)
  deriving DecidableEq, Repr

/-- No state before step n ended the run. -/
def Launch.goesTo (l : Launch) (σ : Interleaving) (n : Nat) : Prop :=
  ∀ k, k < n → ∃ s, l.after σ k = .next s ∧ s.ended = false

/-- A step of the run in which the SOURCE answers a pull with `Zero` (44_frame_receiver.md R338). -/
def Launch.answersZero (l : Launch) (σ : Interleaving) (n : Nat) : Prop :=
  ∃ s t, l.after σ n = .next s ∧ l.after σ (n + 1) = .next t ∧ t.portLog = s.portLog ++ [.pulled .zero]

/-- The run waits for the reason from some step on and for ever. A poll that never succeeds is one the HOST keeps trying,
and zero reads are ones the SOURCE keeps answering (70_reset_and_hazards.md R440, R449; assumption 25). -/
def Launch.waitsForever (l : Launch) (σ : Interleaving) (r : WaitReason) : Prop :=
  (∃ n, l.always σ n fun s => s.waitsFor r)
    ∧ match r with
      | .pollUnmet => ∀ n, ∃ m, n ≤ m ∧ σ m = .host
      | .zeroReads => ∀ n, ∃ m, n ≤ m ∧ l.answersZero σ m
      | .sinkUnanswered | .pullUnanswered | .slotUndrained => True

/-- How the run of a launch under an interleaving ends (70_reset_and_hazards.md R449): at the first ended state, at the first
fault, or never. It is stuck when the interleaving is fair, no state ends the run, and from some step on it waits for one
reason without end, so that no enabled step of CODEC or RX and no answer ever ends the wait (assumption 25). -/
def Launch.EndsAs (l : Launch) (σ : Interleaving) : RunEnd → Prop
  | .done s => ∃ n, l.goesTo σ n ∧ l.after σ n = .next s ∧ s.ended = true
  | .fault f => ∃ n, l.goesTo σ n ∧ l.after σ n = .fault f
  | .stuck r =>
    l.Fair σ ∧ l.always σ 0 (fun s => !s.ended) ∧ l.waitsForever σ r

end Sys2Proof.Machine
end

