-- ==== Sys2Proof/Safety.lean ====
section
/-! DEFINITION. What counts as a safe run, in the terms the statements use: the invariants of the machine, programs that
never fault, the transition table of the receiver (44_frame_receiver.md R351), and short names for what a window
holds. -/

namespace Sys2Proof.Machine

/-- OUT_BUF holds v from its byte 0 on. -/
def outHolds (m : Memory) (v : Bytes) : Prop := ∀ a b, v[a]? = some b → m.read (outBase + a) = some b

/-- MSG_BUF holds v from its byte 0 on. -/
def msgHolds (m : Memory) (v : Bytes) : Prop := ∀ a b, v[a]? = some b → m.read (msgBase + a) = some b

/-- Two memories agree outside the range [base, base + size). -/
def sameOutside (base size : Nat) (m n : Memory) : Prop :=
  ∀ a, a < base ∨ base + size ≤ a → n.read a = m.read a

/-- STATUS after a completion without error (60_exceptions.md R395). -/
def Status.ok (st : Status) : Status :=
  { st with busy := false, done := true, err := false, errCode := 0, errIdx := 0 }

/-- STATUS after a completion with error code `code` and index `idx` (60_exceptions.md R396). -/
def Status.failed (st : Status) (code : BitVec 8) (idx : BitVec 4) : Status :=
  { st with busy := false, done := true, err := true, errCode := code, errIdx := idx }

/-- The state after a completion without error and without an output (60_exceptions.md R395): STATUS, the held command word
and IRQ_STATUS.CMD_DONE, and nothing else. -/
def State.doneOk (s : State) : State :=
  { s with cmd := none, status := s.status.ok, irqStatus := s.irqStatus ||| 1 }

/-- The state after a completion with error code `code` and index `idx` (60_exceptions.md R396). -/
def State.doneErr (s : State) (code : BitVec 8) (idx : BitVec 4) : State :=
  { s with cmd := none, status := s.status.failed code idx, irqStatus := s.irqStatus ||| 1 }

/-- From s to t a command completed without error with the output v: OUT_BUF holds v, OUT_LEN its length, every other byte
of memory reads as before, and beyond the completion nothing else changed (10_state.md R37, 60_exceptions.md R395). -/
def wroteOut (s t : State) (v : Bytes) : Prop :=
  t = { s.doneOk with mem := t.mem, outLen := BitVec.ofNat 16 v.length }
    ∧ outHolds t.mem v ∧ sameOutside outBase v.length s.mem t.mem

/-- The largest value of each slot a header kind uses (10_state.md R41). -/
def slotMaxima : HeaderKind → List Nat
  | .cspv1 => [3, 31, 31, 63, 63]
  | .cspv2 => [3, 16383, 16383, 63, 63]
  | .sfhdr => [0, 1024]
  | .olchdr => [251, 65535, 65535, 255, 255]
  | .olshdr => [255, 255, 65535, 255, 255]
  | .olsftr => [65535, 255, 255]

/-- Slot j of a header value is in its range, or unused by the kind (10_state.md R41, 40_header_codecs.md R141). -/
def slotInRange (k : HeaderKind) (h : Vector Half 8) (j : Fin 8) : Bool :=
  match (slotMaxima k)[j.val]? with
  | none => true
  | some hi => decide (h[j].toNat ≤ hi ∧ (k = .olchdr ∧ j = 0 → 6 ≤ h[j].toNat))

/-- Every slot is in its range. -/
def headerInRange (k : HeaderKind) (h : Vector Half 8) : Bool := (List.finRange 8).all fun j => slotInRange k h j

/-- The lowest slot out of its range (40_header_codecs.md R141). -/
def lowestBadSlot (k : HeaderKind) (h : Vector Half 8) : Option (Fin 8) :=
  (List.finRange 8).find? fun j => !slotInRange k h j

/-- What CFG.LOCK asks of one descriptor of the chain, by its raw fields (43_pipeline_and_control.md R299). -/
abbrev Desc.accepted (p : Params) (d : Desc) : Prop :=
  1 ≤ d.kind.toNat ∧ d.kind.toNat ≤ 7
    ∧ (d.kind = 1 → d.w1.extractLsb' 0 16 ≠ 0)
    ∧ (d.kind = 2 → d.opts.extractLsb' 0 2 = 1 ∨ d.opts.extractLsb' 0 2 = 2)
    ∧ (d.kind = 3 → d.opts.extractLsb' 4 4 = 0 ∧ (d.w1.extractLsb' 0 16).toNat ≤ p.frameMax)

/-- What CFG.LOCK asks of the global fields (43_pipeline_and_control.md R299). -/
abbrev Cfg.globalsAccepted (p : Params) (c : Cfg) : Prop :=
  1 ≤ c.syncLen.toNat ∧ c.syncLen.toNat ≤ p.syncMax ∧ 1 ≤ c.frameSize.toNat ∧ c.frameSize.toNat ≤ p.frameMax
    ∧ c.nAdp.toNat ≤ p.adpMax

/-- The first descriptor of the chain that CFG.LOCK does not accept (43_pipeline_and_control.md R299). -/
def Cfg.firstBad (p : Params) (c : Cfg) : Option (Fin 8) :=
  (List.finRange 8).find? fun i => decide (i.val < c.nAdp.toNat ∧ ¬ c.adp[i].accepted p)

/-- The sizes are lawful (00_scope.md R6), and a locked configuration is one that CFG.LOCK accepted: part of the invariant
(20_memory.md R100). -/
abbrev lockedAccepted (s : State) : Prop :=
  s.params.wf
    ∧ (s.status.cfgLocked = true → s.cfg.globalsAccepted s.params ∧ s.cfg.firstBad s.params = none)

/-- crc_adp(i, v) of a CRC descriptor by its raw fields (41_crc.md R205). -/
def Desc.crcValue (d : Desc) (v : Bytes) : Word :=
  if d.kind = 1 then
    0#16 ++ crc { poly := d.w1.extractLsb' 0 16, init := d.w1.extractLsb' 16 16, refin := d.opts.getLsbD 0,
                  refout := d.opts.getLsbD 1, xorout := d.w2.extractLsb' 0 16 : CrcParams 16 } v
  else if d.opts.extractLsb' 0 2 = 1 then crc c32ieee v
  else crc c32c v

/-- The bytes of a 16-bit value, most significant first (00_scope.md R9). -/
def beHalf (w : Half) : Bytes := [w.extractLsb' 8 8, w.extractLsb' 0 8]

/-- The bytes of a 16-bit value, least significant first (00_scope.md R9). -/
def leHalf (w : Half) : Bytes := [w.extractLsb' 0 8, w.extractLsb' 8 8]

/-- The bytes of a 32-bit value, most significant first (00_scope.md R9). -/
def beWord (w : Word) : Bytes := [w.extractLsb' 24 8, w.extractLsb' 16 8, w.extractLsb' 8 8, w.extractLsb' 0 8]

/-- The bytes of a 48-bit value, most significant first (00_scope.md R9). -/
def beSix (w : BitVec 48) : Bytes :=
  [w.extractLsb' 40 8, w.extractLsb' 32 8, w.extractLsb' 24 8, w.extractLsb' 16 8, w.extractLsb' 8 8, w.extractLsb' 0 8]

/-- The wire bytes of a header value in range, from the layout tables (40_header_codecs.md R148, R156, R161, R166, R171,
R175). -/
def wireHeader (k : HeaderKind) (h : Vector Half 8) : Bytes :=
  match k with
  | .cspv1 => beWord (h[0].extractLsb' 0 2 ++ h[1].extractLsb' 0 5 ++ h[2].extractLsb' 0 5 ++ h[3].extractLsb' 0 6
      ++ h[4].extractLsb' 0 6 ++ 0#8)
  | .cspv2 => beSix (h[0].extractLsb' 0 2 ++ h[1].extractLsb' 0 14 ++ h[2].extractLsb' 0 14 ++ h[3].extractLsb' 0 6
      ++ h[4].extractLsb' 0 6 ++ 0#6)
  | .sfhdr => beHalf (0#1 ++ h[0].extractLsb' 0 4 ++ h[1].extractLsb' 0 11)
  | .olchdr => [h[0].setWidth 8] ++ leHalf h[1] ++ leHalf h[2] ++ [h[3].setWidth 8, h[4].setWidth 8]
  | .olshdr => [h[0].setWidth 8, h[1].setWidth 8] ++ leHalf h[2] ++ [h[3].setWidth 8, h[4].setWidth 8]
  | .olsftr => leHalf h[0] ++ [h[2].setWidth 8, h[1].setWidth 8]

/-- The header value of the wire bytes b 0, b 1, ... of a header, from the same layout tables; a slot the kind does not use is
0 (40_header_codecs.md R145). -/
def wireFields (k : HeaderKind) (b : Nat → Byte) : Vector Half 8 :=
  match k with
  | .cspv1 =>
    let w : BitVec 32 := b 0 ++ b 1 ++ b 2 ++ b 3
    #v[(w.extractLsb' 30 2).setWidth 16, (w.extractLsb' 25 5).setWidth 16, (w.extractLsb' 20 5).setWidth 16,
       (w.extractLsb' 14 6).setWidth 16, (w.extractLsb' 8 6).setWidth 16, 0, 0, 0]
  | .cspv2 =>
    let w : BitVec 48 := b 0 ++ b 1 ++ b 2 ++ b 3 ++ b 4 ++ b 5
    #v[(w.extractLsb' 46 2).setWidth 16, (w.extractLsb' 32 14).setWidth 16, (w.extractLsb' 18 14).setWidth 16,
       (w.extractLsb' 12 6).setWidth 16, (w.extractLsb' 6 6).setWidth 16, 0, 0, 0]
  | .sfhdr =>
    let w : BitVec 16 := b 0 ++ b 1
    #v[(w.extractLsb' 11 4).setWidth 16, (w.extractLsb' 0 11).setWidth 16, 0, 0, 0, 0, 0, 0]
  | .olchdr => #v[(b 0).setWidth 16, b 2 ++ b 1, b 4 ++ b 3, (b 5).setWidth 16, (b 6).setWidth 16, 0, 0, 0]
  | .olshdr => #v[(b 0).setWidth 16, (b 1).setWidth 16, b 3 ++ b 2, (b 4).setWidth 16, (b 5).setWidth 16, 0, 0, 0]
  | .olsftr => #v[b 1 ++ b 0, (b 3).setWidth 16, (b 2).setWidth 16, 0, 0, 0, 0, 0]

/-- The reserved bits of the wire bytes of a header (40_header_codecs.md R148, R156, R161). -/
def wireReserved (k : HeaderKind) (b : Nat → Byte) : Byte :=
  match k with
  | .cspv1 => b 3
  | .cspv2 => b 5 &&& 0x3F
  | .sfhdr => b 0 &&& 0x80
  | .olchdr | .olshdr | .olsftr => 0

/-- The wire length of a header kind (40_header_codecs.md R147). -/
def wireLength : HeaderKind → Nat
  | .cspv1 => 4
  | .cspv2 => 6
  | .sfhdr => 2
  | .olchdr => 7
  | .olshdr => 6
  | .olsftr => 4

/-- The command engine's registers: BUSY exactly while a command word is held, never with DONE or ERR; ERR only with DONE;
no error code without ERR (10_state.md R35); a push or its answer only while SEND is in flight, and one of the two at most;
an accepted count never above what was pushed (20_memory.md R92); pipe_i 0 while no SEND waits (assumption 9). -/
structure EngineInv (s : State) : Prop where
  busy_iff : s.status.busy = s.cmd.isSome
  busy_excludes : s.status.busy = true → s.status.done = false ∧ s.status.err = false
  err_done : s.status.err = true → s.status.done = true
  no_code : s.status.err = false → s.status.errCode = 0 ∧ s.status.errIdx = 0
  push_send : (s.sinkPending.isSome || s.sinkAnswer.isSome) = true → s.cmd.map decodeCmd = some (.ok .send)
  push_once : s.sinkPending.isSome = true → s.sinkAnswer = none
  accepted_le : ∀ f n, s.sinkAnswer = some (f, .accepted n) → n ≤ f.length
  pipe_idle : s.sinkPending = none → s.sinkAnswer = none → s.pipeI = 0

/-- The receiver and the configuration lock: the sizes are lawful (00_scope.md R6), a locked configuration is a checked one,
the receiver runs only while locked (20_memory.md R100); each slot is offered exactly in its state (10_state.md R58); pulls,
items and frame bytes only in their states and sizes (44_frame_receiver.md R330, R331, R336, R341); and the reader's own
invariants (R342). -/
structure ReceiverInv (s : State) : Prop where
  sizes : s.params.wf
  locked_checked : s.status.cfgLocked = true → cfgCheck s.params s.cfg = none
  running_locked : s.rx.state.running = true → s.status.cfgLocked = true
  msg_valid : s.rx.msgValid = true ↔ s.rx.state = .delivering
  err_valid : s.rx.errValid = true ↔ s.rx.state = .reporting
  item_decoding : s.rxItem.isSome = true → s.rx.state = .decoding
  pull_seek : ∀ k, s.pullPending = some (.seek, k) →
    s.rx.state = .seeking ∧ 1 ≤ k ∧ k + s.rdbuf.length ≤ s.params.rdbufCap
  pull_read : ∀ k, s.pullPending = some (.read, k) →
    s.rx.state = .reading ∧ 1 ≤ k ∧ s.rdbuf = [] ∧ s.frame.length + k = s.cfg.l
  rdbuf_le : s.rdbuf.length ≤ s.params.rdbufCap
  frame_le : s.frame.length ≤ s.cfg.l
  frame_state : s.frame ≠ [] → s.rx.state = .reading ∨ (s.rx.state = .decoding ∧ s.rxItem = none)
  reading_sync : s.rx.state = .reading →
    (s.frame = [] → s.cfg.sync <+: s.rdbuf) ∧ (s.frame ≠ [] → s.cfg.sync <+: s.frame)
  decoding_frame : s.rx.state = .decoding → s.rxItem = none →
    s.frame.length = s.cfg.l ∧ s.cfg.sync <+: s.frame

/-- The output windows: OUT_LEN and an offered MSG_LEN never pass their buffers, the bytes below them are specified
(10_state.md R63, R64), and a decoded message fits MSG_BUF (44_frame_receiver.md R345). -/
structure BufferInv (s : State) : Prop where
  out_le : s.outLen.toNat ≤ s.params.datapathMax
  out_specified : ∀ a, a < s.outLen.toNat → (s.mem.read (outBase + a)).isSome = true
  item_fits : ∀ x, s.rxItem = some (.msg x) → x.length ≤ s.params.msgbufSize
  msg_le : s.rx.msgValid = true → s.msgLen.toNat ≤ s.params.msgbufSize
  msg_specified : s.rx.msgValid = true → ∀ a, a < s.msgLen.toNat → (s.mem.read (msgBase + a)).isSome = true

/-- The invariant of the machine. -/
structure Inv (s : State) : Prop where
  memory : s.mem.wf s.params
  engine : EngineInv s
  receiver : ReceiverInv s
  buffers : BufferInv s

/-- A host program whose every access the bus performs (20_memory.md R82): its runs are the safe runs. -/
def programWf (s : State) : Prop := ∀ stmt ∈ s.program, stmt.wf = true

/-- RX_STATUS.STATE after the receiver's own step: the rows marked RX of 44_frame_receiver.md R351, and in every other
state no change. -/
def rxRow (s : State) : RxState :=
  match s.rx.state with
  | .seeking => if s.pullPending = none ∧ (findMarker s.cfg.sync s.rdbuf).isSome then .reading else .seeking
  | .reading => if s.pullPending = none ∧ s.frame.length = s.cfg.l then .decoding else .reading
  | .decoding =>
    match s.rxItem with
    | none => .decoding
    | some (.msg _) => if s.rx.cancelPending then .canceled else .delivering
    | some (.err _ _ _) =>
      if s.rx.cancelPending then .canceled else if s.cfg.errqEn then .reporting else .seeking
  | .delivering => if s.rx.cancelPending then .canceled else .delivering
  | .reporting => if s.rx.cancelPending then .canceled else .reporting
  | .idle => .idle
  | .canceled => .canceled
  | .eos => .eos

/-- RX_STATUS.STATE after the SOURCE's answer in SEEKING or READING: the rows marked SRC of 44_frame_receiver.md R351. -/
def srcRow (a : SourceAnswer) (st : RxState) : RxState :=
  match a with
  | .data _ => st
  | .zero => if Config.zeroReadPolicy = .retry then st else .eos
  | .eof => .eos
  | .error => .decoding

end Sys2Proof.Machine
end

