-- ==== Sys2Proof/Certificates/Slice0/Obligations.lean ====
section
/-! DEFINITION. The statements for the provers. An error index or code is written as the number the spec gives it
(60_exceptions.md R390, R391). -/

open Sys2Proof Sys2Proof.Machine

/-! ## Encoding -/

/-- Words written out from 30_encoding.md R114, R117 and R121, one or more of each family, name their commands; two words
of R117 are illegal. -/
def Obligations.SpecWordsDecode : Prop :=
  decodeCmd 0x00000000 = .ok .nop ∧ decodeCmd 0x00000001 = .ok .cfgLock ∧ decodeCmd 0x00000012 = .ok .hdrValidateSfhdr
    ∧ decodeCmd 0x00000020 = .ok .hdrEncodeCspv1 ∧ decodeCmd 0x00000035 = .ok .hdrDecodeOlsftr
    ∧ decodeCmd 0x00000740 = .ok (.crcAdp 7) ∧ decodeCmd 0x00000041 = .ok .crcCc1110
    ∧ decodeCmd 0x00000250 = .ok (.adpWrap 2) ∧ decodeCmd 0x00000150 = .ok (.adpWrap 1)
    ∧ decodeCmd 0x00000062 = .ok .pipeWsize ∧ decodeCmd 0x00000063 = .ok .send
    ∧ decodeCmd 0x00000120 = .error .indexOnNoIndexCommand ∧ decodeCmd 0x00000016 = .error .headerKind
    ∧ decodeRxctrl 0x01 = [.rxStart] ∧ decodeRxctrl 0x03 = [.rxReset, .rxStart]

/-- 30_encoding.md R115, R117, R121: decoding the word of a well-formed instruction, in its own format, gives the
instruction back, with every adapter index 0..15. -/
def Obligations.DecodeOfEncode : Prop :=
  ∀ i : Instr, i.wf = true → decode i.format (encode i) = .ok [i]

/-- 30_encoding.md R115, R116: a word that names a command is the word of that command and of no other, and the illegal
words are exactly those with a reserved bit set, an OPC outside the map, or an index on a command without one. -/
def Obligations.LegalWordsExactly : Prop :=
  (∀ c i, decodeCmd c = .ok i → i.wf = true ∧ i.format = .cmd ∧ encode i = c)
    ∧ ∀ c : Word, (∃ e, decodeCmd c = .error e) ↔
        c.extractLsb' 12 20 ≠ 0
          ∨ c.extractLsb' 0 8 ∉ ([0x00, 0x01, 0x02, 0x10, 0x11, 0x12, 0x13, 0x14, 0x15, 0x20, 0x21, 0x22, 0x23, 0x24,
              0x25, 0x30, 0x31, 0x32, 0x33, 0x34, 0x35, 0x40, 0x41, 0x42, 0x43, 0x50, 0x51, 0x52, 0x60, 0x61, 0x62,
              0x63] : List (BitVec 8))
          ∨ (c.extractLsb' 8 4 ≠ 0 ∧ c.extractLsb' 0 8 ∉ ([0x40, 0x50, 0x51, 0x52] : List (BitVec 8)))

/-! ## Steps -/

/-- A turn of CODEC runs the accepted command: when the word decodes to i and no push waits, the step is exec of i in the
state whose schedule and step counter have moved on; with no command, or while the SINK has not answered, it changes
nothing else. That one turn runs the whole command, and that an agent without an enabled step changes nothing, are the
model's choices (notes/assumptions/8.md, 12.md). -/
def Obligations.StepRunsCommand : Prop :=
  ∀ s : State, s.turn = .codec →
    (∀ c i, s.cmd = some c → s.sinkPending = none → s.sinkAnswer = none → decodeCmd c = .ok i →
      step s = exec i s.begin)
    ∧ (s.cmd = none → step s = .next s.begin)
    ∧ (∀ c f, s.cmd = some c → s.sinkAnswer = none → s.sinkPending = some f → step s = .next s.begin)

/-- A host write of the action word of one RX_CTRL action runs that action, whatever BUSY and CFG_LOCKED are
(30_encoding.md R121, 44_frame_receiver.md R360). The program in the state is the model's (notes/assumptions/2.md). -/
def Obligations.StepRunsAction : Prop :=
  ∀ (s : State) (i : Instr) (rest : List HostStmt), s.turn = .host → i.format = .rxctrl →
    s.program = .wr 0x200 4 (encode i) :: rest → step s = exec i { s.begin with program := rest }

/-- 30_encoding.md R116: an accepted illegal word completes with CmdInvalid and ERR_IDX 0, changing nothing else. -/
def Obligations.IllegalWordCompletes : Prop :=
  ∀ (s : State) (c : Word) (e : Illegal), s.turn = .codec → s.cmd = some c → s.sinkPending = none →
    s.sinkAnswer = none → decodeCmd c = .error e → step s = .next (s.begin.doneErr 0x20 0)

/-- 43_pipeline_and_control.md R290: a host write of c to CMD is accepted when BUSY = 0 and only sets DROPPED when
BUSY = 1. -/
def Obligations.CommandIssue : Prop :=
  ∀ (s : State) (c : Word) (rest : List HostStmt), s.turn = .host → s.program = .wr 0x004 4 c :: rest →
    step s = .next
      (if s.status.busy then
        { s.begin with program := rest, status := { s.status with dropped := true } }
      else
        { s.begin with
          program := rest
          cmd := some c
          status := { s.status with
            busy := true, done := false, err := false, dropped := false, errCode := 0, errIdx := 0 } })

/-! ## Control commands -/

/-- 43_pipeline_and_control.md R295: NOP completes and changes nothing else. -/
def Obligations.NopCompletes : Prop := ∀ s : State, exec .nop s = .next s.doneOk

/-- 43_pipeline_and_control.md R297, R299: CFG.LOCK sets CFG_LOCKED when the configuration is accepted, and otherwise raises
ConfigInvalid with 0xF for a global field or the index of the first bad descriptor, for any lawful sizes (00_scope.md
R6). -/
def Obligations.CfgLockResult : Prop :=
  ∀ s : State, s.params.wf → exec .cfgLock s = .next
    (if s.cfg.globalsAccepted s.params then
      match s.cfg.firstBad s.params with
      | none => { s.doneOk with status := { s.status.ok with cfgLocked := true } }
      | some i => s.doneErr 0x01 (BitVec.ofNat 4 i.val)
    else s.doneErr 0x01 0xF)

/-- 43_pipeline_and_control.md R298: CFG.UNLOCK clears CFG_LOCKED unless the receiver runs, when it raises Busy and the lock
stays. -/
def Obligations.CfgUnlockResult : Prop :=
  ∀ s : State, exec .cfgUnlock s = .next
    (if s.rx.state = .idle ∨ s.rx.state = .canceled ∨ s.rx.state = .eos then
      { s.doneOk with status := { s.status.ok with cfgLocked := false } }
    else s.doneErr 0x23 0)

/-! ## Header commands -/

/-- 40_header_codecs.md R141, R150 and its like: each HDR.VALIDATE completes without error exactly when every slot its kind
uses is in range, and else reports the lowest bad slot; it changes nothing else. -/
def Obligations.HdrValidateResult : Prop :=
  ∀ (k : HeaderKind) (s : State), exec (Instr.validateOf k) s = .next
    (match lowestBadSlot k s.hf with
     | none => s.doneOk
     | some j => s.doneErr 0x03 (BitVec.ofNat 4 j.val))

/-- 40_header_codecs.md R142, R151 and its like: each HDR.ENCODE writes the wire bytes of the header in HF to OUT_BUF, or
reports the lowest bad slot and writes no output. -/
def Obligations.HdrEncodeResult : Prop :=
  ∀ (k : HeaderKind) (s : State), s.params.wf → ∃ t, exec (Instr.encodeOf k) s = .next t ∧
    match lowestBadSlot k s.hf with
    | none => wroteOut s t (wireHeader k s.hf)
    | some j => t = s.doneErr 0x03 (BitVec.ofNat 4 j.val)

/-- 40_header_codecs.md R143, R145, R152 and its like: each HDR.DECODE writes the fields of the wire bytes to HF, 0 to the
slots its kind does not use, when IN has the header's length and, under DECODE_CHECK, no reserved bit is set and every
field is in range. -/
def Obligations.HdrDecodeResult : Prop :=
  ∀ (k : HeaderKind) (s : State), exec (Instr.decodeOf k) s = .next
    (if s.params.datapathMax < s.inLen.toNat then s.doneErr 0x21 0
     else if s.inLen.toNat ≠ wireLength k then s.doneErr 0x04 0
     else if Config.decodeCheck k = true
        ∧ (wireReserved k s.inByte ≠ 0 ∨ headerInRange k (wireFields k s.inByte) = false) then s.doneErr 0x04 0
     else { s.doneOk with hf := wireFields k s.inByte })

/-- 40_header_codecs.md R144, which the spec marks as its own inference ("derived: from rules R142, R143, R145 and R147"):
the round trip, for the codec functions and in register terms. -/
def Obligations.HeaderRoundTrip : Prop :=
  (∀ (k : HeaderKind) (h : Vector Half 8), validate k h = none →
    ∃ h', decodeHeader k (pack k h) = .ok h'
      ∧ ∀ j : Fin 8, h'[j] = if (slotMaxima k)[j.val]?.isSome then h[j] else 0)
  ∧ ∀ (k : HeaderKind) (s t u : State), s.params.wf → u.params.wf → exec (Instr.encodeOf k) s = .next t →
      t.status.err = false → u.inLen = t.outLen → (∀ a, a < t.outLen.toNat → u.inByte a = t.outByte a) →
      ∃ h', exec (Instr.decodeOf k) u = .next { u.doneOk with hf := h' }
        ∧ ∀ j : Fin 8, h'[j] = if (slotMaxima k)[j.val]?.isSome then s.hf[j] else 0

/-! ## CRC commands -/

/-- 41_crc.md R211 to R213: the three CRC commands that need no lock write the CRC of IN to RESULT, zero-extended, or raise
OperandInvalid when IN_LEN > DATAPATH_MAX. -/
def Obligations.CrcCommandsResult : Prop :=
  ∀ s : State,
    exec .crcCc1110 s = .next
      (if s.params.datapathMax < s.inLen.toNat then s.doneErr 0x21 0 else { s.doneOk with result := 0#16 ++ cc1110 s.input })
    ∧ exec .crcC32c s = .next
      (if s.params.datapathMax < s.inLen.toNat then s.doneErr 0x21 0 else { s.doneOk with result := crc c32c s.input })
    ∧ exec .crcC32ieee s = .next
      (if s.params.datapathMax < s.inLen.toNat then s.doneErr 0x21 0 else { s.doneOk with result := crc c32ieee s.input })

/-- 41_crc.md R210: CRC.ADP i writes the CRC of IN by the parameter set of descriptor i to RESULT, after its four checks in
order. -/
def Obligations.CrcAdpResult : Prop :=
  ∀ (s : State) (idx : Nat), lockedAccepted s → exec (.crcAdp idx) s = .next
    (if s.status.cfgLocked = false then s.doneErr 0x22 0
     else if s.cfg.nAdp.toNat ≤ idx then s.doneErr 0x21 (BitVec.ofNat 4 idx)
     else if (s.cfg.desc idx).kind ≠ 1 ∧ (s.cfg.desc idx).kind ≠ 2 then s.doneErr 0x21 (BitVec.ofNat 4 idx)
     else if s.params.datapathMax < s.inLen.toNat then s.doneErr 0x21 0
     else { s.doneOk with result := (s.cfg.desc idx).crcValue s.input })

/-- 41_crc.md R202, R203, R206: the check values over ASCII "123456789", the CRC of the empty sequence, and that the
bit-serial CC1110 CRC equals the generic CRC with its parameters. -/
def Obligations.CrcVariants : Prop :=
  (let v : Bytes := [0x31, 0x32, 0x33, 0x34, 0x35, 0x36, 0x37, 0x38, 0x39]
   crc c32ieee v = 0xCBF43926 ∧ crc c32c v = 0xE3069283 ∧ cc1110 v = 0xAEE7)
  ∧ crc c32c [0x01, 0x02] = 0x03F89F52 ∧ cc1110 [] = 0xFFFF
  ∧ (∀ p : CrcParams 32, p.refin = true → p.refout = true → p.init = 0xFFFFFFFF → p.xorout = 0xFFFFFFFF →
      crc p [] = 0)
  ∧ ∀ v : Bytes, cc1110 v =
      crc { poly := 0x8005, init := 0xFFFF, refin := false, refout := false, xorout := 0 : CrcParams 16 } v

/-- A consequence of 41_crc.md R200 and R204: with no reflection and no final XOR, the CRC of a message followed by its
big-endian trailer is 0, so a trailer in the other byte order, or a wrong shift, would show. -/
def Obligations.CrcResidueZero : Prop :=
  (∀ (p : CrcParams 16) (v : Bytes), p.refin = false → p.refout = false → p.xorout = 0 →
    crc p (v ++ beHalf (crc p v)) = 0)
  ∧ ∀ (p : CrcParams 32) (v : Bytes), p.refin = false → p.refout = false → p.xorout = 0 →
    crc p (v ++ beWord (crc p v)) = 0

/-! ## Adapters -/

/-- 42_adapters.md R280: ADP.WRAP i writes the wrap of IN by descriptor i to OUT_BUF, or raises the wrap's error with index
i, after its checks in order. -/
def Obligations.AdpWrapResult : Prop :=
  ∀ (s : State) (idx : Nat), lockedAccepted s → ∃ t, exec (.adpWrap idx) s = .next t ∧
    if s.status.cfgLocked = false then t = s.doneErr 0x22 0
    else if s.cfg.nAdp.toNat ≤ idx then t = s.doneErr 0x21 (BitVec.ofNat 4 idx)
    else if s.params.datapathMax < s.inLen.toNat then t = s.doneErr 0x21 0
    else
      match wrap s.params (s.cfg.desc idx) s.input with
      | .error e => t = s.doneErr e.code (BitVec.ofNat 4 idx)
      | .ok v => wroteOut s t v

/-- 42_adapters.md R281: ADP.UNWRAP i, likewise with the unwrap. -/
def Obligations.AdpUnwrapResult : Prop :=
  ∀ (s : State) (idx : Nat), lockedAccepted s → ∃ t, exec (.adpUnwrap idx) s = .next t ∧
    if s.status.cfgLocked = false then t = s.doneErr 0x22 0
    else if s.cfg.nAdp.toNat ≤ idx then t = s.doneErr 0x21 (BitVec.ofNat 4 idx)
    else if s.params.datapathMax < s.inLen.toNat then t = s.doneErr 0x21 0
    else
      match unwrap (s.cfg.desc idx) s.input with
      | .error e => t = s.doneErr e.code (BitVec.ofNat 4 idx)
      | .ok v => wroteOut s t v

/-- 42_adapters.md R282, R270: ADP.WSIZE i writes the wrapped size of ARG by descriptor i to RESULT; IN_LEN is not read. -/
def Obligations.AdpWsizeResult : Prop :=
  ∀ (s : State) (idx : Nat), lockedAccepted s →
    let d := s.cfg.desc idx
    let n := s.arg.toNat
    let size : Nat :=
      if d.kind = 1 then n + 2
      else if d.kind = 2 ∨ d.kind = 4 then n + 4
      else if d.kind = 3 then
        2 + (d.w1.extractLsb' 0 16).toNat + (if d.opts.getLsbD 2 then 4 else 0) + (if d.opts.getLsbD 3 then 4 else 0)
      else if d.kind = 5 then n + 6
      else if d.kind = 6 then n + 7
      else n + 10
    exec (.adpWsize idx) s = .next
      (if s.status.cfgLocked = false then s.doneErr 0x22 0
       else if s.cfg.nAdp.toNat ≤ idx then s.doneErr 0x21 (BitVec.ofNat 4 idx)
       else { s.doneOk with result := BitVec.ofNat 32 size })

/-- 42_adapters.md R270: which inputs each kind's wrap accepts, that a wrap has the wrapped size, and that unwrap gives the
input back (for a CRC adapter, a non-empty one). The spec marks the rule as its own inference ("derived: from rules R232
to R269"). That a DATAPATH_MAX below 256 also bounds the OpenLST kinds is the model's reading of R231
(notes/assumptions/24.md). -/
def Obligations.WrapContract : Prop :=
  ∀ (p : Params) (d : Desc) (x : Bytes), p.wf → d.accepted p →
    ((∃ r, wrap p d x = .ok r) ↔
      (d.kind = 1 → x.length ≤ p.datapathMax - 2) ∧ (d.kind = 2 → x.length ≤ p.datapathMax - 4)
      ∧ (d.kind = 3 → x.length ≤ min (d.w1.extractLsb' 0 16).toNat 1024)
      ∧ (d.kind = 4 → x.length ≤ min (d.w1.extractLsb' 0 16).toNat (p.datapathMax - 4)
          ∧ d.w3.extractLsb' 0 8 ≤ 3 ∧ d.w2.extractLsb' 16 16 ≤ 31 ∧ d.w2.extractLsb' 0 16 ≤ 31
          ∧ d.w3.extractLsb' 8 8 ≤ 63 ∧ d.w3.extractLsb' 16 8 ≤ 63)
      ∧ (d.kind = 5 → x.length ≤ min (d.w1.extractLsb' 0 16).toNat (p.datapathMax - 6)
          ∧ d.w3.extractLsb' 0 8 ≤ 3 ∧ d.w2.extractLsb' 0 16 ≤ 16383 ∧ d.w2.extractLsb' 16 16 ≤ 16383
          ∧ d.w3.extractLsb' 8 8 ≤ 63 ∧ d.w3.extractLsb' 16 8 ≤ 63)
      ∧ (d.kind = 6 → x.length ≤ min 245 (p.datapathMax - 7)) ∧ (d.kind = 7 → x.length ≤ min 246 (p.datapathMax - 10)))
    ∧ ∀ r, wrap p d x = .ok r →
        r.length = wsize d x.length ∧ ((d.kind = 1 ∨ d.kind = 2 → 1 ≤ x.length) → unwrap d r = .ok x)

/-- 42_adapters.md R232, R233, 41_crc.md R204: what the CRC adapters wrap to, and the order of their unwrap checks. -/
def Obligations.CrcAdapter : Prop :=
  ∀ (p : Params) (d : Desc) (v : Bytes), d.accepted p → d.kind = 1 ∨ d.kind = 2 →
    let trailer := fun c : Word => if d.kind = 1 then beHalf (c.extractLsb' 0 16) else beWord c
    let t := if d.kind = 1 then 2 else 4
    wrap p d v = (if p.datapathMax < v.length + t then .error .capacityExceeded else .ok (v ++ trailer (d.crcValue v)))
    ∧ unwrap d v =
        (if v.length ≤ t then .error .tooShort
         else if v.drop (v.length - t) = trailer (d.crcValue (v.take (v.length - t))) then .ok (v.take (v.length - t))
         else .error .crcMismatch)

/-- 42_adapters.md R241: the layout a SPACEFRAME wrap gives, and its two errors in order. -/
def Obligations.SpaceframeWrap : Prop :=
  ∀ (p : Params) (d : Desc) (v : Bytes), d.accepted p → d.kind = 3 →
    let pds := (d.w1.extractLsb' 0 16).toNat
    let body := beHalf (BitVec.ofNat 16 v.length) ++ v ++ List.replicate (pds - v.length) 0
    wrap p d v =
      (if pds < v.length then .error .payloadTooLarge
       else if 1024 < v.length then .error .headerFieldOutOfRange
       else .ok ((if d.opts.getLsbD 2 then [0x1A, 0xCF, 0xFC, 0x1D] else []) ++ body
          ++ (if d.opts.getLsbD 3 then beWord (crc c32c body) else [])))

/-- 42_adapters.md R242: the order of the SPACEFRAME unwrap checks, on a frame of the right length taken apart. -/
def Obligations.SpaceframeUnwrap : Prop :=
  ∀ (p : Params) (d : Desc), d.accepted p → d.kind = 3 →
    let pds := (d.w1.extractLsb' 0 16).toNat
    let size := 2 + pds + (if d.opts.getLsbD 2 then 4 else 0) + (if d.opts.getLsbD 3 then 4 else 0)
    (∀ f : Bytes, f.length ≠ size → unwrap d f = .error .lengthMismatch)
    ∧ (∀ f : Bytes, f.length = size → d.opts.getLsbD 2 = true → f.take 4 ≠ [0x1A, 0xCF, 0xFC, 0x1D] →
        unwrap d f = .error .asmMismatch)
    ∧ ∀ (h0 h1 : Byte) (q : Bytes) (c : Word), q.length = pds →
        let body := h0 :: h1 :: q
        let w : Half := h0 ++ h1
        unwrap d ((if d.opts.getLsbD 2 then [0x1A, 0xCF, 0xFC, 0x1D] else []) ++ body
            ++ (if d.opts.getLsbD 3 then beWord c else [])) =
          (if d.opts.getLsbD 3 = true ∧ c ≠ crc c32c body then .error .crcMismatch
           else if Config.decodeCheck .sfhdr = true
              ∧ (w.getLsbD 15 = true ∨ w.extractLsb' 11 4 ≠ 0 ∨ 1024 < (w.extractLsb' 0 11).toNat) then
             .error .headerDecodeError
           else if w.extractLsb' 11 4 ≠ 0 then .error .typeMismatch
           else if pds < (w.extractLsb' 0 11).toNat then .error .lengthMismatch
           else .ok (q.take (w.extractLsb' 0 11).toNat))

/-- 42_adapters.md R248 to R250, R254: what the CSP adapters wrap to, and the order of their wrap errors. -/
def Obligations.CspWrap : Prop :=
  ∀ (p : Params) (d : Desc) (v : Bytes),
    let maxData := (d.w1.extractLsb' 0 16).toNat
    (d.kind = 4 →
      wrap p d v =
        (if maxData < v.length then .error .payloadTooLarge
         else if ¬ (d.w3.extractLsb' 0 8 ≤ 3 ∧ d.w2.extractLsb' 16 16 ≤ 31 ∧ d.w2.extractLsb' 0 16 ≤ 31
            ∧ d.w3.extractLsb' 8 8 ≤ 63 ∧ d.w3.extractLsb' 16 8 ≤ 63) then .error .headerFieldOutOfRange
         else if p.datapathMax < 4 + v.length then .error .capacityExceeded
         else .ok (beWord (d.w3.extractLsb' 0 2 ++ d.w2.extractLsb' 16 5 ++ d.w2.extractLsb' 0 5 ++ d.w3.extractLsb' 8 6
            ++ d.w3.extractLsb' 16 6 ++ 0#8) ++ v)))
    ∧ (d.kind = 5 →
      wrap p d v =
        (if maxData < v.length then .error .payloadTooLarge
         else if ¬ (d.w3.extractLsb' 0 8 ≤ 3 ∧ d.w2.extractLsb' 0 16 ≤ 16383 ∧ d.w2.extractLsb' 16 16 ≤ 16383
            ∧ d.w3.extractLsb' 8 8 ≤ 63 ∧ d.w3.extractLsb' 16 8 ≤ 63) then .error .headerFieldOutOfRange
         else if p.datapathMax < 6 + v.length then .error .capacityExceeded
         else .ok (beSix (d.w3.extractLsb' 0 2 ++ d.w2.extractLsb' 0 14 ++ d.w2.extractLsb' 16 14 ++ d.w3.extractLsb' 8 6
            ++ d.w3.extractLsb' 16 6 ++ 0#6) ++ v)))

/-- 42_adapters.md R251, R255: the CSP unwraps, in the order of their checks. -/
def Obligations.CspUnwrap : Prop :=
  ∀ (d : Desc) (v : Bytes),
    let maxData := (d.w1.extractLsb' 0 16).toNat
    (d.kind = 4 →
      unwrap d v =
        (if 4 + maxData < v.length then .error .payloadTooLarge
         else if v.length < 4 then .error .headerDecodeError
         else if Config.decodeCheck .cspv1 = true ∧ v.getD 3 0 ≠ 0 then .error .headerDecodeError
         else .ok (v.drop 4)))
    ∧ (d.kind = 5 →
      unwrap d v =
        (if 6 + maxData < v.length then .error .payloadTooLarge
         else if v.length < 6 then .error .headerDecodeError
         else if Config.decodeCheck .cspv2 = true ∧ v.getD 5 0 &&& 0x3F ≠ 0 then .error .headerDecodeError
         else .ok (v.drop 6)))

/-- 42_adapters.md R260 to R262, R265 to R267: what the OpenLST adapters wrap to, byte by byte, where DATAPATH_MAX is at
least the 256 bytes of their longest result. The last clause is about a smaller DATAPATH_MAX: a result longer than it is
CapacityExceeded, the model's reading of R231 (notes/assumptions/24.md). -/
def Obligations.OpenLstWrap : Prop :=
  ∀ (p : Params) (d : Desc) (v : Bytes),
    let hwid := d.w1.extractLsb' 0 16
    let seq := d.w1.extractLsb' 16 16
    (256 ≤ p.datapathMax → d.kind = 6 →
      wrap p d v =
        (if 245 < v.length then .error .payloadTooLarge
         else .ok ([BitVec.ofNat 8 (6 + v.length)] ++ leHalf hwid ++ leHalf seq
            ++ [d.w3.extractLsb' 0 8, d.w3.extractLsb' 8 8] ++ v)))
    ∧ (256 ≤ p.datapathMax → d.kind = 7 →
      let covered := [BitVec.ofNat 8 (9 + v.length), d.w3.extractLsb' 16 8] ++ leHalf seq
        ++ [d.w3.extractLsb' 0 8, d.w3.extractLsb' 8 8] ++ v ++ leHalf hwid
      wrap p d v =
        (if 246 < v.length then .error .payloadTooLarge else .ok (covered ++ beHalf (cc1110 covered))))
    ∧ (d.kind = 6 ∨ d.kind = 7 →
      wrap p d v =
        (match wrap { p with datapathMax := 256 } d v with
         | .error e => .error e
         | .ok r => if p.datapathMax < r.length then .error .capacityExceeded else .ok r))

/-- 42_adapters.md R263, R268: the OpenLST unwraps, in the order of their checks. -/
def Obligations.OpenLstUnwrap : Prop :=
  ∀ (d : Desc) (v : Bytes),
    (d.kind = 6 →
      unwrap d v =
        (if v.length < 7 then .error .headerDecodeError
         else if Config.decodeCheck .olchdr = true ∧ ((v.getD 0 0).toNat < 6 ∨ 251 < (v.getD 0 0).toNat) then
           .error .headerDecodeError
         else if (v.getD 0 0).toNat ≠ v.length - 1 then .error .lengthMismatch
         else .ok (v.drop 7)))
    ∧ (d.kind = 7 →
      unwrap d v =
        (if v.length < 10 then .error .headerDecodeError
         else if v.drop (v.length - 2) ≠ beHalf (cc1110 (v.take (v.length - 2))) then .error .crcMismatch
         else if (v.getD 0 0).toNat ≠ v.length - 1 then .error .lengthMismatch
         else .ok ((v.drop 6).take (v.length - 10))))

/-! ## Pipeline and sender -/

/-- 43_pipeline_and_control.md R303, R304: PIPE.WRAP and PIPE.UNWRAP write the result of the whole chain to OUT_BUF, or raise
the failing stage's error with its index, after their checks in order. -/
def Obligations.PipeCommandsResult : Prop :=
  ∀ s : State, lockedAccepted s →
    (∃ t, exec .pipeWrap s = .next t ∧
      if s.status.cfgLocked = false then t = s.doneErr 0x22 0
      else if s.params.datapathMax < s.inLen.toNat then t = s.doneErr 0x21 0
      else
        match pipeWrap s.params s.cfg s.input with
        | .error e => t = s.doneErr e.code.code (BitVec.ofNat 4 e.idx)
        | .ok z => wroteOut s t z)
    ∧ ∃ t, exec .pipeUnwrap s = .next t ∧
      if s.status.cfgLocked = false then t = s.doneErr 0x22 0
      else if s.params.datapathMax < s.inLen.toNat then t = s.doneErr 0x21 0
      else
        match pipeUnwrap s.cfg s.input with
        | .error e => t = s.doneErr e.code.code (BitVec.ofNat 4 e.idx)
        | .ok x => wroteOut s t x

/-- 43_pipeline_and_control.md R300, 60_exceptions.md R393: a failing chain reports the first failing stage in run order: the
stages run before it succeed, it fails on what they give, and its index and error are the ones reported. -/
def Obligations.FirstFailingStage : Prop :=
  ∀ (p : Params) (c : Cfg) (v : Bytes) (e : Raised),
    (pipeWrap p c v = .error e →
      e.idx < c.n
        ∧ ∃ x, runStages (wrap p) (c.chain.take e.idx) v = .ok x ∧ wrap p (c.desc e.idx) x = .error e.code)
    ∧ (pipeUnwrap c v = .error e →
      e.idx < c.n ∧ ∃ x, runStages unwrap (c.chain.reverse.take (c.n - 1 - e.idx)) v = .ok x
        ∧ unwrap (c.desc e.idx) x = .error e.code)

/-- 43_pipeline_and_control.md R302: a wrapped message has the pipeline's wrapped size, and unwraps to itself unless a CRC
stage was given an empty input; with no adapter every function is the identity (R300). -/
def Obligations.PipelineComposition : Prop :=
  (∀ (p : Params) (c : Cfg) (x z : Bytes), p.wf → c.globalsAccepted p → c.firstBad p = none → pipeWrap p c x = .ok z →
    z.length = pipeWsize c x.length
    ∧ ((∀ i y, i < c.n → (c.desc i).kind = 1 ∨ (c.desc i).kind = 2 → runStages (wrap p) (c.chain.take i) x = .ok y →
          1 ≤ y.length) → pipeUnwrap c z = .ok x))
  ∧ ∀ (p : Params) (c : Cfg) (x : Bytes) (n : Nat), c.n = 0 →
    pipeWrap p c x = .ok x ∧ pipeUnwrap c x = .ok x ∧ pipeWsize c n = n

/-- 43_pipeline_and_control.md R305: PIPE.WSIZE writes the chain's wrapped size of ARG to RESULT, which always fits. -/
def Obligations.PipeWsizeResult : Prop :=
  ∀ s : State, lockedAccepted s →
    exec .pipeWsize s = .next
      (if s.status.cfgLocked = false then s.doneErr 0x22 0
       else { s.doneOk with
        result := BitVec.ofNat 32 ((List.range s.cfg.nAdp.toNat).foldl (fun n i => wsize (s.cfg.desc i) n) s.arg.toNat) })
    ∧ (s.status.cfgLocked = true → pipeWsize s.cfg s.arg.toNat ≤ 0xFFFF + 8 * 10)

/-- 43_pipeline_and_control.md R306, the push step of SEND: after its checks in order and the wrap, it pushes SYNC and the
wrapped message as one frame and stays in flight, writing nothing else; an error before the push completes it. The value
of pipe_i while SEND waits is the model's choice (notes/assumptions/9.md). -/
def Obligations.SendPushes : Prop :=
  ∀ s : State, exec .send s = .next
    (if s.status.cfgLocked = false then s.doneErr 0x22 0
     else if s.params.datapathMax < s.inLen.toNat then s.doneErr 0x21 0
     else
       match pipeWrap s.params s.cfg s.input with
       | .error e => s.doneErr e.code.code (BitVec.ofNat 4 e.idx)
       | .ok x =>
         if s.cfg.frameSize.toNat < x.length then s.doneErr 0x02 0xF
         else { s with
           sinkPending := some (s.cfg.sync ++ x)
           pipeI := s.cfg.nAdp.toNat
           portLog := s.portLog ++ [.push (s.cfg.sync ++ x)] })

/-- 20_memory.md R92, 43_pipeline_and_control.md R306: the SINK's answer to a push of f, for every SINK oracle, and the
completion step of SEND that follows it. The plan that comes before the oracle's answers, where an answer is held until the
completion step, and pipe_i 0 after it are the model's choices (notes/assumptions/2.md, 10.md, 9.md). -/
def Obligations.SendCompletes : Prop :=
  (∀ (o : Ports) (s : State) (f : Bytes) (a : SinkAnswer) (rest : List SinkAnswer), s.sinkPending = some f →
    s.sinkPlan = a :: rest ∨ (s.sinkPlan = [] ∧ rest = [] ∧ o.sink s.pushes = some a) →
    (∀ n, a = .accepted n → n ≤ f.length) →
    stepBy o .sink s = .next { s.begin with
      sinkPending := none, sinkAnswer := some (f, a), sinkPlan := rest, portLog := s.portLog ++ [.pushed a] })
  ∧ ∀ (s : State) (c : Word) (f : Bytes) (a : SinkAnswer), s.turn = .codec → s.cmd = some c →
    s.sinkAnswer = some (f, a) →
    step s = .next
      (match a with
       | .accepted n =>
         if n < f.length then { s.begin.doneErr 0x0A 0 with sinkAnswer := none, pipeI := 0 }
         else { s.begin.doneOk with sinkAnswer := none, pipeI := 0 }
       | .error => { s.begin.doneErr 0x0C 0 with sinkAnswer := none, pipeI := 0 })

/-- 60_exceptions.md R392, R396: a command that completes with an error has written STATUS and CMD_DONE and nothing else. -/
def Obligations.ErrorsArePrecise : Prop :=
  ∀ (i : Instr) (s t : State), i.format = .cmd → s.status.err = false → exec i s = .next t → t.status.err = true →
    ∃ code idx, code ≠ 0 ∧ t = s.doneErr code idx

/-! ## RX_CTRL actions -/

/-- 44_frame_receiver.md R361: START starts an IDLE receiver of a locked configuration, and else sets only
CTRL_REJECTED. -/
def Obligations.RxStartResult : Prop :=
  ∀ s : State, exec .rxStart s = .next
    (if s.rx.state = .idle ∧ s.status.cfgLocked = true then
      { s with rx := { s.rx with cancelPending := false, state := .seeking } }
    else { s with rx := { s.rx with ctrlRejected := true } })

/-- 44_frame_receiver.md R362: RESET clears the receiver's private state and RX_STATUS in IDLE, CANCELED and EOS, and else
sets only CTRL_REJECTED. -/
def Obligations.RxResetResult : Prop :=
  ∀ s : State, exec .rxReset s = .next
    (if s.rx.state = .idle ∨ s.rx.state = .canceled ∨ s.rx.state = .eos then
      { s with
        rdbuf := [], frame := [], rxItem := none
        rx := { state := .idle, msgValid := false, errValid := false, cancelPending := false, ctrlRejected := false } }
    else { s with rx := { s.rx with ctrlRejected := true } })

/-- 44_frame_receiver.md R363 to R365, R343: CANCEL sets the token; MSG_POP and ERR_POP take an offered item and go to the
iteration top, CANCELED with RX_END under a pending cancellation and SEEKING otherwise, and do nothing without an item. -/
def Obligations.RxCancelAndPops : Prop :=
  ∀ s : State,
    exec .rxCancel s = .next { s with rx := { s.rx with cancelPending := true } }
    ∧ exec .rxMsgPop s = .next
      (if s.rx.msgValid = false then s
       else if s.rx.cancelPending then
         { s with rx := { s.rx with msgValid := false, state := .canceled }, irqStatus := s.irqStatus ||| 8 }
       else { s with rx := { s.rx with msgValid := false, state := .seeking } })
    ∧ exec .rxErrPop s = .next
      (if s.rx.errValid = false then s
       else if s.rx.cancelPending then
         { s with rx := { s.rx with errValid := false, state := .canceled }, irqStatus := s.irqStatus ||| 8 }
       else { s with rx := { s.rx with errValid := false, state := .seeking } })

/-- 44_frame_receiver.md R360: one RX_CTRL write performs the actions of its set bits in the order CANCEL, MSG_POP, ERR_POP,
RESET, START, each in the state the previous one left. -/
def Obligations.RxActionOrder : Prop :=
  ∀ (s s1 s2 s3 s4 s5 : State) (a : Word) (rest : List HostStmt), s.turn = .host → s.program = .wr 0x200 4 a :: rest →
    (if a.getLsbD 2 then exec .rxCancel { s.begin with program := rest } else .next { s.begin with program := rest })
      = .next s1 →
    (if a.getLsbD 3 then exec .rxMsgPop s1 else .next s1) = .next s2 →
    (if a.getLsbD 4 then exec .rxErrPop s2 else .next s2) = .next s3 →
    (if a.getLsbD 1 then exec .rxReset s3 else .next s3) = .next s4 →
    (if a.getLsbD 0 then exec .rxStart s4 else .next s4) = .next s5 →
    step s = .next s5

/-! ## The receiver -/

/-- 44_frame_receiver.md R333: find is the least position of the marker, or none when there is none. -/
def Obligations.FindIsLeast : Prop :=
  ∀ (sync b : Bytes),
    (∀ j, findMarker sync b = some j ↔
      j + sync.length ≤ b.length ∧ (b.drop j).take sync.length = sync
        ∧ ∀ i, i < j → (b.drop i).take sync.length ≠ sync)
    ∧ (findMarker sync b = none ↔ ∀ j, j + sync.length ≤ b.length → (b.drop j).take sync.length ≠ sync)

/-- A consequence of 44_frame_receiver.md R334 that R353 rests on: keeping the last m − 1 bytes of a buffer without a marker
loses no marker that later bytes complete, and moves none. -/
def Obligations.SeekMissLosesNoMarker : Prop :=
  ∀ (sync b v : Bytes), sync ≠ [] → findMarker sync b = none →
    findMarker sync (b ++ v)
      = (findMarker sync (keepTail sync.length b ++ v)).map (· + (b.length - (keepTail sync.length b).length))

/-- 10_state.md R45: the sync marker is the first CFG_SYNC_LEN bytes of CFG_SYNC0 and CFG_SYNC1, lowest lane first. -/
def Obligations.SyncMarkerBytes : Prop :=
  ∀ c : Cfg, c.syncLen.toNat ≤ 8 → c.sync.length = c.syncLen.toNat ∧ ∀ k, k < c.syncLen.toNat →
    c.sync[k]? = some (if k < 4 then c.sync0.extractLsb' (8 * k) 8 else c.sync1.extractLsb' (8 * (k - 4)) 8)

/-- 44_frame_receiver.md R334, R337: the seek step and the read step, each case with all it changes. -/
def Obligations.SeekAndReadSteps : Prop :=
  ∀ s : State, s.turn = .rx → s.pullPending = none →
    let m := s.cfg.syncLen.toNat
    let need := m + s.cfg.frameSize.toNat - s.frame.length
    (∀ j, s.rx.state = .seeking → findMarker s.cfg.sync s.rdbuf = some j →
      step s = .next { s.begin with
        rdbuf := s.rdbuf.drop j, frame := [], rx := { s.rx with state := .reading } })
    ∧ (s.rx.state = .seeking → findMarker s.cfg.sync s.rdbuf = none →
      let kept := s.rdbuf.drop (s.rdbuf.length - (m - 1))
      step s = .next { s.begin with
        rdbuf := kept, pullPending := some (.seek, s.params.rdbufCap - kept.length)
        portLog := s.portLog ++ [.pull .seek (s.params.rdbufCap - kept.length)] })
    ∧ (s.rx.state = .reading → need = 0 → step s = .next { s.begin with rx := { s.rx with state := .decoding } })
    ∧ (s.rx.state = .reading → need ≠ 0 → s.rdbuf ≠ [] →
      step s = .next { s.begin with
        frame := s.frame ++ s.rdbuf.take (min need s.rdbuf.length)
        rdbuf := s.rdbuf.drop (min need s.rdbuf.length) })
    ∧ (s.rx.state = .reading → need ≠ 0 → s.rdbuf = [] →
      step s = .next { s.begin with
        pullPending := some (.read, need), portLog := s.portLog ++ [.pull .read need] })

/-- 44_frame_receiver.md R345 to R350: the decode step, and the offer step of a message, of an error, and under a pending
cancellation, each case with all it changes; with the numbers of the error codes (60_exceptions.md R390) and of the stages
(10_state.md R61). That a PayloadTooLarge of a CSP unwrap is offered with its own code 0x02 is the model's reading of R390
(notes/assumptions/26.md). -/
def Obligations.DecodeAndOfferSteps : Prop :=
  (∀ e : ErrCode, e.code =
    match e with
    | .configInvalid => 0x01
    | .payloadTooLarge => 0x02
    | .headerFieldOutOfRange => 0x03
    | .headerDecodeError => 0x04
    | .crcMismatch => 0x05
    | .asmMismatch => 0x06
    | .lengthMismatch => 0x07
    | .typeMismatch => 0x08
    | .tooShort => 0x09
    | .writeShort => 0x0A
    | .transportError => 0x0C
    | .cmdInvalid => 0x20
    | .operandInvalid => 0x21
    | .notConfigured => 0x22
    | .busy => 0x23
    | .capacityExceeded => 0x24)
  ∧ ErrStage.code .seek = 1 ∧ ErrStage.code .read = 2 ∧ ErrStage.code .unwrap = 3
  ∧ ∀ s : State, s.turn = .rx → s.pullPending = none → s.rx.state = .decoding →
    (s.rxItem = none →
      step s = .next { s.begin with
        frame := []
        rxItem := some
          (match pipeUnwrap s.cfg (s.frame.drop s.cfg.syncLen.toNat) with
           | .ok x => .msg x
           | .error e => .err e.code .unwrap e.idx) })
    ∧ (∀ it, s.rxItem = some it → s.rx.cancelPending = true →
      step s = .next { s.begin with
        rxItem := none, rx := { s.rx with state := .canceled }, irqStatus := s.irqStatus ||| 8 })
    ∧ (∀ x, s.rxItem = some (.msg x) → s.rx.cancelPending = false → x.length ≤ s.params.frameMax →
      ∃ t, step s = .next t
        ∧ t = { s.begin with
            rxItem := none, mem := t.mem, msgLen := BitVec.ofNat 16 x.length
            rx := { s.rx with msgValid := true, state := .delivering }, irqStatus := s.irqStatus ||| 2 }
        ∧ msgHolds t.mem x ∧ sameOutside msgBase x.length s.mem t.mem)
    ∧ (∀ e st i, s.rxItem = some (.err e st i) → s.rx.cancelPending = false → s.cfg.errqEn = true →
      step s = .next { s.begin with
        rxItem := none, errInfo := { code := e.code, stage := st.code, adpIdx := BitVec.ofNat 4 i }
        rx := { s.rx with errValid := true, state := .reporting }, irqStatus := s.irqStatus ||| 4 })
    ∧ (∀ e st i, s.rxItem = some (.err e st i) → s.rx.cancelPending = false → s.cfg.errqEn = false →
      step s = .next { s.begin with rxItem := none, rx := { s.rx with state := .seeking } })

/-- 44_frame_receiver.md R348: while an item is offered the receiver withdraws it when a cancellation is pending, and waits
for the host otherwise (a turn that changes nothing, notes/assumptions/12.md). -/
def Obligations.CancelOfferStep : Prop :=
  ∀ s : State, s.turn = .rx → s.pullPending = none → s.rx.state = .delivering ∨ s.rx.state = .reporting →
    step s = .next
      (if s.rx.cancelPending then
        { s.begin with
          rx := { s.rx with msgValid := false, errValid := false, state := .canceled }
          irqStatus := s.irqStatus ||| 8 }
      else s.begin)

/-- 44_frame_receiver.md R335, R338 to R340: what each answer of the SOURCE does to the pull of each stage, under either
ZERO_READ_POLICY and for every SOURCE oracle, a function of the history of pulls (70_reset_and_hazards.md R448); and that
step is such a step with free oracles. The plan that comes before the oracle's answers is the model's
(notes/assumptions/2.md). -/
def Obligations.SourceAnswers : Prop :=
  (∀ s : State, step s = stepBy Config.ports s.turn s)
  ∧ ∀ (o : Ports) (s : State) (stage : PullStage) (k : Nat) (a : SourceAnswer) (rest : List SourceAnswer),
    s.pullPending = some (stage, k) →
    s.sourcePlan = a :: rest ∨ (s.sourcePlan = [] ∧ rest = [] ∧ o.source s.pulls = some a) →
    (∀ v, a = .data v → 1 ≤ v.length ∧ v.length ≤ k) →
    let u := { s.begin with
      pullPending := none, sourcePlan := rest, portLog := s.portLog ++ [.pulled a] }
    let ended := { u with
      frame := if stage = .read then [] else s.frame
      rx := { s.rx with state := .eos }, irqStatus := s.irqStatus ||| 8 }
    stepBy o .source s = .next
      (match a, stage with
       | .data v, .seek => { u with rdbuf := s.rdbuf ++ v }
       | .data v, .read => { u with frame := s.frame ++ v }
       | .zero, _ => if Config.zeroReadPolicy = .retry then u else ended
       | .eof, _ => ended
       | .error, .seek =>
         { u with rxItem := some (.err .transportError .seek 0), rx := { s.rx with state := .decoding } }
       | .error, .read =>
         { u with frame := [], rxItem := some (.err .transportError .read 0), rx := { s.rx with state := .decoding } })

/-- 44_frame_receiver.md R331: while a pull is outstanding no step of the receiver's own is enabled, and where the
SOURCE gives no answer, neither by its plan nor by its oracle, its turn changes nothing. That such a turn still counts as a
step is the model's choice (notes/assumptions/12.md). -/
def Obligations.UnansweredPullWaits : Prop :=
  ∀ s : State, s.pullPending.isSome = true →
    (s.turn = .rx → step s = .next s.begin)
    ∧ ∀ o : Ports, s.sourcePlan = [] → o.source s.pulls = none → stepBy o .source s = .next s.begin

/-- 44_frame_receiver.md R351, the rows of each step by themselves: a step of the receiver moves STATE by the RX rows only
and changes nothing in IDLE, CANCELED and EOS (that such a turn counts as a step is the model's choice,
notes/assumptions/12.md), an answer of the SOURCE only in SEEKING and READING by the SRC rows, each RX_CTRL action by its
HOST rows, and no command, no step of CODEC or the SINK and no other statement of the HOST changes RX_STATUS. -/
def Obligations.RxTransitions : Prop :=
  ∀ s : State, ReceiverInv s →
    (s.turn = .rx → ∃ t, step s = .next t ∧ t.rx.state = rxRow s
      ∧ (s.rx.state = .idle ∨ s.rx.state = .canceled ∨ s.rx.state = .eos → t = s.begin))
    ∧ (∀ o : Ports, ∃ t, stepBy o .source s = .next t ∧
      (t = s.begin ∨ (s.rx.state = .seeking ∨ s.rx.state = .reading)
        ∧ ∃ a, t.portLog = s.portLog ++ [.pulled a] ∧ t.rx.state = srcRow a s.rx.state))
    ∧ (∃ t, exec .rxStart s = .next t
      ∧ t.rx.state = if s.rx.state = .idle ∧ s.status.cfgLocked = true then .seeking else s.rx.state)
    ∧ (∃ t, exec .rxReset s = .next t
      ∧ t.rx.state = if s.rx.state = .canceled ∨ s.rx.state = .eos then .idle else s.rx.state)
    ∧ (∃ t, exec .rxCancel s = .next t ∧ t.rx.state = s.rx.state)
    ∧ (∃ t, exec .rxMsgPop s = .next t
      ∧ t.rx.state = if s.rx.state ≠ .delivering then s.rx.state
          else if s.rx.cancelPending then .canceled else .seeking)
    ∧ (∃ t, exec .rxErrPop s = .next t
      ∧ t.rx.state = if s.rx.state ≠ .reporting then s.rx.state
          else if s.rx.cancelPending then .canceled else .seeking)
    ∧ (∀ i t, i.format = .cmd → exec i s = .next t → t.rx = s.rx)
    ∧ (∀ t, s.turn = .codec ∨ s.turn = .sink → step s = .next t → t.rx = s.rx)
    ∧ ∀ t, s.turn = .host → (∀ v rest, s.program ≠ .wr 0x200 4 v :: rest) → step s = .next t → t.rx = s.rx

/-! ## Host accesses -/

/-- 10_state.md R33, 43_pipeline_and_control.md R293, R297: an operand write while BUSY and a configuration write while
locked set DROPPED and nothing else; a write to a read-only register or window, or to an unmapped offset, does nothing.
The unmapped offsets 0x098..0x0FF, whose writes while locked follow the model's reading of notes/assumptions/21.md, are
left out. -/
def Obligations.HostWritesIgnored : Prop :=
  ∀ (s : State) (off : BitVec 16) (v : Word) (rest : List HostStmt), s.turn = .host →
    s.program = .wr off 4 v :: rest → off.toNat % 4 = 0 →
    let o := off.toNat
    let operand := o = 0x00C ∨ o = 0x018 ∨ (0x020 ≤ o ∧ o < 0x040) ∨ (0x1000 ≤ o ∧ o < 0x1000 + s.params.datapathMax)
    let config := (0x080 ≤ o ∧ o ≤ 0x094) ∨ (0x100 ≤ o ∧ o < 0x180)
    ((operand ∧ s.status.busy = true) ∨ (config ∧ s.status.cfgLocked = true) →
      step s = .next { s.begin with program := rest, status := { s.status with dropped := true } })
    ∧ (¬ operand ∧ ¬ (0x080 ≤ o ∧ o < 0x180) ∧ o ≠ 0x004 ∧ o ≠ 0x040 ∧ o ≠ 0x044 ∧ o ≠ 0x200 →
      step s = .next { s.begin with program := rest })

/-- 10_state.md R36, R39, R40, R42, R43, R62: what an operand write stores while BUSY = 0, and what a write to IRQ_EN or
IRQ_STATUS does at any time. That the lanes of IN_BUF's last word past a DATAPATH_MAX that is no multiple of 4 store nothing
is the model's reading (notes/assumptions/23.md). -/
def Obligations.OperandWritesLand : Prop :=
  ∀ (s : State) (off : BitVec 16) (v : Word) (rest : List HostStmt), s.turn = .host →
    s.program = .wr off 4 v :: rest →
    let u := { s.begin with program := rest }
    (off = 0x00C → s.status.busy = false → step s = .next { u with inLen := v.extractLsb' 0 16 })
    ∧ (off = 0x018 → s.status.busy = false → step s = .next { u with arg := v.extractLsb' 0 16 })
    ∧ (∀ j : Fin 8, off = BitVec.ofNat 16 (0x020 + 4 * j.val) → s.status.busy = false →
      step s = .next { u with hf := s.hf.set j (v.extractLsb' 0 16) })
    ∧ (∀ w, s.params.wf → 4 * w < s.params.datapathMax → off = BitVec.ofNat 16 (0x1000 + 4 * w) →
      s.status.busy = false →
      ∃ t, step s = .next t ∧ t = { u with mem := t.mem }
        ∧ (∀ j, j < 4 → 4 * w + j < s.params.datapathMax →
          t.mem.read (0x1000 + 4 * w + j) = some (v.extractLsb' (8 * j) 8))
        ∧ sameOutside (0x1000 + 4 * w) (min 4 (s.params.datapathMax - 4 * w)) s.mem t.mem)
    ∧ (off = 0x040 → step s = .next { u with irqEn := v.extractLsb' 0 4 })
    ∧ (off = 0x044 → step s = .next { u with irqStatus := s.irqStatus &&& ~~~(v.extractLsb' 0 4) })

/-- 10_state.md R44 to R49: what a configuration write stores while CFG_LOCKED = 0, whatever BUSY is. -/
def Obligations.ConfigWritesLand : Prop :=
  ∀ (s : State) (off : BitVec 16) (v : Word) (rest : List HostStmt), s.turn = .host →
    s.program = .wr off 4 v :: rest → s.status.cfgLocked = false →
    let after := fun c : Cfg => Host.Outcome.next (φ := Fault) (ρ := Refusal) { s.begin with program := rest, cfg := c }
    (off = 0x080 → step s = after { s.cfg with syncLen := v.extractLsb' 0 4 })
    ∧ (off = 0x084 → step s = after { s.cfg with sync0 := v })
    ∧ (off = 0x088 → step s = after { s.cfg with sync1 := v })
    ∧ (off = 0x08C → step s = after { s.cfg with frameSize := v.extractLsb' 0 16 })
    ∧ (off = 0x090 → step s = after { s.cfg with nAdp := v.extractLsb' 0 4 })
    ∧ (off = 0x094 → step s = after { s.cfg with errqEn := v.getLsbD 0 })
    ∧ ∀ i : Fin 8,
      (off = BitVec.ofNat 16 (0x100 + 16 * i.val) →
        step s = after { s.cfg with
          adp := s.cfg.adp.set i { s.cfg.adp[i] with kind := v.extractLsb' 0 4, opts := v.extractLsb' 8 8 } })
      ∧ (off = BitVec.ofNat 16 (0x104 + 16 * i.val) →
        step s = after { s.cfg with adp := s.cfg.adp.set i { s.cfg.adp[i] with w1 := v } })
      ∧ (off = BitVec.ofNat 16 (0x108 + 16 * i.val) →
        step s = after { s.cfg with adp := s.cfg.adp.set i { s.cfg.adp[i] with w2 := v } })
      ∧ (off = BitVec.ofNat 16 (0x10C + 16 * i.val) →
        step s = after { s.cfg with adp := s.cfg.adp.set i { s.cfg.adp[i] with w3 := v.extractLsb' 0 24 } })

/-- 10_state.md R31 to R64, 20_memory.md R81, R83, R86: a read changes nothing but the HOST's own record, and returns the
value of every register of the map with 0 in its reserved bits, the bytes of the three windows in little-endian lanes, and
0 at a write-only register and at every unmapped word-aligned offset. 60_exceptions.md R402: the irq output is 1 exactly
when IRQ_STATUS and IRQ_EN, as read, share a bit. The HOST's record of what it read is the model's
(notes/assumptions/18.md), and so is that the words of the OUT_BUF window from a DATAPATH_MAX below 4096 on are unmapped
(notes/assumptions/23.md). -/
def Obligations.HostReads : Prop :=
  (∀ (s : State) (off : BitVec 16) (rest : List HostStmt), s.turn = .host → s.program = .rd off 4 :: rest →
    off.toNat % 4 = 0 →
    step s = .next { s.begin with
      program := rest, hostReads := s.hostReads ++ [(off, busRead { s.begin with program := rest } off)] })
  ∧ ∀ s : State,
    busRead s 0x000 = 0x53460001 ∧ busRead s 0x004 = 0
    ∧ busRead s 0x008 = 0#12 ++ s.status.errIdx ++ s.status.errCode ++ 0#3 ++ BitVec.ofBool s.status.cfgLocked
        ++ BitVec.ofBool s.status.dropped ++ BitVec.ofBool s.status.err ++ BitVec.ofBool s.status.done
        ++ BitVec.ofBool s.status.busy
    ∧ busRead s 0x00C = 0#16 ++ s.inLen ∧ busRead s 0x010 = 0#16 ++ s.outLen ∧ busRead s 0x014 = s.result
    ∧ busRead s 0x018 = 0#16 ++ s.arg
    ∧ (∀ j : Fin 8, busRead s (BitVec.ofNat 16 (0x020 + 4 * j.val)) = 0#16 ++ s.hf[j])
    ∧ busRead s 0x040 = 0#28 ++ s.irqEn ∧ busRead s 0x044 = 0#28 ++ s.irqStatus
    ∧ (s.irq = true ↔ busRead s 0x044 &&& busRead s 0x040 ≠ 0)
    ∧ busRead s 0x080 = 0#28 ++ s.cfg.syncLen ∧ busRead s 0x084 = s.cfg.sync0 ∧ busRead s 0x088 = s.cfg.sync1
    ∧ busRead s 0x08C = 0#16 ++ s.cfg.frameSize ∧ busRead s 0x090 = 0#28 ++ s.cfg.nAdp
    ∧ busRead s 0x094 = 0#31 ++ BitVec.ofBool s.cfg.errqEn
    ∧ (∀ i : Fin 8,
      busRead s (BitVec.ofNat 16 (0x100 + 16 * i.val)) = 0#16 ++ s.cfg.adp[i].opts ++ 0#4 ++ s.cfg.adp[i].kind
      ∧ busRead s (BitVec.ofNat 16 (0x104 + 16 * i.val)) = s.cfg.adp[i].w1
      ∧ busRead s (BitVec.ofNat 16 (0x108 + 16 * i.val)) = s.cfg.adp[i].w2
      ∧ busRead s (BitVec.ofNat 16 (0x10C + 16 * i.val)) = 0#8 ++ s.cfg.adp[i].w3)
    ∧ busRead s 0x200 = 0
    ∧ busRead s 0x204 = 0#20 ++ BitVec.ofBool s.rx.ctrlRejected ++ BitVec.ofBool s.rx.cancelPending
        ++ BitVec.ofBool s.rx.errValid ++ BitVec.ofBool s.rx.msgValid ++ 0#5
        ++ (match s.rx.state with
            | .idle => 0#3
            | .seeking => 1#3
            | .reading => 2#3
            | .decoding => 3#3
            | .delivering => 4#3
            | .reporting => 5#3
            | .canceled => 6#3
            | .eos => 7#3)
    ∧ busRead s 0x208 = 0#16 ++ s.msgLen
    ∧ busRead s 0x20C = 0#16 ++ s.errInfo.adpIdx ++ s.errInfo.stage ++ s.errInfo.code
    ∧ (s.params.wf → ∀ w j b, j < 4 →
      (4 * w + j < s.params.datapathMax → s.mem.read (0x1000 + 4 * w + j) = some b →
        (busRead s (BitVec.ofNat 16 (0x1000 + 4 * w))).extractLsb' (8 * j) 8 = b)
      ∧ (4 * w + j < s.params.datapathMax → 4 * w + j < s.outLen.toNat → s.mem.read (0x2000 + 4 * w + j) = some b →
        (busRead s (BitVec.ofNat 16 (0x2000 + 4 * w))).extractLsb' (8 * j) 8 = b)
      ∧ (4 * w + j < s.params.frameMax → s.rx.msgValid = true → 4 * w + j < s.msgLen.toNat →
        s.mem.read (0x3000 + 4 * w + j) = some b →
        (busRead s (BitVec.ofNat 16 (0x3000 + 4 * w))).extractLsb' (8 * j) 8 = b))
    ∧ ∀ off : BitVec 16, off.toNat % 4 = 0 →
      let o := off.toNat
      o ∉ ([0x000, 0x004, 0x008, 0x00C, 0x010, 0x014, 0x018, 0x040, 0x044, 0x080, 0x084, 0x088, 0x08C, 0x090, 0x094,
        0x200, 0x204, 0x208, 0x20C] : List Nat) →
      ¬ (0x020 ≤ o ∧ o < 0x040) → ¬ (0x100 ≤ o ∧ o < 0x180) →
      ¬ (0x1000 ≤ o ∧ o < 0x1000 + s.params.datapathMax) → ¬ (0x2000 ≤ o ∧ o < 0x2000 + s.params.datapathMax) →
      ¬ (0x3000 ≤ o ∧ o < 0x3000 + s.params.frameMax) → busRead s off = 0

/-- 20_memory.md R82: a misaligned access, or one that is not 32 bits wide, is a bus error: the machine faults with the
statement and no state follows, for the three host statements that access the bus at an offset of their own. -/
def Obligations.MisalignedFaults : Prop :=
  ∀ (s : State) (stmt : HostStmt) (off : BitVec 16) (width : Nat) (v : Word) (rest : List HostStmt), s.turn = .host →
    s.program = stmt :: rest →
    stmt = .wr off width v ∨ stmt = .rd off width ∨ (width = 4 ∧ ∃ mask, stmt = .poll off mask v) →
    off.toNat % 4 ≠ 0 ∨ width ≠ 4 → step s = .fault (.busError stmt)

/-- 60_exceptions.md R398: a machine whose host program makes only aligned 32-bit accesses takes every step, and its program
stays such a one. -/
def Obligations.WellFormedProgramsNeverFault : Prop :=
  ∀ s : State, programWf s → ∃ t, step s = .next t ∧ programWf t

/-- 43_pipeline_and_control.md R296, R298, 20_memory.md R100: while CFG_LOCKED = 1 no step but a reset changes the
configuration, and only CFG.UNLOCK, with the receiver stopped, ends the lock; so every step keeps that a locked
configuration is one that CFG.LOCK accepts (R299), the premise of the adapter and pipeline statements. That no step changes
the sizes of 00_scope.md R6, which State holds, is the model's choice (notes/assumptions/7.md). -/
def Obligations.LockedConfigurationKept : Prop :=
  ∀ s t : State, step s = .next t →
    (lockedAccepted s → lockedAccepted t) ∧ t.params = s.params
    ∧ (s.turn ≠ .rst → s.status.cfgLocked = true →
        t.cfg = s.cfg
        ∧ (t.status.cfgLocked = false →
            s.turn = .codec ∧ s.cmd.map decodeCmd = some (.ok .cfgUnlock) ∧ s.rx.state.running = false))

/-! ## Invariants -/

/-- Every step keeps the invariant of the command engine, from every state that has it. Its clauses on pipe_i and on the
held SINK answer are about the model's choices (notes/assumptions/9.md, 10.md). -/
def Obligations.EngineInvariantKept : Prop :=
  ∀ s t : State, EngineInv s → step s = .next t → EngineInv t

/-- Every step keeps the invariant of the receiver and the configuration lock, from every state that has it. -/
def Obligations.ReceiverInvariantKept : Prop :=
  ∀ s t : State, ReceiverInv s → step s = .next t → ReceiverInv t

/-- Every step from a state with the whole invariant keeps the invariant of the output windows (10_state.md R63, R64,
44_frame_receiver.md R345) and the canonical form of the memory. That form, rising offsets that are bytes of a window, is
no rule of the spec: it is the model's DESIGN CHOICE (notes/assumptions/17.md). -/
def Obligations.BufferInvariantKept : Prop :=
  ∀ s t : State, Inv s → step s = .next t → t.mem.wf t.params ∧ BufferInv t

/-- 70_reset_and_hazards.md R433 (the spec's own inference): the invariant holds after reset. R430, R431: a reset step gives
the reset state, whatever the lawful sizes. That it leaves the agents outside the SFE what they hold, that it empties the
SFE's port history and leaves the ports theirs, and that the sizes stay, are the model's choices (notes/assumptions/7.md,
16.md). -/
def Obligations.ResetState : Prop :=
  (∀ p : Params, p.wf → Inv { State.reset with params := p } ∧ lockedAccepted { State.reset with params := p })
    ∧ State.reset.params.wf
    ∧ ∀ s : State, s.turn = .rst → step s = .next { State.reset with
        program := s.program, hostReads := s.hostReads, sourcePlan := s.sourcePlan, sinkPlan := s.sinkPlan
        pastLog := s.pastLog ++ s.portLog, sched := s.sched.tail, tick := s.tick + 1, params := s.params }
end

