-- ==== Sys2Proof/Laws/State.lean ====
section
/-! SUPPORT. The value of every field of State after every named update: one lemma per field per update, so that no
later proof unfolds a record update. -/

namespace Sys2Proof.Machine

/-! `State.drop` -/

@[simp] theorem State.drop_status (s : State) : s.drop.status = { s.status with dropped := true } := rfl
@[simp] theorem State.drop_inLen (s : State) : s.drop.inLen = s.inLen := rfl
@[simp] theorem State.drop_outLen (s : State) : s.drop.outLen = s.outLen := rfl
@[simp] theorem State.drop_result (s : State) : s.drop.result = s.result := rfl
@[simp] theorem State.drop_arg (s : State) : s.drop.arg = s.arg := rfl
@[simp] theorem State.drop_hf (s : State) : s.drop.hf = s.hf := rfl
@[simp] theorem State.drop_irqEn (s : State) : s.drop.irqEn = s.irqEn := rfl
@[simp] theorem State.drop_irqStatus (s : State) : s.drop.irqStatus = s.irqStatus := rfl
@[simp] theorem State.drop_cfg (s : State) : s.drop.cfg = s.cfg := rfl
@[simp] theorem State.drop_rx (s : State) : s.drop.rx = s.rx := rfl
@[simp] theorem State.drop_msgLen (s : State) : s.drop.msgLen = s.msgLen := rfl
@[simp] theorem State.drop_errInfo (s : State) : s.drop.errInfo = s.errInfo := rfl
@[simp] theorem State.drop_mem (s : State) : s.drop.mem = s.mem := rfl
@[simp] theorem State.drop_cmd (s : State) : s.drop.cmd = s.cmd := rfl
@[simp] theorem State.drop_pipeI (s : State) : s.drop.pipeI = s.pipeI := rfl
@[simp] theorem State.drop_sinkPending (s : State) : s.drop.sinkPending = s.sinkPending := rfl
@[simp] theorem State.drop_rdbuf (s : State) : s.drop.rdbuf = s.rdbuf := rfl
@[simp] theorem State.drop_frame (s : State) : s.drop.frame = s.frame := rfl
@[simp] theorem State.drop_pullPending (s : State) : s.drop.pullPending = s.pullPending := rfl
@[simp] theorem State.drop_rxItem (s : State) : s.drop.rxItem = s.rxItem := rfl
@[simp] theorem State.drop_portLog (s : State) : s.drop.portLog = s.portLog := rfl
@[simp] theorem State.drop_sinkAnswer (s : State) : s.drop.sinkAnswer = s.sinkAnswer := rfl
@[simp] theorem State.drop_program (s : State) : s.drop.program = s.program := rfl
@[simp] theorem State.drop_hostReads (s : State) : s.drop.hostReads = s.hostReads := rfl
@[simp] theorem State.drop_sourcePlan (s : State) : s.drop.sourcePlan = s.sourcePlan := rfl
@[simp] theorem State.drop_sinkPlan (s : State) : s.drop.sinkPlan = s.sinkPlan := rfl
@[simp] theorem State.drop_sched (s : State) : s.drop.sched = s.sched := rfl
@[simp] theorem State.drop_tick (s : State) : s.drop.tick = s.tick := rfl
@[simp] theorem State.drop_pastLog (s : State) : s.drop.pastLog = s.pastLog := rfl
@[simp] theorem State.drop_params (s : State) : s.drop.params = s.params := rfl

/-! `State.writeOut` -/

@[simp] theorem State.writeOut_status (v : Bytes) (s : State) : (s.writeOut v).status = s.status := rfl
@[simp] theorem State.writeOut_inLen (v : Bytes) (s : State) : (s.writeOut v).inLen = s.inLen := rfl
@[simp] theorem State.writeOut_outLen (v : Bytes) (s : State) : (s.writeOut v).outLen =
    BitVec.ofNat 16 v.length := rfl
@[simp] theorem State.writeOut_result (v : Bytes) (s : State) : (s.writeOut v).result = s.result := rfl
@[simp] theorem State.writeOut_arg (v : Bytes) (s : State) : (s.writeOut v).arg = s.arg := rfl
@[simp] theorem State.writeOut_hf (v : Bytes) (s : State) : (s.writeOut v).hf = s.hf := rfl
@[simp] theorem State.writeOut_irqEn (v : Bytes) (s : State) : (s.writeOut v).irqEn = s.irqEn := rfl
@[simp] theorem State.writeOut_irqStatus (v : Bytes) (s : State) : (s.writeOut v).irqStatus = s.irqStatus := rfl
@[simp] theorem State.writeOut_cfg (v : Bytes) (s : State) : (s.writeOut v).cfg = s.cfg := rfl
@[simp] theorem State.writeOut_rx (v : Bytes) (s : State) : (s.writeOut v).rx = s.rx := rfl
@[simp] theorem State.writeOut_msgLen (v : Bytes) (s : State) : (s.writeOut v).msgLen = s.msgLen := rfl
@[simp] theorem State.writeOut_errInfo (v : Bytes) (s : State) : (s.writeOut v).errInfo = s.errInfo := rfl
@[simp] theorem State.writeOut_mem (v : Bytes) (s : State) : (s.writeOut v).mem =
    Memory.splice outBase (v.take s.params.datapathMax) s.mem := rfl
@[simp] theorem State.writeOut_cmd (v : Bytes) (s : State) : (s.writeOut v).cmd = s.cmd := rfl
@[simp] theorem State.writeOut_pipeI (v : Bytes) (s : State) : (s.writeOut v).pipeI = s.pipeI := rfl
@[simp] theorem State.writeOut_sinkPending (v : Bytes) (s : State) : (s.writeOut v).sinkPending = s.sinkPending := rfl
@[simp] theorem State.writeOut_rdbuf (v : Bytes) (s : State) : (s.writeOut v).rdbuf = s.rdbuf := rfl
@[simp] theorem State.writeOut_frame (v : Bytes) (s : State) : (s.writeOut v).frame = s.frame := rfl
@[simp] theorem State.writeOut_pullPending (v : Bytes) (s : State) : (s.writeOut v).pullPending = s.pullPending := rfl
@[simp] theorem State.writeOut_rxItem (v : Bytes) (s : State) : (s.writeOut v).rxItem = s.rxItem := rfl
@[simp] theorem State.writeOut_portLog (v : Bytes) (s : State) : (s.writeOut v).portLog = s.portLog := rfl
@[simp] theorem State.writeOut_sinkAnswer (v : Bytes) (s : State) : (s.writeOut v).sinkAnswer = s.sinkAnswer := rfl
@[simp] theorem State.writeOut_program (v : Bytes) (s : State) : (s.writeOut v).program = s.program := rfl
@[simp] theorem State.writeOut_hostReads (v : Bytes) (s : State) : (s.writeOut v).hostReads = s.hostReads := rfl
@[simp] theorem State.writeOut_sourcePlan (v : Bytes) (s : State) : (s.writeOut v).sourcePlan = s.sourcePlan := rfl
@[simp] theorem State.writeOut_sinkPlan (v : Bytes) (s : State) : (s.writeOut v).sinkPlan = s.sinkPlan := rfl
@[simp] theorem State.writeOut_sched (v : Bytes) (s : State) : (s.writeOut v).sched = s.sched := rfl
@[simp] theorem State.writeOut_tick (v : Bytes) (s : State) : (s.writeOut v).tick = s.tick := rfl
@[simp] theorem State.writeOut_pastLog (v : Bytes) (s : State) : (s.writeOut v).pastLog = s.pastLog := rfl
@[simp] theorem State.writeOut_params (v : Bytes) (s : State) : (s.writeOut v).params = s.params := rfl

/-! `State.writeInWord` -/

@[simp] theorem State.writeInWord_status (a : Nat) (v : Word) (s : State) : (s.writeInWord a v).status =
    s.status := rfl
@[simp] theorem State.writeInWord_inLen (a : Nat) (v : Word) (s : State) : (s.writeInWord a v).inLen = s.inLen := rfl
@[simp] theorem State.writeInWord_outLen (a : Nat) (v : Word) (s : State) : (s.writeInWord a v).outLen =
    s.outLen := rfl
@[simp] theorem State.writeInWord_result (a : Nat) (v : Word) (s : State) : (s.writeInWord a v).result =
    s.result := rfl
@[simp] theorem State.writeInWord_arg (a : Nat) (v : Word) (s : State) : (s.writeInWord a v).arg = s.arg := rfl
@[simp] theorem State.writeInWord_hf (a : Nat) (v : Word) (s : State) : (s.writeInWord a v).hf = s.hf := rfl
@[simp] theorem State.writeInWord_irqEn (a : Nat) (v : Word) (s : State) : (s.writeInWord a v).irqEn = s.irqEn := rfl
@[simp] theorem State.writeInWord_irqStatus (a : Nat) (v : Word) (s : State) : (s.writeInWord a v).irqStatus =
    s.irqStatus := rfl
@[simp] theorem State.writeInWord_cfg (a : Nat) (v : Word) (s : State) : (s.writeInWord a v).cfg = s.cfg := rfl
@[simp] theorem State.writeInWord_rx (a : Nat) (v : Word) (s : State) : (s.writeInWord a v).rx = s.rx := rfl
@[simp] theorem State.writeInWord_msgLen (a : Nat) (v : Word) (s : State) : (s.writeInWord a v).msgLen =
    s.msgLen := rfl
@[simp] theorem State.writeInWord_errInfo (a : Nat) (v : Word) (s : State) : (s.writeInWord a v).errInfo =
    s.errInfo := rfl
theorem State.writeInWord_mem (a : Nat) (v : Word) (s : State) : (s.writeInWord a v).mem =
    Memory.splice (inBase + a) (([v.extractLsb' 0 8, v.extractLsb' 8 8, v.extractLsb' 16 8, v.extractLsb' 24 8] :
      Bytes).take (s.params.datapathMax - a)) s.mem := rfl
@[simp] theorem State.writeInWord_cmd (a : Nat) (v : Word) (s : State) : (s.writeInWord a v).cmd = s.cmd := rfl
@[simp] theorem State.writeInWord_pipeI (a : Nat) (v : Word) (s : State) : (s.writeInWord a v).pipeI = s.pipeI := rfl
@[simp] theorem State.writeInWord_sinkPending (a : Nat) (v : Word) (s : State) : (s.writeInWord a v).sinkPending =
    s.sinkPending := rfl
@[simp] theorem State.writeInWord_rdbuf (a : Nat) (v : Word) (s : State) : (s.writeInWord a v).rdbuf = s.rdbuf := rfl
@[simp] theorem State.writeInWord_frame (a : Nat) (v : Word) (s : State) : (s.writeInWord a v).frame = s.frame := rfl
@[simp] theorem State.writeInWord_pullPending (a : Nat) (v : Word) (s : State) : (s.writeInWord a v).pullPending =
    s.pullPending := rfl
@[simp] theorem State.writeInWord_rxItem (a : Nat) (v : Word) (s : State) : (s.writeInWord a v).rxItem =
    s.rxItem := rfl
@[simp] theorem State.writeInWord_portLog (a : Nat) (v : Word) (s : State) : (s.writeInWord a v).portLog =
    s.portLog := rfl
@[simp] theorem State.writeInWord_sinkAnswer (a : Nat) (v : Word) (s : State) : (s.writeInWord a v).sinkAnswer =
    s.sinkAnswer := rfl
@[simp] theorem State.writeInWord_program (a : Nat) (v : Word) (s : State) : (s.writeInWord a v).program =
    s.program := rfl
@[simp] theorem State.writeInWord_hostReads (a : Nat) (v : Word) (s : State) : (s.writeInWord a v).hostReads =
    s.hostReads := rfl
@[simp] theorem State.writeInWord_sourcePlan (a : Nat) (v : Word) (s : State) : (s.writeInWord a v).sourcePlan =
    s.sourcePlan := rfl
@[simp] theorem State.writeInWord_sinkPlan (a : Nat) (v : Word) (s : State) : (s.writeInWord a v).sinkPlan =
    s.sinkPlan := rfl
@[simp] theorem State.writeInWord_sched (a : Nat) (v : Word) (s : State) : (s.writeInWord a v).sched = s.sched := rfl
@[simp] theorem State.writeInWord_tick (a : Nat) (v : Word) (s : State) : (s.writeInWord a v).tick = s.tick := rfl
@[simp] theorem State.writeInWord_pastLog (a : Nat) (v : Word) (s : State) : (s.writeInWord a v).pastLog = s.pastLog := rfl
@[simp] theorem State.writeInWord_params (a : Nat) (v : Word) (s : State) : (s.writeInWord a v).params = s.params := rfl

/-! `State.writeResult` -/

@[simp] theorem State.writeResult_status (v : Word) (s : State) : (s.writeResult v).status = s.status := rfl
@[simp] theorem State.writeResult_inLen (v : Word) (s : State) : (s.writeResult v).inLen = s.inLen := rfl
@[simp] theorem State.writeResult_outLen (v : Word) (s : State) : (s.writeResult v).outLen = s.outLen := rfl
@[simp] theorem State.writeResult_result (v : Word) (s : State) : (s.writeResult v).result = v := rfl
@[simp] theorem State.writeResult_arg (v : Word) (s : State) : (s.writeResult v).arg = s.arg := rfl
@[simp] theorem State.writeResult_hf (v : Word) (s : State) : (s.writeResult v).hf = s.hf := rfl
@[simp] theorem State.writeResult_irqEn (v : Word) (s : State) : (s.writeResult v).irqEn = s.irqEn := rfl
@[simp] theorem State.writeResult_irqStatus (v : Word) (s : State) : (s.writeResult v).irqStatus = s.irqStatus := rfl
@[simp] theorem State.writeResult_cfg (v : Word) (s : State) : (s.writeResult v).cfg = s.cfg := rfl
@[simp] theorem State.writeResult_rx (v : Word) (s : State) : (s.writeResult v).rx = s.rx := rfl
@[simp] theorem State.writeResult_msgLen (v : Word) (s : State) : (s.writeResult v).msgLen = s.msgLen := rfl
@[simp] theorem State.writeResult_errInfo (v : Word) (s : State) : (s.writeResult v).errInfo = s.errInfo := rfl
@[simp] theorem State.writeResult_mem (v : Word) (s : State) : (s.writeResult v).mem = s.mem := rfl
@[simp] theorem State.writeResult_cmd (v : Word) (s : State) : (s.writeResult v).cmd = s.cmd := rfl
@[simp] theorem State.writeResult_pipeI (v : Word) (s : State) : (s.writeResult v).pipeI = s.pipeI := rfl
@[simp] theorem State.writeResult_sinkPending (v : Word) (s : State) : (s.writeResult v).sinkPending =
    s.sinkPending := rfl
@[simp] theorem State.writeResult_rdbuf (v : Word) (s : State) : (s.writeResult v).rdbuf = s.rdbuf := rfl
@[simp] theorem State.writeResult_frame (v : Word) (s : State) : (s.writeResult v).frame = s.frame := rfl
@[simp] theorem State.writeResult_pullPending (v : Word) (s : State) : (s.writeResult v).pullPending =
    s.pullPending := rfl
@[simp] theorem State.writeResult_rxItem (v : Word) (s : State) : (s.writeResult v).rxItem = s.rxItem := rfl
@[simp] theorem State.writeResult_portLog (v : Word) (s : State) : (s.writeResult v).portLog = s.portLog := rfl
@[simp] theorem State.writeResult_sinkAnswer (v : Word) (s : State) : (s.writeResult v).sinkAnswer =
    s.sinkAnswer := rfl
@[simp] theorem State.writeResult_program (v : Word) (s : State) : (s.writeResult v).program = s.program := rfl
@[simp] theorem State.writeResult_hostReads (v : Word) (s : State) : (s.writeResult v).hostReads = s.hostReads := rfl
@[simp] theorem State.writeResult_sourcePlan (v : Word) (s : State) : (s.writeResult v).sourcePlan =
    s.sourcePlan := rfl
@[simp] theorem State.writeResult_sinkPlan (v : Word) (s : State) : (s.writeResult v).sinkPlan = s.sinkPlan := rfl
@[simp] theorem State.writeResult_sched (v : Word) (s : State) : (s.writeResult v).sched = s.sched := rfl
@[simp] theorem State.writeResult_tick (v : Word) (s : State) : (s.writeResult v).tick = s.tick := rfl
@[simp] theorem State.writeResult_pastLog (v : Word) (s : State) : (s.writeResult v).pastLog = s.pastLog := rfl
@[simp] theorem State.writeResult_params (v : Word) (s : State) : (s.writeResult v).params = s.params := rfl

/-! `State.writeHf` -/

@[simp] theorem State.writeHf_status (h : Vector Half 8) (s : State) : (s.writeHf h).status = s.status := rfl
@[simp] theorem State.writeHf_inLen (h : Vector Half 8) (s : State) : (s.writeHf h).inLen = s.inLen := rfl
@[simp] theorem State.writeHf_outLen (h : Vector Half 8) (s : State) : (s.writeHf h).outLen = s.outLen := rfl
@[simp] theorem State.writeHf_result (h : Vector Half 8) (s : State) : (s.writeHf h).result = s.result := rfl
@[simp] theorem State.writeHf_arg (h : Vector Half 8) (s : State) : (s.writeHf h).arg = s.arg := rfl
@[simp] theorem State.writeHf_hf (h : Vector Half 8) (s : State) : (s.writeHf h).hf = h := rfl
@[simp] theorem State.writeHf_irqEn (h : Vector Half 8) (s : State) : (s.writeHf h).irqEn = s.irqEn := rfl
@[simp] theorem State.writeHf_irqStatus (h : Vector Half 8) (s : State) : (s.writeHf h).irqStatus = s.irqStatus := rfl
@[simp] theorem State.writeHf_cfg (h : Vector Half 8) (s : State) : (s.writeHf h).cfg = s.cfg := rfl
@[simp] theorem State.writeHf_rx (h : Vector Half 8) (s : State) : (s.writeHf h).rx = s.rx := rfl
@[simp] theorem State.writeHf_msgLen (h : Vector Half 8) (s : State) : (s.writeHf h).msgLen = s.msgLen := rfl
@[simp] theorem State.writeHf_errInfo (h : Vector Half 8) (s : State) : (s.writeHf h).errInfo = s.errInfo := rfl
@[simp] theorem State.writeHf_mem (h : Vector Half 8) (s : State) : (s.writeHf h).mem = s.mem := rfl
@[simp] theorem State.writeHf_cmd (h : Vector Half 8) (s : State) : (s.writeHf h).cmd = s.cmd := rfl
@[simp] theorem State.writeHf_pipeI (h : Vector Half 8) (s : State) : (s.writeHf h).pipeI = s.pipeI := rfl
@[simp] theorem State.writeHf_sinkPending (h : Vector Half 8) (s : State) : (s.writeHf h).sinkPending =
    s.sinkPending := rfl
@[simp] theorem State.writeHf_rdbuf (h : Vector Half 8) (s : State) : (s.writeHf h).rdbuf = s.rdbuf := rfl
@[simp] theorem State.writeHf_frame (h : Vector Half 8) (s : State) : (s.writeHf h).frame = s.frame := rfl
@[simp] theorem State.writeHf_pullPending (h : Vector Half 8) (s : State) : (s.writeHf h).pullPending =
    s.pullPending := rfl
@[simp] theorem State.writeHf_rxItem (h : Vector Half 8) (s : State) : (s.writeHf h).rxItem = s.rxItem := rfl
@[simp] theorem State.writeHf_portLog (h : Vector Half 8) (s : State) : (s.writeHf h).portLog = s.portLog := rfl
@[simp] theorem State.writeHf_sinkAnswer (h : Vector Half 8) (s : State) : (s.writeHf h).sinkAnswer =
    s.sinkAnswer := rfl
@[simp] theorem State.writeHf_program (h : Vector Half 8) (s : State) : (s.writeHf h).program = s.program := rfl
@[simp] theorem State.writeHf_hostReads (h : Vector Half 8) (s : State) : (s.writeHf h).hostReads = s.hostReads := rfl
@[simp] theorem State.writeHf_sourcePlan (h : Vector Half 8) (s : State) : (s.writeHf h).sourcePlan =
    s.sourcePlan := rfl
@[simp] theorem State.writeHf_sinkPlan (h : Vector Half 8) (s : State) : (s.writeHf h).sinkPlan = s.sinkPlan := rfl
@[simp] theorem State.writeHf_sched (h : Vector Half 8) (s : State) : (s.writeHf h).sched = s.sched := rfl
@[simp] theorem State.writeHf_tick (h : Vector Half 8) (s : State) : (s.writeHf h).tick = s.tick := rfl
@[simp] theorem State.writeHf_pastLog (h : Vector Half 8) (s : State) : (s.writeHf h).pastLog = s.pastLog := rfl
@[simp] theorem State.writeHf_params (h : Vector Half 8) (s : State) : (s.writeHf h).params = s.params := rfl

/-! `State.setLocked` -/

@[simp] theorem State.setLocked_status (b : Bool) (s : State) : (s.setLocked b).status =
    { s.status with cfgLocked := b } := rfl
@[simp] theorem State.setLocked_inLen (b : Bool) (s : State) : (s.setLocked b).inLen = s.inLen := rfl
@[simp] theorem State.setLocked_outLen (b : Bool) (s : State) : (s.setLocked b).outLen = s.outLen := rfl
@[simp] theorem State.setLocked_result (b : Bool) (s : State) : (s.setLocked b).result = s.result := rfl
@[simp] theorem State.setLocked_arg (b : Bool) (s : State) : (s.setLocked b).arg = s.arg := rfl
@[simp] theorem State.setLocked_hf (b : Bool) (s : State) : (s.setLocked b).hf = s.hf := rfl
@[simp] theorem State.setLocked_irqEn (b : Bool) (s : State) : (s.setLocked b).irqEn = s.irqEn := rfl
@[simp] theorem State.setLocked_irqStatus (b : Bool) (s : State) : (s.setLocked b).irqStatus = s.irqStatus := rfl
@[simp] theorem State.setLocked_cfg (b : Bool) (s : State) : (s.setLocked b).cfg = s.cfg := rfl
@[simp] theorem State.setLocked_rx (b : Bool) (s : State) : (s.setLocked b).rx = s.rx := rfl
@[simp] theorem State.setLocked_msgLen (b : Bool) (s : State) : (s.setLocked b).msgLen = s.msgLen := rfl
@[simp] theorem State.setLocked_errInfo (b : Bool) (s : State) : (s.setLocked b).errInfo = s.errInfo := rfl
@[simp] theorem State.setLocked_mem (b : Bool) (s : State) : (s.setLocked b).mem = s.mem := rfl
@[simp] theorem State.setLocked_cmd (b : Bool) (s : State) : (s.setLocked b).cmd = s.cmd := rfl
@[simp] theorem State.setLocked_pipeI (b : Bool) (s : State) : (s.setLocked b).pipeI = s.pipeI := rfl
@[simp] theorem State.setLocked_sinkPending (b : Bool) (s : State) : (s.setLocked b).sinkPending =
    s.sinkPending := rfl
@[simp] theorem State.setLocked_rdbuf (b : Bool) (s : State) : (s.setLocked b).rdbuf = s.rdbuf := rfl
@[simp] theorem State.setLocked_frame (b : Bool) (s : State) : (s.setLocked b).frame = s.frame := rfl
@[simp] theorem State.setLocked_pullPending (b : Bool) (s : State) : (s.setLocked b).pullPending =
    s.pullPending := rfl
@[simp] theorem State.setLocked_rxItem (b : Bool) (s : State) : (s.setLocked b).rxItem = s.rxItem := rfl
@[simp] theorem State.setLocked_portLog (b : Bool) (s : State) : (s.setLocked b).portLog = s.portLog := rfl
@[simp] theorem State.setLocked_sinkAnswer (b : Bool) (s : State) : (s.setLocked b).sinkAnswer = s.sinkAnswer := rfl
@[simp] theorem State.setLocked_program (b : Bool) (s : State) : (s.setLocked b).program = s.program := rfl
@[simp] theorem State.setLocked_hostReads (b : Bool) (s : State) : (s.setLocked b).hostReads = s.hostReads := rfl
@[simp] theorem State.setLocked_sourcePlan (b : Bool) (s : State) : (s.setLocked b).sourcePlan = s.sourcePlan := rfl
@[simp] theorem State.setLocked_sinkPlan (b : Bool) (s : State) : (s.setLocked b).sinkPlan = s.sinkPlan := rfl
@[simp] theorem State.setLocked_sched (b : Bool) (s : State) : (s.setLocked b).sched = s.sched := rfl
@[simp] theorem State.setLocked_tick (b : Bool) (s : State) : (s.setLocked b).tick = s.tick := rfl
@[simp] theorem State.setLocked_pastLog (b : Bool) (s : State) : (s.setLocked b).pastLog = s.pastLog := rfl
@[simp] theorem State.setLocked_params (b : Bool) (s : State) : (s.setLocked b).params = s.params := rfl

/-! `State.accept` -/

@[simp] theorem State.accept_status (c : Word) (s : State) : (s.accept c).status = 
      { s.status with busy := true, done := false, err := false, dropped := false, errCode := 0, errIdx := 0 } := rfl
@[simp] theorem State.accept_inLen (c : Word) (s : State) : (s.accept c).inLen = s.inLen := rfl
@[simp] theorem State.accept_outLen (c : Word) (s : State) : (s.accept c).outLen = s.outLen := rfl
@[simp] theorem State.accept_result (c : Word) (s : State) : (s.accept c).result = s.result := rfl
@[simp] theorem State.accept_arg (c : Word) (s : State) : (s.accept c).arg = s.arg := rfl
@[simp] theorem State.accept_hf (c : Word) (s : State) : (s.accept c).hf = s.hf := rfl
@[simp] theorem State.accept_irqEn (c : Word) (s : State) : (s.accept c).irqEn = s.irqEn := rfl
@[simp] theorem State.accept_irqStatus (c : Word) (s : State) : (s.accept c).irqStatus = s.irqStatus := rfl
@[simp] theorem State.accept_cfg (c : Word) (s : State) : (s.accept c).cfg = s.cfg := rfl
@[simp] theorem State.accept_rx (c : Word) (s : State) : (s.accept c).rx = s.rx := rfl
@[simp] theorem State.accept_msgLen (c : Word) (s : State) : (s.accept c).msgLen = s.msgLen := rfl
@[simp] theorem State.accept_errInfo (c : Word) (s : State) : (s.accept c).errInfo = s.errInfo := rfl
@[simp] theorem State.accept_mem (c : Word) (s : State) : (s.accept c).mem = s.mem := rfl
@[simp] theorem State.accept_cmd (c : Word) (s : State) : (s.accept c).cmd = some c := rfl
@[simp] theorem State.accept_pipeI (c : Word) (s : State) : (s.accept c).pipeI = s.pipeI := rfl
@[simp] theorem State.accept_sinkPending (c : Word) (s : State) : (s.accept c).sinkPending = s.sinkPending := rfl
@[simp] theorem State.accept_rdbuf (c : Word) (s : State) : (s.accept c).rdbuf = s.rdbuf := rfl
@[simp] theorem State.accept_frame (c : Word) (s : State) : (s.accept c).frame = s.frame := rfl
@[simp] theorem State.accept_pullPending (c : Word) (s : State) : (s.accept c).pullPending = s.pullPending := rfl
@[simp] theorem State.accept_rxItem (c : Word) (s : State) : (s.accept c).rxItem = s.rxItem := rfl
@[simp] theorem State.accept_portLog (c : Word) (s : State) : (s.accept c).portLog = s.portLog := rfl
@[simp] theorem State.accept_sinkAnswer (c : Word) (s : State) : (s.accept c).sinkAnswer = s.sinkAnswer := rfl
@[simp] theorem State.accept_program (c : Word) (s : State) : (s.accept c).program = s.program := rfl
@[simp] theorem State.accept_hostReads (c : Word) (s : State) : (s.accept c).hostReads = s.hostReads := rfl
@[simp] theorem State.accept_sourcePlan (c : Word) (s : State) : (s.accept c).sourcePlan = s.sourcePlan := rfl
@[simp] theorem State.accept_sinkPlan (c : Word) (s : State) : (s.accept c).sinkPlan = s.sinkPlan := rfl
@[simp] theorem State.accept_sched (c : Word) (s : State) : (s.accept c).sched = s.sched := rfl
@[simp] theorem State.accept_tick (c : Word) (s : State) : (s.accept c).tick = s.tick := rfl
@[simp] theorem State.accept_pastLog (c : Word) (s : State) : (s.accept c).pastLog = s.pastLog := rfl
@[simp] theorem State.accept_params (c : Word) (s : State) : (s.accept c).params = s.params := rfl

/-! `State.completeOk` -/

@[simp] theorem State.completeOk_status (s : State) : s.completeOk.status = 
      { s.status with busy := false, done := true, err := false, errCode := 0, errIdx := 0 } := rfl
@[simp] theorem State.completeOk_inLen (s : State) : s.completeOk.inLen = s.inLen := rfl
@[simp] theorem State.completeOk_outLen (s : State) : s.completeOk.outLen = s.outLen := rfl
@[simp] theorem State.completeOk_result (s : State) : s.completeOk.result = s.result := rfl
@[simp] theorem State.completeOk_arg (s : State) : s.completeOk.arg = s.arg := rfl
@[simp] theorem State.completeOk_hf (s : State) : s.completeOk.hf = s.hf := rfl
@[simp] theorem State.completeOk_irqEn (s : State) : s.completeOk.irqEn = s.irqEn := rfl
@[simp] theorem State.completeOk_irqStatus (s : State) : s.completeOk.irqStatus = s.irqStatus ||| irqCmdDone := rfl
@[simp] theorem State.completeOk_cfg (s : State) : s.completeOk.cfg = s.cfg := rfl
@[simp] theorem State.completeOk_rx (s : State) : s.completeOk.rx = s.rx := rfl
@[simp] theorem State.completeOk_msgLen (s : State) : s.completeOk.msgLen = s.msgLen := rfl
@[simp] theorem State.completeOk_errInfo (s : State) : s.completeOk.errInfo = s.errInfo := rfl
@[simp] theorem State.completeOk_mem (s : State) : s.completeOk.mem = s.mem := rfl
@[simp] theorem State.completeOk_cmd (s : State) : s.completeOk.cmd = none := rfl
@[simp] theorem State.completeOk_pipeI (s : State) : s.completeOk.pipeI = s.pipeI := rfl
@[simp] theorem State.completeOk_sinkPending (s : State) : s.completeOk.sinkPending = s.sinkPending := rfl
@[simp] theorem State.completeOk_rdbuf (s : State) : s.completeOk.rdbuf = s.rdbuf := rfl
@[simp] theorem State.completeOk_frame (s : State) : s.completeOk.frame = s.frame := rfl
@[simp] theorem State.completeOk_pullPending (s : State) : s.completeOk.pullPending = s.pullPending := rfl
@[simp] theorem State.completeOk_rxItem (s : State) : s.completeOk.rxItem = s.rxItem := rfl
@[simp] theorem State.completeOk_portLog (s : State) : s.completeOk.portLog = s.portLog := rfl
@[simp] theorem State.completeOk_sinkAnswer (s : State) : s.completeOk.sinkAnswer = s.sinkAnswer := rfl
@[simp] theorem State.completeOk_program (s : State) : s.completeOk.program = s.program := rfl
@[simp] theorem State.completeOk_hostReads (s : State) : s.completeOk.hostReads = s.hostReads := rfl
@[simp] theorem State.completeOk_sourcePlan (s : State) : s.completeOk.sourcePlan = s.sourcePlan := rfl
@[simp] theorem State.completeOk_sinkPlan (s : State) : s.completeOk.sinkPlan = s.sinkPlan := rfl
@[simp] theorem State.completeOk_sched (s : State) : s.completeOk.sched = s.sched := rfl
@[simp] theorem State.completeOk_tick (s : State) : s.completeOk.tick = s.tick := rfl
@[simp] theorem State.completeOk_pastLog (s : State) : s.completeOk.pastLog = s.pastLog := rfl
@[simp] theorem State.completeOk_params (s : State) : s.completeOk.params = s.params := rfl

/-! `State.completeErr` -/

@[simp] theorem State.completeErr_status (e : Raised) (s : State) : (s.completeErr e).status = 
      { s.status with
        busy := false, done := true, err := true, errCode := e.code.code, errIdx := BitVec.ofNat 4 e.idx } := rfl
@[simp] theorem State.completeErr_inLen (e : Raised) (s : State) : (s.completeErr e).inLen = s.inLen := rfl
@[simp] theorem State.completeErr_outLen (e : Raised) (s : State) : (s.completeErr e).outLen = s.outLen := rfl
@[simp] theorem State.completeErr_result (e : Raised) (s : State) : (s.completeErr e).result = s.result := rfl
@[simp] theorem State.completeErr_arg (e : Raised) (s : State) : (s.completeErr e).arg = s.arg := rfl
@[simp] theorem State.completeErr_hf (e : Raised) (s : State) : (s.completeErr e).hf = s.hf := rfl
@[simp] theorem State.completeErr_irqEn (e : Raised) (s : State) : (s.completeErr e).irqEn = s.irqEn := rfl
@[simp] theorem State.completeErr_irqStatus (e : Raised) (s : State) : (s.completeErr e).irqStatus =
    s.irqStatus ||| irqCmdDone := rfl
@[simp] theorem State.completeErr_cfg (e : Raised) (s : State) : (s.completeErr e).cfg = s.cfg := rfl
@[simp] theorem State.completeErr_rx (e : Raised) (s : State) : (s.completeErr e).rx = s.rx := rfl
@[simp] theorem State.completeErr_msgLen (e : Raised) (s : State) : (s.completeErr e).msgLen = s.msgLen := rfl
@[simp] theorem State.completeErr_errInfo (e : Raised) (s : State) : (s.completeErr e).errInfo = s.errInfo := rfl
@[simp] theorem State.completeErr_mem (e : Raised) (s : State) : (s.completeErr e).mem = s.mem := rfl
@[simp] theorem State.completeErr_cmd (e : Raised) (s : State) : (s.completeErr e).cmd = none := rfl
@[simp] theorem State.completeErr_pipeI (e : Raised) (s : State) : (s.completeErr e).pipeI = s.pipeI := rfl
@[simp] theorem State.completeErr_sinkPending (e : Raised) (s : State) : (s.completeErr e).sinkPending =
    s.sinkPending := rfl
@[simp] theorem State.completeErr_rdbuf (e : Raised) (s : State) : (s.completeErr e).rdbuf = s.rdbuf := rfl
@[simp] theorem State.completeErr_frame (e : Raised) (s : State) : (s.completeErr e).frame = s.frame := rfl
@[simp] theorem State.completeErr_pullPending (e : Raised) (s : State) : (s.completeErr e).pullPending =
    s.pullPending := rfl
@[simp] theorem State.completeErr_rxItem (e : Raised) (s : State) : (s.completeErr e).rxItem = s.rxItem := rfl
@[simp] theorem State.completeErr_portLog (e : Raised) (s : State) : (s.completeErr e).portLog = s.portLog := rfl
@[simp] theorem State.completeErr_sinkAnswer (e : Raised) (s : State) : (s.completeErr e).sinkAnswer =
    s.sinkAnswer := rfl
@[simp] theorem State.completeErr_program (e : Raised) (s : State) : (s.completeErr e).program = s.program := rfl
@[simp] theorem State.completeErr_hostReads (e : Raised) (s : State) : (s.completeErr e).hostReads =
    s.hostReads := rfl
@[simp] theorem State.completeErr_sourcePlan (e : Raised) (s : State) : (s.completeErr e).sourcePlan =
    s.sourcePlan := rfl
@[simp] theorem State.completeErr_sinkPlan (e : Raised) (s : State) : (s.completeErr e).sinkPlan = s.sinkPlan := rfl
@[simp] theorem State.completeErr_sched (e : Raised) (s : State) : (s.completeErr e).sched = s.sched := rfl
@[simp] theorem State.completeErr_tick (e : Raised) (s : State) : (s.completeErr e).tick = s.tick := rfl
@[simp] theorem State.completeErr_pastLog (e : Raised) (s : State) : (s.completeErr e).pastLog = s.pastLog := rfl
@[simp] theorem State.completeErr_params (e : Raised) (s : State) : (s.completeErr e).params = s.params := rfl

/-! `State.rxEnd` -/

@[simp] theorem State.rxEnd_status (st : RxState) (s : State) : (s.rxEnd st).status = s.status := rfl
@[simp] theorem State.rxEnd_inLen (st : RxState) (s : State) : (s.rxEnd st).inLen = s.inLen := rfl
@[simp] theorem State.rxEnd_outLen (st : RxState) (s : State) : (s.rxEnd st).outLen = s.outLen := rfl
@[simp] theorem State.rxEnd_result (st : RxState) (s : State) : (s.rxEnd st).result = s.result := rfl
@[simp] theorem State.rxEnd_arg (st : RxState) (s : State) : (s.rxEnd st).arg = s.arg := rfl
@[simp] theorem State.rxEnd_hf (st : RxState) (s : State) : (s.rxEnd st).hf = s.hf := rfl
@[simp] theorem State.rxEnd_irqEn (st : RxState) (s : State) : (s.rxEnd st).irqEn = s.irqEn := rfl
@[simp] theorem State.rxEnd_irqStatus (st : RxState) (s : State) : (s.rxEnd st).irqStatus =
    s.irqStatus ||| irqRxEnd := rfl
@[simp] theorem State.rxEnd_cfg (st : RxState) (s : State) : (s.rxEnd st).cfg = s.cfg := rfl
@[simp] theorem State.rxEnd_rx (st : RxState) (s : State) : (s.rxEnd st).rx = { s.rx with state := st } := rfl
@[simp] theorem State.rxEnd_msgLen (st : RxState) (s : State) : (s.rxEnd st).msgLen = s.msgLen := rfl
@[simp] theorem State.rxEnd_errInfo (st : RxState) (s : State) : (s.rxEnd st).errInfo = s.errInfo := rfl
@[simp] theorem State.rxEnd_mem (st : RxState) (s : State) : (s.rxEnd st).mem = s.mem := rfl
@[simp] theorem State.rxEnd_cmd (st : RxState) (s : State) : (s.rxEnd st).cmd = s.cmd := rfl
@[simp] theorem State.rxEnd_pipeI (st : RxState) (s : State) : (s.rxEnd st).pipeI = s.pipeI := rfl
@[simp] theorem State.rxEnd_sinkPending (st : RxState) (s : State) : (s.rxEnd st).sinkPending = s.sinkPending := rfl
@[simp] theorem State.rxEnd_rdbuf (st : RxState) (s : State) : (s.rxEnd st).rdbuf = s.rdbuf := rfl
@[simp] theorem State.rxEnd_frame (st : RxState) (s : State) : (s.rxEnd st).frame = s.frame := rfl
@[simp] theorem State.rxEnd_pullPending (st : RxState) (s : State) : (s.rxEnd st).pullPending = s.pullPending := rfl
@[simp] theorem State.rxEnd_rxItem (st : RxState) (s : State) : (s.rxEnd st).rxItem = s.rxItem := rfl
@[simp] theorem State.rxEnd_portLog (st : RxState) (s : State) : (s.rxEnd st).portLog = s.portLog := rfl
@[simp] theorem State.rxEnd_sinkAnswer (st : RxState) (s : State) : (s.rxEnd st).sinkAnswer = s.sinkAnswer := rfl
@[simp] theorem State.rxEnd_program (st : RxState) (s : State) : (s.rxEnd st).program = s.program := rfl
@[simp] theorem State.rxEnd_hostReads (st : RxState) (s : State) : (s.rxEnd st).hostReads = s.hostReads := rfl
@[simp] theorem State.rxEnd_sourcePlan (st : RxState) (s : State) : (s.rxEnd st).sourcePlan = s.sourcePlan := rfl
@[simp] theorem State.rxEnd_sinkPlan (st : RxState) (s : State) : (s.rxEnd st).sinkPlan = s.sinkPlan := rfl
@[simp] theorem State.rxEnd_sched (st : RxState) (s : State) : (s.rxEnd st).sched = s.sched := rfl
@[simp] theorem State.rxEnd_tick (st : RxState) (s : State) : (s.rxEnd st).tick = s.tick := rfl
@[simp] theorem State.rxEnd_pastLog (st : RxState) (s : State) : (s.rxEnd st).pastLog = s.pastLog := rfl
@[simp] theorem State.rxEnd_params (st : RxState) (s : State) : (s.rxEnd st).params = s.params := rfl

/-! `State.setRxState` -/

@[simp] theorem State.setRxState_status (st : RxState) (s : State) : (s.setRxState st).status = s.status := rfl
@[simp] theorem State.setRxState_inLen (st : RxState) (s : State) : (s.setRxState st).inLen = s.inLen := rfl
@[simp] theorem State.setRxState_outLen (st : RxState) (s : State) : (s.setRxState st).outLen = s.outLen := rfl
@[simp] theorem State.setRxState_result (st : RxState) (s : State) : (s.setRxState st).result = s.result := rfl
@[simp] theorem State.setRxState_arg (st : RxState) (s : State) : (s.setRxState st).arg = s.arg := rfl
@[simp] theorem State.setRxState_hf (st : RxState) (s : State) : (s.setRxState st).hf = s.hf := rfl
@[simp] theorem State.setRxState_irqEn (st : RxState) (s : State) : (s.setRxState st).irqEn = s.irqEn := rfl
@[simp] theorem State.setRxState_irqStatus (st : RxState) (s : State) : (s.setRxState st).irqStatus =
    s.irqStatus := rfl
@[simp] theorem State.setRxState_cfg (st : RxState) (s : State) : (s.setRxState st).cfg = s.cfg := rfl
@[simp] theorem State.setRxState_rx (st : RxState) (s : State) : (s.setRxState st).rx =
    { s.rx with state := st } := rfl
@[simp] theorem State.setRxState_msgLen (st : RxState) (s : State) : (s.setRxState st).msgLen = s.msgLen := rfl
@[simp] theorem State.setRxState_errInfo (st : RxState) (s : State) : (s.setRxState st).errInfo = s.errInfo := rfl
@[simp] theorem State.setRxState_mem (st : RxState) (s : State) : (s.setRxState st).mem = s.mem := rfl
@[simp] theorem State.setRxState_cmd (st : RxState) (s : State) : (s.setRxState st).cmd = s.cmd := rfl
@[simp] theorem State.setRxState_pipeI (st : RxState) (s : State) : (s.setRxState st).pipeI = s.pipeI := rfl
@[simp] theorem State.setRxState_sinkPending (st : RxState) (s : State) : (s.setRxState st).sinkPending =
    s.sinkPending := rfl
@[simp] theorem State.setRxState_rdbuf (st : RxState) (s : State) : (s.setRxState st).rdbuf = s.rdbuf := rfl
@[simp] theorem State.setRxState_frame (st : RxState) (s : State) : (s.setRxState st).frame = s.frame := rfl
@[simp] theorem State.setRxState_pullPending (st : RxState) (s : State) : (s.setRxState st).pullPending =
    s.pullPending := rfl
@[simp] theorem State.setRxState_rxItem (st : RxState) (s : State) : (s.setRxState st).rxItem = s.rxItem := rfl
@[simp] theorem State.setRxState_portLog (st : RxState) (s : State) : (s.setRxState st).portLog = s.portLog := rfl
@[simp] theorem State.setRxState_sinkAnswer (st : RxState) (s : State) : (s.setRxState st).sinkAnswer =
    s.sinkAnswer := rfl
@[simp] theorem State.setRxState_program (st : RxState) (s : State) : (s.setRxState st).program = s.program := rfl
@[simp] theorem State.setRxState_hostReads (st : RxState) (s : State) : (s.setRxState st).hostReads =
    s.hostReads := rfl
@[simp] theorem State.setRxState_sourcePlan (st : RxState) (s : State) : (s.setRxState st).sourcePlan =
    s.sourcePlan := rfl
@[simp] theorem State.setRxState_sinkPlan (st : RxState) (s : State) : (s.setRxState st).sinkPlan = s.sinkPlan := rfl
@[simp] theorem State.setRxState_sched (st : RxState) (s : State) : (s.setRxState st).sched = s.sched := rfl
@[simp] theorem State.setRxState_tick (st : RxState) (s : State) : (s.setRxState st).tick = s.tick := rfl
@[simp] theorem State.setRxState_pastLog (st : RxState) (s : State) : (s.setRxState st).pastLog = s.pastLog := rfl
@[simp] theorem State.setRxState_params (st : RxState) (s : State) : (s.setRxState st).params = s.params := rfl

/-! `State.rejectCtrl` -/

@[simp] theorem State.rejectCtrl_status (s : State) : s.rejectCtrl.status = s.status := rfl
@[simp] theorem State.rejectCtrl_inLen (s : State) : s.rejectCtrl.inLen = s.inLen := rfl
@[simp] theorem State.rejectCtrl_outLen (s : State) : s.rejectCtrl.outLen = s.outLen := rfl
@[simp] theorem State.rejectCtrl_result (s : State) : s.rejectCtrl.result = s.result := rfl
@[simp] theorem State.rejectCtrl_arg (s : State) : s.rejectCtrl.arg = s.arg := rfl
@[simp] theorem State.rejectCtrl_hf (s : State) : s.rejectCtrl.hf = s.hf := rfl
@[simp] theorem State.rejectCtrl_irqEn (s : State) : s.rejectCtrl.irqEn = s.irqEn := rfl
@[simp] theorem State.rejectCtrl_irqStatus (s : State) : s.rejectCtrl.irqStatus = s.irqStatus := rfl
@[simp] theorem State.rejectCtrl_cfg (s : State) : s.rejectCtrl.cfg = s.cfg := rfl
@[simp] theorem State.rejectCtrl_rx (s : State) : s.rejectCtrl.rx = { s.rx with ctrlRejected := true } := rfl
@[simp] theorem State.rejectCtrl_msgLen (s : State) : s.rejectCtrl.msgLen = s.msgLen := rfl
@[simp] theorem State.rejectCtrl_errInfo (s : State) : s.rejectCtrl.errInfo = s.errInfo := rfl
@[simp] theorem State.rejectCtrl_mem (s : State) : s.rejectCtrl.mem = s.mem := rfl
@[simp] theorem State.rejectCtrl_cmd (s : State) : s.rejectCtrl.cmd = s.cmd := rfl
@[simp] theorem State.rejectCtrl_pipeI (s : State) : s.rejectCtrl.pipeI = s.pipeI := rfl
@[simp] theorem State.rejectCtrl_sinkPending (s : State) : s.rejectCtrl.sinkPending = s.sinkPending := rfl
@[simp] theorem State.rejectCtrl_rdbuf (s : State) : s.rejectCtrl.rdbuf = s.rdbuf := rfl
@[simp] theorem State.rejectCtrl_frame (s : State) : s.rejectCtrl.frame = s.frame := rfl
@[simp] theorem State.rejectCtrl_pullPending (s : State) : s.rejectCtrl.pullPending = s.pullPending := rfl
@[simp] theorem State.rejectCtrl_rxItem (s : State) : s.rejectCtrl.rxItem = s.rxItem := rfl
@[simp] theorem State.rejectCtrl_portLog (s : State) : s.rejectCtrl.portLog = s.portLog := rfl
@[simp] theorem State.rejectCtrl_sinkAnswer (s : State) : s.rejectCtrl.sinkAnswer = s.sinkAnswer := rfl
@[simp] theorem State.rejectCtrl_program (s : State) : s.rejectCtrl.program = s.program := rfl
@[simp] theorem State.rejectCtrl_hostReads (s : State) : s.rejectCtrl.hostReads = s.hostReads := rfl
@[simp] theorem State.rejectCtrl_sourcePlan (s : State) : s.rejectCtrl.sourcePlan = s.sourcePlan := rfl
@[simp] theorem State.rejectCtrl_sinkPlan (s : State) : s.rejectCtrl.sinkPlan = s.sinkPlan := rfl
@[simp] theorem State.rejectCtrl_sched (s : State) : s.rejectCtrl.sched = s.sched := rfl
@[simp] theorem State.rejectCtrl_tick (s : State) : s.rejectCtrl.tick = s.tick := rfl
@[simp] theorem State.rejectCtrl_pastLog (s : State) : s.rejectCtrl.pastLog = s.pastLog := rfl
@[simp] theorem State.rejectCtrl_params (s : State) : s.rejectCtrl.params = s.params := rfl

/-! `State.issuePull` -/

@[simp] theorem State.issuePull_status (stage : PullStage) (k : Nat) (s : State) : (s.issuePull stage k).status =
    s.status := rfl
@[simp] theorem State.issuePull_inLen (stage : PullStage) (k : Nat) (s : State) : (s.issuePull stage k).inLen =
    s.inLen := rfl
@[simp] theorem State.issuePull_outLen (stage : PullStage) (k : Nat) (s : State) : (s.issuePull stage k).outLen =
    s.outLen := rfl
@[simp] theorem State.issuePull_result (stage : PullStage) (k : Nat) (s : State) : (s.issuePull stage k).result =
    s.result := rfl
@[simp] theorem State.issuePull_arg (stage : PullStage) (k : Nat) (s : State) : (s.issuePull stage k).arg =
    s.arg := rfl
@[simp] theorem State.issuePull_hf (stage : PullStage) (k : Nat) (s : State) : (s.issuePull stage k).hf = s.hf := rfl
@[simp] theorem State.issuePull_irqEn (stage : PullStage) (k : Nat) (s : State) : (s.issuePull stage k).irqEn =
    s.irqEn := rfl
@[simp] theorem State.issuePull_irqStatus (stage : PullStage) (k : Nat) (s : State) : (s.issuePull stage k).irqStatus =
    s.irqStatus := rfl
@[simp] theorem State.issuePull_cfg (stage : PullStage) (k : Nat) (s : State) : (s.issuePull stage k).cfg =
    s.cfg := rfl
@[simp] theorem State.issuePull_rx (stage : PullStage) (k : Nat) (s : State) : (s.issuePull stage k).rx = s.rx := rfl
@[simp] theorem State.issuePull_msgLen (stage : PullStage) (k : Nat) (s : State) : (s.issuePull stage k).msgLen =
    s.msgLen := rfl
@[simp] theorem State.issuePull_errInfo (stage : PullStage) (k : Nat) (s : State) : (s.issuePull stage k).errInfo =
    s.errInfo := rfl
@[simp] theorem State.issuePull_mem (stage : PullStage) (k : Nat) (s : State) : (s.issuePull stage k).mem =
    s.mem := rfl
@[simp] theorem State.issuePull_cmd (stage : PullStage) (k : Nat) (s : State) : (s.issuePull stage k).cmd =
    s.cmd := rfl
@[simp] theorem State.issuePull_pipeI (stage : PullStage) (k : Nat) (s : State) : (s.issuePull stage k).pipeI =
    s.pipeI := rfl
@[simp] theorem State.issuePull_sinkPending (stage : PullStage) (k : Nat) (s : State) : (s.issuePull stage k).sinkPending =
    s.sinkPending := rfl
@[simp] theorem State.issuePull_rdbuf (stage : PullStage) (k : Nat) (s : State) : (s.issuePull stage k).rdbuf =
    s.rdbuf := rfl
@[simp] theorem State.issuePull_frame (stage : PullStage) (k : Nat) (s : State) : (s.issuePull stage k).frame =
    s.frame := rfl
@[simp] theorem State.issuePull_pullPending (stage : PullStage) (k : Nat) (s : State) : (s.issuePull stage k).pullPending =
    some (stage, k) := rfl
@[simp] theorem State.issuePull_rxItem (stage : PullStage) (k : Nat) (s : State) : (s.issuePull stage k).rxItem =
    s.rxItem := rfl
@[simp] theorem State.issuePull_portLog (stage : PullStage) (k : Nat) (s : State) : (s.issuePull stage k).portLog =
    s.portLog ++ [.pull stage k] := rfl
@[simp] theorem State.issuePull_sinkAnswer (stage : PullStage) (k : Nat) (s : State) : (s.issuePull stage k).sinkAnswer =
    s.sinkAnswer := rfl
@[simp] theorem State.issuePull_program (stage : PullStage) (k : Nat) (s : State) : (s.issuePull stage k).program =
    s.program := rfl
@[simp] theorem State.issuePull_hostReads (stage : PullStage) (k : Nat) (s : State) : (s.issuePull stage k).hostReads =
    s.hostReads := rfl
@[simp] theorem State.issuePull_sourcePlan (stage : PullStage) (k : Nat) (s : State) : (s.issuePull stage k).sourcePlan =
    s.sourcePlan := rfl
@[simp] theorem State.issuePull_sinkPlan (stage : PullStage) (k : Nat) (s : State) : (s.issuePull stage k).sinkPlan =
    s.sinkPlan := rfl
@[simp] theorem State.issuePull_sched (stage : PullStage) (k : Nat) (s : State) : (s.issuePull stage k).sched =
    s.sched := rfl
@[simp] theorem State.issuePull_tick (stage : PullStage) (k : Nat) (s : State) : (s.issuePull stage k).tick =
    s.tick := rfl
@[simp] theorem State.issuePull_pastLog (stage : PullStage) (k : Nat) (s : State) : (s.issuePull stage k).pastLog =
    s.pastLog := rfl
@[simp] theorem State.issuePull_params (stage : PullStage) (k : Nat) (s : State) : (s.issuePull stage k).params =
    s.params := rfl

/-! `State.issuePush` -/

@[simp] theorem State.issuePush_status (f : Bytes) (s : State) : (s.issuePush f).status = s.status := rfl
@[simp] theorem State.issuePush_inLen (f : Bytes) (s : State) : (s.issuePush f).inLen = s.inLen := rfl
@[simp] theorem State.issuePush_outLen (f : Bytes) (s : State) : (s.issuePush f).outLen = s.outLen := rfl
@[simp] theorem State.issuePush_result (f : Bytes) (s : State) : (s.issuePush f).result = s.result := rfl
@[simp] theorem State.issuePush_arg (f : Bytes) (s : State) : (s.issuePush f).arg = s.arg := rfl
@[simp] theorem State.issuePush_hf (f : Bytes) (s : State) : (s.issuePush f).hf = s.hf := rfl
@[simp] theorem State.issuePush_irqEn (f : Bytes) (s : State) : (s.issuePush f).irqEn = s.irqEn := rfl
@[simp] theorem State.issuePush_irqStatus (f : Bytes) (s : State) : (s.issuePush f).irqStatus = s.irqStatus := rfl
@[simp] theorem State.issuePush_cfg (f : Bytes) (s : State) : (s.issuePush f).cfg = s.cfg := rfl
@[simp] theorem State.issuePush_rx (f : Bytes) (s : State) : (s.issuePush f).rx = s.rx := rfl
@[simp] theorem State.issuePush_msgLen (f : Bytes) (s : State) : (s.issuePush f).msgLen = s.msgLen := rfl
@[simp] theorem State.issuePush_errInfo (f : Bytes) (s : State) : (s.issuePush f).errInfo = s.errInfo := rfl
@[simp] theorem State.issuePush_mem (f : Bytes) (s : State) : (s.issuePush f).mem = s.mem := rfl
@[simp] theorem State.issuePush_cmd (f : Bytes) (s : State) : (s.issuePush f).cmd = s.cmd := rfl
@[simp] theorem State.issuePush_pipeI (f : Bytes) (s : State) : (s.issuePush f).pipeI = s.cfg.nAdp.toNat := rfl
@[simp] theorem State.issuePush_sinkPending (f : Bytes) (s : State) : (s.issuePush f).sinkPending = some f := rfl
@[simp] theorem State.issuePush_rdbuf (f : Bytes) (s : State) : (s.issuePush f).rdbuf = s.rdbuf := rfl
@[simp] theorem State.issuePush_frame (f : Bytes) (s : State) : (s.issuePush f).frame = s.frame := rfl
@[simp] theorem State.issuePush_pullPending (f : Bytes) (s : State) : (s.issuePush f).pullPending =
    s.pullPending := rfl
@[simp] theorem State.issuePush_rxItem (f : Bytes) (s : State) : (s.issuePush f).rxItem = s.rxItem := rfl
@[simp] theorem State.issuePush_portLog (f : Bytes) (s : State) : (s.issuePush f).portLog =
    s.portLog ++ [.push f] := rfl
@[simp] theorem State.issuePush_sinkAnswer (f : Bytes) (s : State) : (s.issuePush f).sinkAnswer = s.sinkAnswer := rfl
@[simp] theorem State.issuePush_program (f : Bytes) (s : State) : (s.issuePush f).program = s.program := rfl
@[simp] theorem State.issuePush_hostReads (f : Bytes) (s : State) : (s.issuePush f).hostReads = s.hostReads := rfl
@[simp] theorem State.issuePush_sourcePlan (f : Bytes) (s : State) : (s.issuePush f).sourcePlan = s.sourcePlan := rfl
@[simp] theorem State.issuePush_sinkPlan (f : Bytes) (s : State) : (s.issuePush f).sinkPlan = s.sinkPlan := rfl
@[simp] theorem State.issuePush_sched (f : Bytes) (s : State) : (s.issuePush f).sched = s.sched := rfl
@[simp] theorem State.issuePush_tick (f : Bytes) (s : State) : (s.issuePush f).tick = s.tick := rfl
@[simp] theorem State.issuePush_pastLog (f : Bytes) (s : State) : (s.issuePush f).pastLog = s.pastLog := rfl
@[simp] theorem State.issuePush_params (f : Bytes) (s : State) : (s.issuePush f).params = s.params := rfl

/-! `State.endSend` -/

@[simp] theorem State.endSend_status (s : State) : s.endSend.status = s.status := rfl
@[simp] theorem State.endSend_inLen (s : State) : s.endSend.inLen = s.inLen := rfl
@[simp] theorem State.endSend_outLen (s : State) : s.endSend.outLen = s.outLen := rfl
@[simp] theorem State.endSend_result (s : State) : s.endSend.result = s.result := rfl
@[simp] theorem State.endSend_arg (s : State) : s.endSend.arg = s.arg := rfl
@[simp] theorem State.endSend_hf (s : State) : s.endSend.hf = s.hf := rfl
@[simp] theorem State.endSend_irqEn (s : State) : s.endSend.irqEn = s.irqEn := rfl
@[simp] theorem State.endSend_irqStatus (s : State) : s.endSend.irqStatus = s.irqStatus := rfl
@[simp] theorem State.endSend_cfg (s : State) : s.endSend.cfg = s.cfg := rfl
@[simp] theorem State.endSend_rx (s : State) : s.endSend.rx = s.rx := rfl
@[simp] theorem State.endSend_msgLen (s : State) : s.endSend.msgLen = s.msgLen := rfl
@[simp] theorem State.endSend_errInfo (s : State) : s.endSend.errInfo = s.errInfo := rfl
@[simp] theorem State.endSend_mem (s : State) : s.endSend.mem = s.mem := rfl
@[simp] theorem State.endSend_cmd (s : State) : s.endSend.cmd = s.cmd := rfl
@[simp] theorem State.endSend_pipeI (s : State) : s.endSend.pipeI = 0 := rfl
@[simp] theorem State.endSend_sinkPending (s : State) : s.endSend.sinkPending = s.sinkPending := rfl
@[simp] theorem State.endSend_rdbuf (s : State) : s.endSend.rdbuf = s.rdbuf := rfl
@[simp] theorem State.endSend_frame (s : State) : s.endSend.frame = s.frame := rfl
@[simp] theorem State.endSend_pullPending (s : State) : s.endSend.pullPending = s.pullPending := rfl
@[simp] theorem State.endSend_rxItem (s : State) : s.endSend.rxItem = s.rxItem := rfl
@[simp] theorem State.endSend_portLog (s : State) : s.endSend.portLog = s.portLog := rfl
@[simp] theorem State.endSend_sinkAnswer (s : State) : s.endSend.sinkAnswer = none := rfl
@[simp] theorem State.endSend_program (s : State) : s.endSend.program = s.program := rfl
@[simp] theorem State.endSend_hostReads (s : State) : s.endSend.hostReads = s.hostReads := rfl
@[simp] theorem State.endSend_sourcePlan (s : State) : s.endSend.sourcePlan = s.sourcePlan := rfl
@[simp] theorem State.endSend_sinkPlan (s : State) : s.endSend.sinkPlan = s.sinkPlan := rfl
@[simp] theorem State.endSend_sched (s : State) : s.endSend.sched = s.sched := rfl
@[simp] theorem State.endSend_tick (s : State) : s.endSend.tick = s.tick := rfl
@[simp] theorem State.endSend_pastLog (s : State) : s.endSend.pastLog = s.pastLog := rfl
@[simp] theorem State.endSend_params (s : State) : s.endSend.params = s.params := rfl

/-! `State.resetReceiver` -/

@[simp] theorem State.resetReceiver_status (s : State) : s.resetReceiver.status = s.status := rfl
@[simp] theorem State.resetReceiver_inLen (s : State) : s.resetReceiver.inLen = s.inLen := rfl
@[simp] theorem State.resetReceiver_outLen (s : State) : s.resetReceiver.outLen = s.outLen := rfl
@[simp] theorem State.resetReceiver_result (s : State) : s.resetReceiver.result = s.result := rfl
@[simp] theorem State.resetReceiver_arg (s : State) : s.resetReceiver.arg = s.arg := rfl
@[simp] theorem State.resetReceiver_hf (s : State) : s.resetReceiver.hf = s.hf := rfl
@[simp] theorem State.resetReceiver_irqEn (s : State) : s.resetReceiver.irqEn = s.irqEn := rfl
@[simp] theorem State.resetReceiver_irqStatus (s : State) : s.resetReceiver.irqStatus = s.irqStatus := rfl
@[simp] theorem State.resetReceiver_cfg (s : State) : s.resetReceiver.cfg = s.cfg := rfl
@[simp] theorem State.resetReceiver_rx (s : State) : s.resetReceiver.rx = RxStatus.reset := rfl
@[simp] theorem State.resetReceiver_msgLen (s : State) : s.resetReceiver.msgLen = s.msgLen := rfl
@[simp] theorem State.resetReceiver_errInfo (s : State) : s.resetReceiver.errInfo = s.errInfo := rfl
@[simp] theorem State.resetReceiver_mem (s : State) : s.resetReceiver.mem = s.mem := rfl
@[simp] theorem State.resetReceiver_cmd (s : State) : s.resetReceiver.cmd = s.cmd := rfl
@[simp] theorem State.resetReceiver_pipeI (s : State) : s.resetReceiver.pipeI = s.pipeI := rfl
@[simp] theorem State.resetReceiver_sinkPending (s : State) : s.resetReceiver.sinkPending = s.sinkPending := rfl
@[simp] theorem State.resetReceiver_rdbuf (s : State) : s.resetReceiver.rdbuf = [] := rfl
@[simp] theorem State.resetReceiver_frame (s : State) : s.resetReceiver.frame = [] := rfl
@[simp] theorem State.resetReceiver_pullPending (s : State) : s.resetReceiver.pullPending = s.pullPending := rfl
@[simp] theorem State.resetReceiver_rxItem (s : State) : s.resetReceiver.rxItem = none := rfl
@[simp] theorem State.resetReceiver_portLog (s : State) : s.resetReceiver.portLog = s.portLog := rfl
@[simp] theorem State.resetReceiver_sinkAnswer (s : State) : s.resetReceiver.sinkAnswer = s.sinkAnswer := rfl
@[simp] theorem State.resetReceiver_program (s : State) : s.resetReceiver.program = s.program := rfl
@[simp] theorem State.resetReceiver_hostReads (s : State) : s.resetReceiver.hostReads = s.hostReads := rfl
@[simp] theorem State.resetReceiver_sourcePlan (s : State) : s.resetReceiver.sourcePlan = s.sourcePlan := rfl
@[simp] theorem State.resetReceiver_sinkPlan (s : State) : s.resetReceiver.sinkPlan = s.sinkPlan := rfl
@[simp] theorem State.resetReceiver_sched (s : State) : s.resetReceiver.sched = s.sched := rfl
@[simp] theorem State.resetReceiver_tick (s : State) : s.resetReceiver.tick = s.tick := rfl
@[simp] theorem State.resetReceiver_pastLog (s : State) : s.resetReceiver.pastLog = s.pastLog := rfl
@[simp] theorem State.resetReceiver_params (s : State) : s.resetReceiver.params = s.params := rfl

/-! `State.clearItem` -/

@[simp] theorem State.clearItem_status (s : State) : s.clearItem.status = s.status := rfl
@[simp] theorem State.clearItem_inLen (s : State) : s.clearItem.inLen = s.inLen := rfl
@[simp] theorem State.clearItem_outLen (s : State) : s.clearItem.outLen = s.outLen := rfl
@[simp] theorem State.clearItem_result (s : State) : s.clearItem.result = s.result := rfl
@[simp] theorem State.clearItem_arg (s : State) : s.clearItem.arg = s.arg := rfl
@[simp] theorem State.clearItem_hf (s : State) : s.clearItem.hf = s.hf := rfl
@[simp] theorem State.clearItem_irqEn (s : State) : s.clearItem.irqEn = s.irqEn := rfl
@[simp] theorem State.clearItem_irqStatus (s : State) : s.clearItem.irqStatus = s.irqStatus := rfl
@[simp] theorem State.clearItem_cfg (s : State) : s.clearItem.cfg = s.cfg := rfl
@[simp] theorem State.clearItem_rx (s : State) : s.clearItem.rx = s.rx := rfl
@[simp] theorem State.clearItem_msgLen (s : State) : s.clearItem.msgLen = s.msgLen := rfl
@[simp] theorem State.clearItem_errInfo (s : State) : s.clearItem.errInfo = s.errInfo := rfl
@[simp] theorem State.clearItem_mem (s : State) : s.clearItem.mem = s.mem := rfl
@[simp] theorem State.clearItem_cmd (s : State) : s.clearItem.cmd = s.cmd := rfl
@[simp] theorem State.clearItem_pipeI (s : State) : s.clearItem.pipeI = s.pipeI := rfl
@[simp] theorem State.clearItem_sinkPending (s : State) : s.clearItem.sinkPending = s.sinkPending := rfl
@[simp] theorem State.clearItem_rdbuf (s : State) : s.clearItem.rdbuf = s.rdbuf := rfl
@[simp] theorem State.clearItem_frame (s : State) : s.clearItem.frame = s.frame := rfl
@[simp] theorem State.clearItem_pullPending (s : State) : s.clearItem.pullPending = s.pullPending := rfl
@[simp] theorem State.clearItem_rxItem (s : State) : s.clearItem.rxItem = none := rfl
@[simp] theorem State.clearItem_portLog (s : State) : s.clearItem.portLog = s.portLog := rfl
@[simp] theorem State.clearItem_sinkAnswer (s : State) : s.clearItem.sinkAnswer = s.sinkAnswer := rfl
@[simp] theorem State.clearItem_program (s : State) : s.clearItem.program = s.program := rfl
@[simp] theorem State.clearItem_hostReads (s : State) : s.clearItem.hostReads = s.hostReads := rfl
@[simp] theorem State.clearItem_sourcePlan (s : State) : s.clearItem.sourcePlan = s.sourcePlan := rfl
@[simp] theorem State.clearItem_sinkPlan (s : State) : s.clearItem.sinkPlan = s.sinkPlan := rfl
@[simp] theorem State.clearItem_sched (s : State) : s.clearItem.sched = s.sched := rfl
@[simp] theorem State.clearItem_tick (s : State) : s.clearItem.tick = s.tick := rfl
@[simp] theorem State.clearItem_pastLog (s : State) : s.clearItem.pastLog = s.pastLog := rfl
@[simp] theorem State.clearItem_params (s : State) : s.clearItem.params = s.params := rfl

/-! `hwReset`: what the agents outside the SFE keep -/

@[simp] theorem hwReset_program (s : State) : (hwReset s).program = s.program := rfl
@[simp] theorem hwReset_hostReads (s : State) : (hwReset s).hostReads = s.hostReads := rfl
@[simp] theorem hwReset_sourcePlan (s : State) : (hwReset s).sourcePlan = s.sourcePlan := rfl
@[simp] theorem hwReset_sinkPlan (s : State) : (hwReset s).sinkPlan = s.sinkPlan := rfl
@[simp] theorem hwReset_pastLog (s : State) : (hwReset s).pastLog = s.pastLog ++ s.portLog := rfl
@[simp] theorem hwReset_sched (s : State) : (hwReset s).sched = s.sched := rfl
@[simp] theorem hwReset_tick (s : State) : (hwReset s).tick = s.tick := rfl
@[simp] theorem hwReset_params (s : State) : (hwReset s).params = s.params := rfl

/-! `State.begin` -/

@[simp] theorem State.begin_status (s : State) : s.begin.status = s.status := rfl
@[simp] theorem State.begin_inLen (s : State) : s.begin.inLen = s.inLen := rfl
@[simp] theorem State.begin_outLen (s : State) : s.begin.outLen = s.outLen := rfl
@[simp] theorem State.begin_result (s : State) : s.begin.result = s.result := rfl
@[simp] theorem State.begin_arg (s : State) : s.begin.arg = s.arg := rfl
@[simp] theorem State.begin_hf (s : State) : s.begin.hf = s.hf := rfl
@[simp] theorem State.begin_irqEn (s : State) : s.begin.irqEn = s.irqEn := rfl
@[simp] theorem State.begin_irqStatus (s : State) : s.begin.irqStatus = s.irqStatus := rfl
@[simp] theorem State.begin_cfg (s : State) : s.begin.cfg = s.cfg := rfl
@[simp] theorem State.begin_rx (s : State) : s.begin.rx = s.rx := rfl
@[simp] theorem State.begin_msgLen (s : State) : s.begin.msgLen = s.msgLen := rfl
@[simp] theorem State.begin_errInfo (s : State) : s.begin.errInfo = s.errInfo := rfl
@[simp] theorem State.begin_mem (s : State) : s.begin.mem = s.mem := rfl
@[simp] theorem State.begin_cmd (s : State) : s.begin.cmd = s.cmd := rfl
@[simp] theorem State.begin_pipeI (s : State) : s.begin.pipeI = s.pipeI := rfl
@[simp] theorem State.begin_sinkPending (s : State) : s.begin.sinkPending = s.sinkPending := rfl
@[simp] theorem State.begin_rdbuf (s : State) : s.begin.rdbuf = s.rdbuf := rfl
@[simp] theorem State.begin_frame (s : State) : s.begin.frame = s.frame := rfl
@[simp] theorem State.begin_pullPending (s : State) : s.begin.pullPending = s.pullPending := rfl
@[simp] theorem State.begin_rxItem (s : State) : s.begin.rxItem = s.rxItem := rfl
@[simp] theorem State.begin_portLog (s : State) : s.begin.portLog = s.portLog := rfl
@[simp] theorem State.begin_sinkAnswer (s : State) : s.begin.sinkAnswer = s.sinkAnswer := rfl
@[simp] theorem State.begin_program (s : State) : s.begin.program = s.program := rfl
@[simp] theorem State.begin_hostReads (s : State) : s.begin.hostReads = s.hostReads := rfl
@[simp] theorem State.begin_sourcePlan (s : State) : s.begin.sourcePlan = s.sourcePlan := rfl
@[simp] theorem State.begin_sinkPlan (s : State) : s.begin.sinkPlan = s.sinkPlan := rfl
@[simp] theorem State.begin_sched (s : State) : s.begin.sched = s.sched.tail := rfl
@[simp] theorem State.begin_tick (s : State) : s.begin.tick = s.tick + 1 := rfl
@[simp] theorem State.begin_pastLog (s : State) : s.begin.pastLog = s.pastLog := rfl
@[simp] theorem State.begin_params (s : State) : s.begin.params = s.params := rfl

/-! `State.enterTop`, which changes RX_STATUS.STATE and, when it enters CANCELED, IRQ_STATUS.RX_END. -/

@[simp] theorem State.enterTop_status (s : State) : s.enterTop.status = s.status := by
  unfold State.enterTop; split <;> rfl
@[simp] theorem State.enterTop_inLen (s : State) : s.enterTop.inLen = s.inLen := by
  unfold State.enterTop; split <;> rfl
@[simp] theorem State.enterTop_outLen (s : State) : s.enterTop.outLen = s.outLen := by
  unfold State.enterTop; split <;> rfl
@[simp] theorem State.enterTop_result (s : State) : s.enterTop.result = s.result := by
  unfold State.enterTop; split <;> rfl
@[simp] theorem State.enterTop_arg (s : State) : s.enterTop.arg = s.arg := by
  unfold State.enterTop; split <;> rfl
@[simp] theorem State.enterTop_hf (s : State) : s.enterTop.hf = s.hf := by
  unfold State.enterTop; split <;> rfl
@[simp] theorem State.enterTop_irqEn (s : State) : s.enterTop.irqEn = s.irqEn := by
  unfold State.enterTop; split <;> rfl
@[simp] theorem State.enterTop_cfg (s : State) : s.enterTop.cfg = s.cfg := by
  unfold State.enterTop; split <;> rfl
@[simp] theorem State.enterTop_msgLen (s : State) : s.enterTop.msgLen = s.msgLen := by
  unfold State.enterTop; split <;> rfl
@[simp] theorem State.enterTop_errInfo (s : State) : s.enterTop.errInfo = s.errInfo := by
  unfold State.enterTop; split <;> rfl
@[simp] theorem State.enterTop_mem (s : State) : s.enterTop.mem = s.mem := by
  unfold State.enterTop; split <;> rfl
@[simp] theorem State.enterTop_cmd (s : State) : s.enterTop.cmd = s.cmd := by
  unfold State.enterTop; split <;> rfl
@[simp] theorem State.enterTop_pipeI (s : State) : s.enterTop.pipeI = s.pipeI := by
  unfold State.enterTop; split <;> rfl
@[simp] theorem State.enterTop_sinkPending (s : State) : s.enterTop.sinkPending = s.sinkPending := by
  unfold State.enterTop; split <;> rfl
@[simp] theorem State.enterTop_rdbuf (s : State) : s.enterTop.rdbuf = s.rdbuf := by
  unfold State.enterTop; split <;> rfl
@[simp] theorem State.enterTop_frame (s : State) : s.enterTop.frame = s.frame := by
  unfold State.enterTop; split <;> rfl
@[simp] theorem State.enterTop_pullPending (s : State) : s.enterTop.pullPending = s.pullPending := by
  unfold State.enterTop; split <;> rfl
@[simp] theorem State.enterTop_rxItem (s : State) : s.enterTop.rxItem = s.rxItem := by
  unfold State.enterTop; split <;> rfl
@[simp] theorem State.enterTop_portLog (s : State) : s.enterTop.portLog = s.portLog := by
  unfold State.enterTop; split <;> rfl
@[simp] theorem State.enterTop_sinkAnswer (s : State) : s.enterTop.sinkAnswer = s.sinkAnswer := by
  unfold State.enterTop; split <;> rfl
@[simp] theorem State.enterTop_program (s : State) : s.enterTop.program = s.program := by
  unfold State.enterTop; split <;> rfl
@[simp] theorem State.enterTop_hostReads (s : State) : s.enterTop.hostReads = s.hostReads := by
  unfold State.enterTop; split <;> rfl
@[simp] theorem State.enterTop_sourcePlan (s : State) : s.enterTop.sourcePlan = s.sourcePlan := by
  unfold State.enterTop; split <;> rfl
@[simp] theorem State.enterTop_sinkPlan (s : State) : s.enterTop.sinkPlan = s.sinkPlan := by
  unfold State.enterTop; split <;> rfl
@[simp] theorem State.enterTop_sched (s : State) : s.enterTop.sched = s.sched := by
  unfold State.enterTop; split <;> rfl
@[simp] theorem State.enterTop_tick (s : State) : s.enterTop.tick = s.tick := by
  unfold State.enterTop; split <;> rfl
@[simp] theorem State.enterTop_pastLog (s : State) : s.enterTop.pastLog = s.pastLog := by
  unfold State.enterTop; split <;> rfl
@[simp] theorem State.enterTop_params (s : State) : s.enterTop.params = s.params := by
  unfold State.enterTop; split <;> rfl

theorem State.enterTop_rx (s : State) :
    s.enterTop.rx = { s.rx with state := if s.rx.cancelPending then .canceled else .seeking } := by
  unfold State.enterTop; split <;> simp_all

theorem State.enterTop_irqStatus (s : State) :
    s.enterTop.irqStatus = if s.rx.cancelPending then s.irqStatus ||| irqRxEnd else s.irqStatus := by
  unfold State.enterTop; split <;> simp_all

/-! `offerMsg` -/

@[simp] theorem offerMsg_status (x : Bytes) (s : State) : (offerMsg x s).status = s.status := rfl
@[simp] theorem offerMsg_inLen (x : Bytes) (s : State) : (offerMsg x s).inLen = s.inLen := rfl
@[simp] theorem offerMsg_outLen (x : Bytes) (s : State) : (offerMsg x s).outLen = s.outLen := rfl
@[simp] theorem offerMsg_result (x : Bytes) (s : State) : (offerMsg x s).result = s.result := rfl
@[simp] theorem offerMsg_arg (x : Bytes) (s : State) : (offerMsg x s).arg = s.arg := rfl
@[simp] theorem offerMsg_hf (x : Bytes) (s : State) : (offerMsg x s).hf = s.hf := rfl
@[simp] theorem offerMsg_irqEn (x : Bytes) (s : State) : (offerMsg x s).irqEn = s.irqEn := rfl
@[simp] theorem offerMsg_irqStatus (x : Bytes) (s : State) : (offerMsg x s).irqStatus = s.irqStatus ||| irqMsg := rfl
@[simp] theorem offerMsg_cfg (x : Bytes) (s : State) : (offerMsg x s).cfg = s.cfg := rfl
@[simp] theorem offerMsg_rx (x : Bytes) (s : State) : (offerMsg x s).rx =
    { s.rx with msgValid := true, state := .delivering } := rfl
@[simp] theorem offerMsg_msgLen (x : Bytes) (s : State) : (offerMsg x s).msgLen = BitVec.ofNat 16 x.length := rfl
@[simp] theorem offerMsg_errInfo (x : Bytes) (s : State) : (offerMsg x s).errInfo = s.errInfo := rfl
@[simp] theorem offerMsg_mem (x : Bytes) (s : State) : (offerMsg x s).mem =
    Memory.splice msgBase (x.take s.params.msgbufSize) s.mem := rfl
@[simp] theorem offerMsg_cmd (x : Bytes) (s : State) : (offerMsg x s).cmd = s.cmd := rfl
@[simp] theorem offerMsg_pipeI (x : Bytes) (s : State) : (offerMsg x s).pipeI = s.pipeI := rfl
@[simp] theorem offerMsg_sinkPending (x : Bytes) (s : State) : (offerMsg x s).sinkPending = s.sinkPending := rfl
@[simp] theorem offerMsg_rdbuf (x : Bytes) (s : State) : (offerMsg x s).rdbuf = s.rdbuf := rfl
@[simp] theorem offerMsg_frame (x : Bytes) (s : State) : (offerMsg x s).frame = s.frame := rfl
@[simp] theorem offerMsg_pullPending (x : Bytes) (s : State) : (offerMsg x s).pullPending = s.pullPending := rfl
@[simp] theorem offerMsg_rxItem (x : Bytes) (s : State) : (offerMsg x s).rxItem = s.rxItem := rfl
@[simp] theorem offerMsg_portLog (x : Bytes) (s : State) : (offerMsg x s).portLog = s.portLog := rfl
@[simp] theorem offerMsg_sinkAnswer (x : Bytes) (s : State) : (offerMsg x s).sinkAnswer = s.sinkAnswer := rfl
@[simp] theorem offerMsg_program (x : Bytes) (s : State) : (offerMsg x s).program = s.program := rfl
@[simp] theorem offerMsg_hostReads (x : Bytes) (s : State) : (offerMsg x s).hostReads = s.hostReads := rfl
@[simp] theorem offerMsg_sourcePlan (x : Bytes) (s : State) : (offerMsg x s).sourcePlan = s.sourcePlan := rfl
@[simp] theorem offerMsg_sinkPlan (x : Bytes) (s : State) : (offerMsg x s).sinkPlan = s.sinkPlan := rfl
@[simp] theorem offerMsg_sched (x : Bytes) (s : State) : (offerMsg x s).sched = s.sched := rfl
@[simp] theorem offerMsg_tick (x : Bytes) (s : State) : (offerMsg x s).tick = s.tick := rfl
@[simp] theorem offerMsg_pastLog (x : Bytes) (s : State) : (offerMsg x s).pastLog = s.pastLog := rfl
@[simp] theorem offerMsg_params (x : Bytes) (s : State) : (offerMsg x s).params = s.params := rfl

end Sys2Proof.Machine
end

