-- ==== Sys2Proof/Laws/Memory.lean ====
section
/-! SUPPORT. The window memory: a read after a write, and the canonical form under every memory operation. -/

namespace Sys2Proof.Machine

@[simp] theorem Memory.read_nil (a : Nat) : Memory.read [] a = none := rfl

theorem Memory.read_cons (k : Nat) (b : Byte) (m : Memory) (a : Nat) :
    Memory.read ((k, b) :: m) a = if k = a then some b else Memory.read m a := rfl

theorem Memory.read_append (m n : Memory) (a : Nat) :
    Memory.read (m ++ n) a = (Memory.read m a).or (Memory.read n a) := by
  induction m with
  | nil => rfl
  | cons c m ih =>
    obtain ⟨k, b⟩ := c
    rw [List.cons_append, read_cons, read_cons, ih]
    split <;> rfl

theorem Memory.read_filter (p : Nat → Bool) (m : Memory) (a : Nat) :
    Memory.read (m.filter fun c => p c.1) a = if p a then Memory.read m a else none := by
  induction m with
  | nil => simp
  | cons c m ih =>
    obtain ⟨k, b⟩ := c
    rw [List.filter_cons]
    by_cases hk : k = a
    · subst hk; cases hp : p k <;> simp_all [read_cons]
    · cases hp : p k <;> simp_all [read_cons]

theorem Memory.read_cells (base : Nat) (bs : Bytes) (a : Nat) :
    Memory.read (Memory.cells base bs) a = if base ≤ a then bs[a - base]? else none := by
  induction bs generalizing base with
  | nil => simp [Memory.cells]
  | cons b bs ih =>
    rw [Memory.cells, read_cons, ih]
    by_cases h : base = a
    · subst h; simp
    · by_cases hle : base ≤ a
      · obtain ⟨d, rfl⟩ : ∃ d, a = base + 1 + d := ⟨a - base - 1, by omega⟩
        simp [h, show base + 1 + d - base = d + 1 by omega, show base + 1 + d - (base + 1) = d by omega,
          show base ≤ base + 1 + d by omega]
      · simp [h, hle, show ¬ base + 1 ≤ a by omega]

/-- A read after a write: the written bytes in their range, every other byte as before. -/
theorem Memory.read_splice (base : Nat) (bs : Bytes) (m : Memory) (a : Nat) :
    (Memory.splice base bs m).read a
      = if base ≤ a ∧ a < base + bs.length then bs[a - base]? else m.read a := by
  rw [Memory.splice, read_append, read_append, read_cells,
    read_filter (fun k => decide (k < base)), read_filter (fun k => decide (base + bs.length ≤ k))]
  by_cases h1 : a < base
  · cases Memory.read m a <;> simp [h1, show ¬ base ≤ a by omega, show ¬ base + bs.length ≤ a by omega]
  · by_cases h2 : a < base + bs.length
    · have : a - base < bs.length := by omega
      simp [show base ≤ a by omega, h2, h1, show ¬ base + bs.length ≤ a by omega]
    · have : bs[a - base]? = none := by simp; omega
      simp [show base ≤ a by omega, h2, h1, show base + bs.length ≤ a by omega, this]

theorem Memory.read_splice_outside (base : Nat) (bs : Bytes) (m : Memory) (a : Nat)
    (h : a < base ∨ base + bs.length ≤ a) : (Memory.splice base bs m).read a = m.read a := by
  rw [read_splice, if_neg (by omega)]

theorem Memory.read_splice_inside (base : Nat) (bs : Bytes) (m : Memory) (j : Nat) (h : j < bs.length) :
    (Memory.splice base bs m).read (base + j) = bs[j]? := by
  rw [read_splice, if_pos (by omega), Nat.add_sub_cancel_left]

theorem Memory.mem_cells (base : Nat) (bs : Bytes) (c : Host.Cell) (h : c ∈ Memory.cells base bs) :
    base ≤ c.1 ∧ c.1 < base + bs.length := by
  induction bs generalizing base with
  | nil => simp [Memory.cells] at h
  | cons b bs ih =>
    rcases List.mem_cons.1 h with rfl | h
    · simp
    · have := ih _ h; simp only [List.length_cons]; omega

theorem Memory.cells_rising (base : Nat) (bs : Bytes) :
    (Memory.cells base bs).Pairwise fun c d => c.1 < d.1 := by
  induction bs generalizing base with
  | nil => exact List.Pairwise.nil
  | cons b bs ih =>
    refine List.Pairwise.cons (fun c hc => ?_) (ih _)
    have := mem_cells _ _ c hc
    simp only at *; omega

/-- The one write operation keeps the canonical form when it writes bytes of a window. -/
theorem Memory.splice_wf (p : Params) (base : Nat) (bs : Bytes) (m : Memory) (hm : m.wf p)
    (hb : ∀ j, j < bs.length → windowByte p (base + j)) : (Memory.splice base bs m).wf p := by
  refine ⟨?_, ?_⟩
  · rw [Memory.splice, List.pairwise_append, List.pairwise_append]
    refine ⟨⟨hm.1.filter _, cells_rising _ _, ?_⟩, hm.1.filter _, ?_⟩
    · intro c hc d hd
      have hd := mem_cells _ _ d hd
      have hc := (List.mem_filter.1 hc).2
      simp only [decide_eq_true_eq] at hc
      omega
    · intro c hc d hd
      have hd := (List.mem_filter.1 hd).2
      simp only [decide_eq_true_eq] at hd
      rcases List.mem_append.1 hc with hc | hc
      · have hc := (List.mem_filter.1 hc).2
        simp only [decide_eq_true_eq] at hc
        omega
      · have hc := mem_cells _ _ c hc; omega
  · intro c hc
    rw [Memory.splice, List.mem_append, List.mem_append] at hc
    rcases hc with (hc | hc) | hc
    · exact hm.2 c (List.mem_filter.1 hc).1
    · have h := mem_cells _ _ c hc
      have := hb (c.1 - base) (by omega)
      rwa [show base + (c.1 - base) = c.1 by omega] at this
    · exact hm.2 c (List.mem_filter.1 hc).1

/-- OUT_BUF is written inside its window, whatever the output. -/
theorem State.writeOut_wf (v : Bytes) (s : State) (h : s.mem.wf s.params) :
    (s.writeOut v).mem.wf s.params := by
  refine Memory.splice_wf _ _ _ _ h fun j hj => Or.inr (Or.inl ?_)
  simp only [List.length_take] at hj
  omega

/-- A word write inside IN_BUF keeps the canonical form. -/
theorem State.writeInWord_wf (a : Nat) (v : Word) (s : State) (h : s.mem.wf s.params) :
    (s.writeInWord a v).mem.wf s.params := by
  refine Memory.splice_wf _ _ _ _ h fun j hj => Or.inl ?_
  simp only [List.length_take] at hj
  omega

/-- MSG_BUF is written inside its window, whatever the message. -/
theorem offerMsg_wf (x : Bytes) (s : State) (h : s.mem.wf s.params) :
    (offerMsg x s).mem.wf s.params := by
  refine Memory.splice_wf _ _ _ _ h fun j hj => Or.inr (Or.inr ?_)
  simp only [List.length_take] at hj
  omega

/-- The memory after reset lists nothing. -/
theorem State.reset_wf (p : Params) : State.reset.mem.wf p := ⟨List.Pairwise.nil, fun _ h => by cases h⟩

/-- The bytes of OUT_BUF after an output. -/
theorem State.writeOut_read (v : Bytes) (s : State) (hv : v.length ≤ s.params.datapathMax) (a : Nat) :
    (s.writeOut v).mem.read a = if outBase ≤ a ∧ a < outBase + v.length then v[a - outBase]? else s.mem.read a := by
  rw [State.writeOut_mem, List.take_of_length_le hv, Memory.read_splice]

/-- The bytes of MSG_BUF after an offer. -/
theorem offerMsg_read (x : Bytes) (s : State) (hx : x.length ≤ s.params.msgbufSize) (a : Nat) :
    (offerMsg x s).mem.read a = if msgBase ≤ a ∧ a < msgBase + x.length then x[a - msgBase]? else s.mem.read a := by
  rw [offerMsg_mem, List.take_of_length_le hx, Memory.read_splice]

/-- IN of a command is as long as IN_LEN says. -/
@[simp] theorem State.input_length (s : State) : s.input.length = s.inLen.toNat := by simp [State.input]

end Sys2Proof.Machine
end

