-- ==== Sys2Proof/Laws/Header.lean ====
section
/-! SUPPORT. The header packer against the layout tables: validate is the lowest slot out of range, pack gives the wire bytes,
unpack gives the wire fields. -/

namespace Sys2Proof.Machine

theorem find_ranges (h : Vector Half 8) (q : Fin 8 → Bool) (l : List (Fin 8 × Nat × Nat))
    (e : ∀ r ∈ l, (fld h r.1 < r.2.1 || r.2.2 < fld h r.1) = q r.1) :
    (l.find? fun r => fld h r.1 < r.2.1 || r.2.2 < fld h r.1).map (·.1) = (l.map (·.1)).find? q := by
  induction l with
  | nil => rfl
  | cons r l ih =>
    rw [List.find?_cons, List.map_cons, List.find?_cons, e r (by simp)]
    cases q r.1
    · exact ih fun r hr => e r (by simp [hr])
    · rfl

theorem slotInRange_unused {k : HeaderKind} {j : Fin 8} (h : Vector Half 8) (hj : (slotMaxima k)[j.val]? = none) :
    slotInRange k h j = true := by simp [slotInRange, hj]

theorem ranges_slot (k : HeaderKind) (h : Vector Half 8) (r : Fin 8 × Nat × Nat) (hr : r ∈ ranges k) :
    (fld h r.1 < r.2.1 || r.2.2 < fld h r.1) = !slotInRange k h r.1 := by
  revert r
  cases k <;> simp only [ranges, List.forall_mem_cons, List.not_mem_nil, false_imp_iff, implies_true, and_true] <;>
    refine ⟨?_, ?_⟩ <;> (try refine ⟨?_, ?_⟩) <;> (try refine ⟨?_, ?_⟩) <;> (try refine ⟨?_, ?_⟩) <;>
    (rw [Bool.eq_iff_iff]; simp only [Bool.or_eq_true, decide_eq_true_eq]; simp only [fld]
     simp [slotInRange, slotMaxima]; try omega)

/-- validate_k is the lowest slot out of the range of the slot table. -/
theorem validate_eq (k : HeaderKind) (h : Vector Half 8) : validate k h = lowestBadSlot k h := by
  have f8 : List.finRange 8 = [0, 1, 2, 3, 4, 5, 6, 7] := by decide
  rw [validate, find_ranges h (fun j => !slotInRange k h j) _ (ranges_slot k h), lowestBadSlot, f8]
  have hun := fun j => slotInRange_unused (k := k) (j := j) h
  cases k <;> simp only [ranges, List.map_cons, List.map_nil, List.find?_cons, List.find?_nil]
  all_goals
    (have u5 := hun 5 rfl; have u6 := hun 6 rfl; have u7 := hun 7 rfl
     simp only [u5, u6, u7, Bool.not_true])
  · have u2 := hun 2 rfl; have u3 := hun 3 rfl; have u4 := hun 4 rfl
    simp only [u2, u3, u4, Bool.not_true]
  · have u3 := hun 3 rfl; have u4 := hun 4 rfl
    simp only [u3, u4, Bool.not_true]

/-- validate_k passes exactly the headers in range. -/
theorem validate_eq_none_iff (k : HeaderKind) (h : Vector Half 8) : validate k h = none ↔ headerInRange k h = true := by
  simp [validate_eq, lowestBadSlot, headerInRange]

theorem headerInRange_slot {k : HeaderKind} {h : Vector Half 8} (hr : headerInRange k h = true) (j : Fin 8) (hi : Nat)
    (hj : (slotMaxima k)[j.val]? = some hi) : h[j].toNat ≤ hi := by
  have := (List.all_eq_true.1 hr) j (List.mem_finRange j)
  simp only [slotInRange, hj, decide_eq_true_eq] at this
  exact this.1

theorem be_two (x : Nat) : be 2 x = beHalf (BitVec.ofNat 16 x) := by
  simp [be, beHalf]
  constructor <;> (apply BitVec.eq_of_toNat_eq; simp [BitVec.extractLsb'_toNat, Nat.shiftRight_eq_div_pow]; try omega)

theorem be_four (x : Nat) : be 4 x = beWord (BitVec.ofNat 32 x) := by
  simp [be, beWord]
  refine ⟨?_, ?_, ?_, ?_⟩ <;>
    (apply BitVec.eq_of_toNat_eq; simp [BitVec.extractLsb'_toNat, Nat.shiftRight_eq_div_pow]; try omega)

theorem be_six (x : Nat) : be 6 x = beSix (BitVec.ofNat 48 x) := by
  simp [be, beSix]
  refine ⟨?_, ?_, ?_, ?_, ?_, ?_⟩ <;>
    (apply BitVec.eq_of_toNat_eq; simp [BitVec.extractLsb'_toNat, Nat.shiftRight_eq_div_pow]; try omega)

theorem le_two (x : Nat) : le 2 x = leHalf (BitVec.ofNat 16 x) := by
  simp [le, leHalf]
  constructor <;> (apply BitVec.eq_of_toNat_eq; simp [BitVec.extractLsb'_toNat, Nat.shiftRight_eq_div_pow]; try omega)

theorem le_one (x : Nat) : le 1 x = [BitVec.ofNat 8 x] := by simp [le]

theorem ofNat_of_toNat {w : Nat} (b : BitVec w) (x : Nat) (h : x = b.toNat) : BitVec.ofNat w x = b := by
  subst h; simp

theorem low_bits {w n : Nat} (b : BitVec w) (h : b.toNat < 2 ^ n) : (b.extractLsb' 0 n).toNat = b.toNat := by
  rw [BitVec.extractLsb'_toNat, Nat.shiftRight_zero, Nat.mod_eq_of_lt h]

/-- pack_k of a header in range gives the bytes of the layout table. -/
theorem pack_eq_wire (k : HeaderKind) (h : Vector Half 8) (hr : headerInRange k h = true) : pack k h = wireHeader k h := by
  have hm := fun j hi => headerInRange_slot hr j hi
  cases k with
  | cspv1 =>
    have h0 := low_bits (n := 2) h[0] (by have := hm 0 3 rfl; simp at this; omega)
    have h1 := low_bits (n := 5) h[1] (by have := hm 1 31 rfl; simp at this; omega)
    have h2 := low_bits (n := 5) h[2] (by have := hm 2 31 rfl; simp at this; omega)
    have h3 := low_bits (n := 6) h[3] (by have := hm 3 63 rfl; simp at this; omega)
    have h4 := low_bits (n := 6) h[4] (by have := hm 4 63 rfl; simp at this; omega)
    rw [pack, be_four, wireHeader]
    congr 1
    apply ofNat_of_toNat
    simp only [BitVec.toNat_append, h0, h1, h2, h3, h4, Nat.shiftLeft_or_distrib, ← Nat.shiftLeft_add]
    simp [fld]
  | cspv2 =>
    have h0 := low_bits (n := 2) h[0] (by have := hm 0 3 rfl; simp at this; omega)
    have h1 := low_bits (n := 14) h[1] (by have := hm 1 16383 rfl; simp at this; omega)
    have h2 := low_bits (n := 14) h[2] (by have := hm 2 16383 rfl; simp at this; omega)
    have h3 := low_bits (n := 6) h[3] (by have := hm 3 63 rfl; simp at this; omega)
    have h4 := low_bits (n := 6) h[4] (by have := hm 4 63 rfl; simp at this; omega)
    rw [pack, be_six, wireHeader]
    congr 1
    apply ofNat_of_toNat
    simp only [BitVec.toNat_append, h0, h1, h2, h3, h4, Nat.shiftLeft_or_distrib, ← Nat.shiftLeft_add]
    simp [fld]
  | sfhdr =>
    have h0 := low_bits (n := 4) h[0] (by have := hm 0 0 rfl; simp at this; omega)
    have h1 := low_bits (n := 11) h[1] (by have := hm 1 1024 rfl; simp at this; omega)
    rw [pack, be_two, wireHeader]
    congr 1
    apply ofNat_of_toNat
    simp only [BitVec.toNat_append, h0, h1]
    simp [fld]
  | olchdr => simp [pack, wireHeader, le_two, le_one, fld]
  | olshdr => simp [pack, wireHeader, le_two, le_one, fld]
  | olsftr => simp [pack, wireHeader, le_two, le_one, fld]

/-- One byte after a value in big-endian order. -/
theorem append_byte_toNat {n : Nat} (x : BitVec n) (b : Byte) : (x ++ b).toNat = x.toNat * 256 + b.toNat := by
  rw [BitVec.toNat_append, ← Nat.shiftLeft_add_eq_or_of_lt b.isLt, Nat.shiftLeft_eq]

theorem fromBe_two (a b : Byte) : fromBe [a, b] = (a ++ b).toNat := by
  simp only [append_byte_toNat]; simp [fromBe]

theorem fromBe_four (a b c d : Byte) : fromBe [a, b, c, d] = (a ++ b ++ c ++ d).toNat := by
  simp only [append_byte_toNat]; simp [fromBe]

theorem fromBe_six (a b c d e f : Byte) : fromBe [a, b, c, d, e, f] = (a ++ b ++ c ++ d ++ e ++ f).toNat := by
  simp only [append_byte_toNat]; simp [fromBe]

theorem fromLe_one (a : Byte) : fromLe [a] = a.toNat := by simp [fromLe]

theorem fromLe_two (a b : Byte) : fromLe [a, b] = (b ++ a).toNat := by
  simp only [append_byte_toNat]; simp [fromLe]; omega

theorem slice_toNat {w : Nat} (x : BitVec w) (hi lo n : Nat) (h : n = hi - lo + 1) :
    slice x.toNat hi lo = (x.extractLsb' lo n).toNat := by
  subst h; rw [slice, BitVec.extractLsb'_toNat]

theorem header_five (a b c d e : Nat) : header [a, b, c, d, e] =
    #v[BitVec.ofNat 16 a, BitVec.ofNat 16 b, BitVec.ofNat 16 c, BitVec.ofNat 16 d, BitVec.ofNat 16 e, 0, 0, 0] := by
  apply Vector.ext; intro i hi; simp only [header]; interval_cases i <;> simp

theorem header_three (a b c : Nat) : header [a, b, c] =
    #v[BitVec.ofNat 16 a, BitVec.ofNat 16 b, BitVec.ofNat 16 c, 0, 0, 0, 0, 0] := by
  apply Vector.ext; intro i hi; simp only [header]; interval_cases i <;> simp

theorem header_two (a b : Nat) : header [a, b] = #v[BitVec.ofNat 16 a, BitVec.ofNat 16 b, 0, 0, 0, 0, 0, 0] := by
  apply Vector.ext; intro i hi; simp only [header]; interval_cases i <;> simp

/-- The first n bytes b 0, b 1, ... of a sequence. -/
def bytesOf (b : Nat → Byte) (n : Nat) : Bytes := (List.range n).map b

theorem low_byte_zero (x : Byte) : x.toNat = 0 ↔ x = 0 := by decide +revert

theorem low_six_zero (x : Byte) : x.toNat % 64 = 0 ↔ x &&& 0x3F = 0 := by decide +revert

theorem top_bit_zero (x : Byte) : x.toNat / 128 % 2 = 0 ↔ x &&& 0x80 = 0 := by decide +revert

/-- unpack_k gives the fields of the layout table. -/
theorem unpack_eq_wire (k : HeaderKind) (b : Nat → Byte) :
    (unpack k (bytesOf b (wireLength k))).1 = wireFields k b
      ∧ ((unpack k (bytesOf b (wireLength k))).2 = 0 ↔ wireReserved k b = 0) := by
  cases k with
  | cspv1 =>
    have e : bytesOf b (wireLength .cspv1) = [b 0, b 1, b 2, b 3] := rfl
    simp only [unpack, e, fromBe_four, slice_toNat _ 31 30 2 rfl, slice_toNat _ 29 25 5 rfl,
      slice_toNat _ 24 20 5 rfl, slice_toNat _ 19 14 6 rfl, slice_toNat _ 13 8 6 rfl, slice_toNat _ 7 0 8 rfl,
      header_five, wireFields, wireReserved, BitVec.ofNat_toNat]
    refine ⟨trivial, ?_⟩
    rw [BitVec.extractLsb'_toNat, append_byte_toNat, Nat.shiftRight_zero, ← low_byte_zero]
    omega
  | cspv2 =>
    have e : bytesOf b (wireLength .cspv2) = [b 0, b 1, b 2, b 3, b 4, b 5] := rfl
    simp only [unpack, e, fromBe_six, slice_toNat _ 47 46 2 rfl, slice_toNat _ 45 32 14 rfl,
      slice_toNat _ 31 18 14 rfl, slice_toNat _ 17 12 6 rfl, slice_toNat _ 11 6 6 rfl, slice_toNat _ 5 0 6 rfl,
      header_five, wireFields, wireReserved, BitVec.ofNat_toNat]
    refine ⟨trivial, ?_⟩
    rw [BitVec.extractLsb'_toNat, append_byte_toNat, Nat.shiftRight_zero, ← low_six_zero]
    omega
  | sfhdr =>
    have e : bytesOf b (wireLength .sfhdr) = [b 0, b 1] := rfl
    simp only [unpack, e, fromBe_two, slice_toNat _ 14 11 4 rfl, slice_toNat _ 10 0 11 rfl, slice_toNat _ 15 15 1 rfl,
      header_two, wireFields, wireReserved, BitVec.ofNat_toNat]
    refine ⟨trivial, ?_⟩
    rw [BitVec.extractLsb'_toNat, append_byte_toNat, Nat.shiftRight_eq_div_pow, ← top_bit_zero]
    have := (b 1).isLt
    omega
  | olchdr =>
    have e : bytesOf b (wireLength .olchdr) = [b 0, b 1, b 2, b 3, b 4, b 5, b 6] := rfl
    simp [unpack, e, sub, fromLe_one, fromLe_two, header_five, wireFields, wireReserved]
  | olshdr =>
    have e : bytesOf b (wireLength .olshdr) = [b 0, b 1, b 2, b 3, b 4, b 5] := rfl
    simp [unpack, e, sub, fromLe_one, fromLe_two, header_five, wireFields, wireReserved]
  | olsftr =>
    have e : bytesOf b (wireLength .olsftr) = [b 0, b 1, b 2, b 3] := rfl
    simp [unpack, e, sub, fromLe_one, fromLe_two, header_three, wireFields, wireReserved]

end Sys2Proof.Machine
end

