-- ==== Sys2Proof/Laws/Ops.lean ====
section
/-! SUPPORT. What each shared operation can do, once: the lemmas that later proofs cite instead of unfolding. -/

namespace Sys2Proof.Machine

/-- A completion writes the outputs of a body that raised nothing, or only STATUS and CMD_DONE. -/
theorem complete_cases (s : State) (r : Except Raised State) :
    (∃ t, r = .ok t ∧ complete s r = t.completeOk) ∨ (∃ e, r = .error e ∧ complete s r = s.completeErr e) := by
  cases r with
  | ok t => exact .inl ⟨t, rfl, rfl⟩
  | error e => exact .inr ⟨e, rfl, rfl⟩

/-- A command fails a common check, or its own pseudocode raises, or its outputs are written and it completes. -/
theorem runCommand_cases (i : Instr) (body : State → Except Raised State) (s : State) :
    (∃ e, commonChecks i s = some e ∧ runCommand i body s = s.completeErr e)
    ∨ (∃ e, commonChecks i s = none ∧ body s = .error e ∧ runCommand i body s = s.completeErr e)
    ∨ (∃ t, commonChecks i s = none ∧ body s = .ok t ∧ runCommand i body s = t.completeOk) := by
  unfold runCommand
  cases h : commonChecks i s with
  | some e => exact .inl ⟨e, rfl, rfl⟩
  | none =>
    cases hb : body s with
    | error e => exact .inr (.inl ⟨e, rfl, rfl, rfl⟩)
    | ok t => exact .inr (.inr ⟨t, rfl, rfl, rfl⟩)

theorem runCommand_of_check {i : Instr} {body : State → Except Raised State} {s : State} {e : Raised}
    (h : commonChecks i s = some e) : runCommand i body s = s.completeErr e := by
  simp [runCommand, h]

theorem runCommand_of_ok {i : Instr} {body : State → Except Raised State} {s t : State}
    (h : commonChecks i s = none) (hb : body s = .ok t) : runCommand i body s = t.completeOk := by
  simp [runCommand, h, hb, complete]

theorem runCommand_of_error {i : Instr} {body : State → Except Raised State} {s : State} {e : Raised}
    (h : commonChecks i s = none) (hb : body s = .error e) : runCommand i body s = s.completeErr e := by
  simp [runCommand, h, hb, complete]

/-- A command that passes its checks with the lock where it needs it reads at most DATAPATH_MAX bytes. -/
theorem commonChecks_none {i : Instr} {s : State} (h : commonChecks i s = none) :
    (needsLock i = true → s.status.cfgLocked = true)
    ∧ (∀ idx, adapterIndex i = some idx → idx < s.cfg.n)
    ∧ (∀ idx, adapterIndex i = some idx → needsCrcKind i = true → (s.cfg.desc idx).isCrc = true)
    ∧ (readsIn i = true → s.inLen.toNat ≤ s.params.datapathMax) := by
  unfold commonChecks at h
  split at h
  · cases h
  · rename_i hl
    refine ⟨fun hn => ?_, ?_⟩
    · cases hc : s.status.cfgLocked <;> simp_all
    · cases ha : adapterIndex i with
      | none =>
        simp only [ha] at h
        split at h
        · cases h
        · refine ⟨by simp, by simp, fun hr => ?_⟩
          simp_all
      | some idx =>
        simp only [ha] at h
        split at h
        · cases h
        · split at h
          · cases h
          · split at h
            · cases h
            · refine ⟨?_, ?_, fun hr => ?_⟩
              · intro j hj; cases hj; omega
              · intro j hj hk; cases hj; simp_all
              · simp_all

/-- The stages of a chain of two parts run one part after the other. -/
theorem runStages_append (f : Desc → Bytes → Except ErrCode Bytes) (p q : List (Nat × Desc)) (x : Bytes) :
    runStages f (p ++ q) x =
      match runStages f p x with
      | .ok y => runStages f q y
      | .error e => .error e := by
  induction p generalizing x with
  | nil => rfl
  | cons c p ih =>
    obtain ⟨i, d⟩ := c
    simp only [List.cons_append, runStages]
    split
    · rfl
    · exact ih _

/-- A property of bytes that every stage keeps holds of the result of the chain. -/
theorem runStages_induct (P : Bytes → Prop) (f : Desc → Bytes → Except ErrCode Bytes) (l : List (Nat × Desc))
    (hf : ∀ c ∈ l, ∀ x y, P x → f c.2 x = .ok y → P y) (x y : Bytes) (hx : P x) (h : runStages f l x = .ok y) :
    P y := by
  induction l generalizing x with
  | nil => cases h; exact hx
  | cons c l ih =>
    obtain ⟨i, d⟩ := c
    simp only [runStages] at h
    split at h
    · cases h
    · rename_i z hz
      exact ih (fun c hc => hf c (List.mem_cons_of_mem _ hc)) z (hf _ (List.mem_cons_self ..) x z hx hz) h

/-- The iteration top is CANCELED with RX_END, or SEEKING. -/
theorem State.enterTop_cases (s : State) :
    (s.rx.cancelPending = true ∧ s.enterTop = s.rxEnd .canceled)
    ∨ (s.rx.cancelPending = false ∧ s.enterTop = s.setRxState .seeking) := by
  cases h : s.rx.cancelPending <;> simp [State.enterTop, h]

/-- A seek finds the marker and goes on reading, or keeps the tail and pulls. -/
theorem seekStep_cases (s : State) :
    (∃ j, findMarker s.cfg.sync s.rdbuf = some j ∧
      seekStep s = State.setRxState .reading { s with rdbuf := s.rdbuf.drop j, frame := [] })
    ∨ (findMarker s.cfg.sync s.rdbuf = none ∧
      seekStep s = State.issuePull .seek (s.params.rdbufCap - (keepTail s.cfg.m s.rdbuf).length)
        { s with rdbuf := keepTail s.cfg.m s.rdbuf }) := by
  unfold seekStep
  cases h : findMarker s.cfg.sync s.rdbuf with
  | some j => exact .inl ⟨j, rfl, rfl⟩
  | none => exact .inr ⟨rfl, rfl⟩

/-- A read step ends the frame, pulls what it still needs, or moves bytes of rdbuf. -/
theorem readStep_cases (s : State) :
    (s.cfg.l - s.frame.length = 0 ∧ readStep s = s.setRxState .decoding)
    ∨ (s.cfg.l - s.frame.length ≠ 0 ∧ s.rdbuf = [] ∧ readStep s = s.issuePull .read (s.cfg.l - s.frame.length))
    ∨ (s.cfg.l - s.frame.length ≠ 0 ∧ s.rdbuf ≠ [] ∧
      readStep s = { s with
        frame := s.frame ++ s.rdbuf.take (s.cfg.l - s.frame.length)
        rdbuf := s.rdbuf.drop (s.cfg.l - s.frame.length) }) := by
  unfold readStep
  by_cases h : s.cfg.l - s.frame.length = 0
  · exact .inl ⟨h, by simp [h]⟩
  · by_cases hb : s.rdbuf = []
    · exact .inr (.inl ⟨h, hb, by simp [h, hb]⟩)
    · exact .inr (.inr ⟨h, hb, by simp [h, hb]⟩)

/-- An offer step withdraws the item under a pending cancellation, or offers the message, or offers the error, or drops
it. -/
theorem offerStep_cases (it : RxItem) (s : State) :
    (s.rx.cancelPending = true ∧ offerStep it s = s.clearItem.rxEnd .canceled)
    ∨ (∃ x, s.rx.cancelPending = false ∧ it = .msg x ∧ offerStep it s = offerMsg x s.clearItem)
    ∨ (∃ e st i, s.rx.cancelPending = false ∧ it = .err e st i ∧ s.cfg.errqEn = true ∧
      offerStep it s = { s.clearItem with
        errInfo := { code := e.code, stage := st.code, adpIdx := BitVec.ofNat 4 i }
        rx := { s.rx with errValid := true, state := .reporting }
        irqStatus := s.irqStatus ||| irqErr })
    ∨ (∃ e st i, s.rx.cancelPending = false ∧ it = .err e st i ∧ s.cfg.errqEn = false ∧
      offerStep it s = s.clearItem.setRxState .seeking) := by
  unfold offerStep
  cases h : s.rx.cancelPending with
  | true => exact .inl ⟨rfl, by simp⟩
  | false =>
    cases it with
    | msg x => exact .inr (.inl ⟨x, rfl, rfl, by simp⟩)
    | err e st i =>
      cases hq : s.cfg.errqEn with
      | true => exact .inr (.inr (.inl ⟨e, st, i, rfl, rfl, rfl, by simp [offerErr, hq, h]⟩))
      | false => exact .inr (.inr (.inr ⟨e, st, i, rfl, rfl, rfl, by simp [offerErr, hq, h, State.enterTop]⟩))

/-- A write to an operand register is dropped while BUSY and lands otherwise. -/
theorem operandWrite_cases (s t : State) :
    (s.status.busy = true ∧ operandWrite s t = s.drop) ∨ (s.status.busy = false ∧ operandWrite s t = t) := by
  cases h : s.status.busy <;> simp [operandWrite, h]

/-- A write to a configuration register is dropped while locked and lands otherwise. -/
theorem configWrite_cases (s : State) (c : Cfg) :
    (s.status.cfgLocked = true ∧ configWrite s c = s.drop)
    ∨ (s.status.cfgLocked = false ∧ configWrite s c = { s with cfg := c }) := by
  cases h : s.status.cfgLocked <;> simp [configWrite, h]

/-- A write to CMD is dropped while BUSY and accepted otherwise. -/
theorem cmdWrite_cases (c : Word) (s : State) :
    (s.status.busy = true ∧ cmdWrite c s = s.drop) ∨ (s.status.busy = false ∧ cmdWrite c s = s.accept c) := by
  cases h : s.status.busy <;> simp [cmdWrite, h]

/-- Every meaning answers a next state. -/
theorem exec_next (i : Instr) (s : State) : ∃ t, exec i s = .next t := by
  cases i with
  | send =>
    show ∃ t, execSend s = .next t
    unfold execSend
    split
    · exact ⟨_, rfl⟩
    · split <;> exact ⟨_, rfl⟩
  | rxStart => show ∃ t, execRxStart s = .next t; unfold execRxStart; split <;> exact ⟨_, rfl⟩
  | rxReset => show ∃ t, execRxReset s = .next t; unfold execRxReset; split <;> exact ⟨_, rfl⟩
  | rxMsgPop => show ∃ t, execRxMsgPop s = .next t; unfold execRxMsgPop; split <;> exact ⟨_, rfl⟩
  | rxErrPop => show ∃ t, execRxErrPop s = .next t; unfold execRxErrPop; split <;> exact ⟨_, rfl⟩
  | _ => exact ⟨_, rfl⟩

/-- The actions of an RX_CTRL write answer a next state. -/
theorem runActions_next (is : List Instr) (s : State) : ∃ t, runActions is s = .next t := by
  induction is generalizing s with
  | nil => exact ⟨s, rfl⟩
  | cons i is ih =>
    obtain ⟨t, ht⟩ := exec_next i s
    simp only [runActions, ht]
    exact ih t

/-- A property that every action keeps is kept by the whole RX_CTRL write. -/
theorem runActions_induct (P : State → Prop) (is : List Instr)
    (hP : ∀ i ∈ is, ∀ s t, P s → exec i s = .next t → P t) (s t : State) (hs : P s) (h : runActions is s = .next t) :
    P t := by
  induction is generalizing s with
  | nil => cases h; exact hs
  | cons i is ih =>
    obtain ⟨u, hu⟩ := exec_next i s
    simp only [runActions, hu] at h
    exact ih (fun j hj => hP j (List.mem_cons_of_mem _ hj)) u (hP i (List.mem_cons_self ..) s u hs hu) h

/-- The bus performs every access it is given at a register. -/
theorem writeReg_next (v : Word) (s : State) (r : Reg) : ∃ t, writeReg v s r = .next t := by
  cases r with
  | rxCtrl => exact runActions_next _ s
  | _ => exact ⟨_, rfl⟩

theorem busWrite_next (off : BitVec 16) (v : Word) (s : State) : ∃ t, busWrite off v s = .next t := by
  unfold busWrite
  split
  · exact writeReg_next _ _ _
  · exact ⟨s, rfl⟩

/-- The turn of CODEC answers a next state. -/
theorem codecStep_next (s : State) : ∃ t, codecStep s = .next t := by
  unfold codecStep
  split
  · exact ⟨_, rfl⟩
  · split
    · exact ⟨_, rfl⟩
    · split
      · exact ⟨_, rfl⟩
      · split
        · exact ⟨_, rfl⟩
        · exact exec_next _ _

/-- The actions of an RX_CTRL word are RX_CTRL actions. -/
theorem decodeRxctrl_format (a : Word) (i : Instr) (h : i ∈ decodeRxctrl a) : i.format = .rxctrl := by
  simp only [decodeRxctrl, actionOf, List.mem_append] at h
  rcases h with (((h | h) | h) | h) | h <;> split at h <;> simp at h <;> subst h <;> rfl

end Sys2Proof.Machine
end

