-- ==== Sys2Proof/Laws/Step.lean ====
section
/-! SUPPORT. One step, by the agent whose turn it is, and where the register map sends an offset. -/

namespace Sys2Proof.Machine

theorem step_host {s : State} (h : s.turn = .host) : step s = hostStep s.begin := by simp [step, stepBy, h, agentStep]

theorem step_codec {s : State} (h : s.turn = .codec) : step s = codecStep s.begin := by simp [step, stepBy, h, agentStep]

theorem step_rx {s : State} (h : s.turn = .rx) : step s = .next (rxStep s.begin) := by simp [step, stepBy, h, agentStep]

theorem step_source {s : State} (h : s.turn = .source) : step s = .next (sourceStep Config.ports s.begin) := by
  simp [step, stepBy, h, agentStep]

theorem step_sink {s : State} (h : s.turn = .sink) : step s = .next (sinkStep Config.ports s.begin) := by simp [step, stepBy, h, agentStep]

theorem step_rst {s : State} (h : s.turn = .rst) : step s = .next (hwReset s.begin) := by simp [step, stepBy, h, agentStep]

/-- The HOST's turn with an aligned write first. -/
theorem step_write {s : State} {off : BitVec 16} {v : Word} {rest : List HostStmt} (h : s.turn = .host)
    (hp : s.program = .wr off 4 v :: rest) (ha : off.toNat % 4 = 0) :
    step s = busWrite off v { s.begin with program := rest } := by
  have : accessWf off 4 := ⟨ha, rfl⟩
  rw [step_host h, hostStep, State.begin_program, hp]
  exact if_pos this

/-- The HOST's turn with an aligned read first. -/
theorem step_read {s : State} {off : BitVec 16} {rest : List HostStmt} (h : s.turn = .host)
    (hp : s.program = .rd off 4 :: rest) (ha : off.toNat % 4 = 0) :
    step s = .next { s.begin with
      program := rest, hostReads := s.hostReads ++ [(off, busRead { s.begin with program := rest } off)] } := by
  have : accessWf off 4 := ⟨ha, rfl⟩
  rw [step_host h, hostStep, State.begin_program, hp]
  exact if_pos this

/-- A write to a mapped offset is the write of its register. -/
theorem busWrite_of_reg {off : BitVec 16} {r : Reg} (v : Word) (s : State) (h : regAt s.params off.toNat = some r) :
    busWrite off v s = writeReg v s r := by simp [busWrite, h]

theorem busWrite_unmapped {off : BitVec 16} (v : Word) (s : State) (h : regAt s.params off.toNat = none) :
    busWrite off v s = .next s := by simp [busWrite, h]

theorem busRead_of_reg {off : BitVec 16} {r : Reg} (s : State) (h : regAt s.params off.toNat = some r) :
    busRead s off = readReg s r := by simp [busRead, h]

theorem regAt_cmd (p : Params) : regAt p 0x004 = some .cmd := by simp [regAt, inBase, outBase, msgBase, scalarReg]

theorem regAt_rxCtrl (p : Params) : regAt p 0x200 = some .rxCtrl := by
  simp [regAt, inBase, outBase, msgBase, scalarReg]

theorem regAt_hf (p : Params) (j : Fin 8) : regAt p (0x020 + 4 * j.val) = some (.hf j) := by
  unfold regAt
  rw [if_pos (by omega)]
  congr 2
  decide +revert

theorem regAt_adp (p : Params) (i : Fin 8) (w : Fin 4) :
    regAt p (0x100 + 16 * i.val + 4 * w.val) = some (.adp i w) := by
  unfold regAt
  rw [if_neg (by omega), if_pos (by omega)]
  congr 2 <;> decide +revert

theorem window_bases : inBase = 0x1000 ∧ outBase = 0x2000 ∧ msgBase = 0x3000 := ⟨rfl, rfl, rfl⟩

/-- What the constraints on the sizes give for the windows: none reaches into the next. -/
theorem Params.windows_apart {p : Params} (h : p.wf) : p.datapathMax ≤ 0x1000 ∧ p.msgbufSize + 10 ≤ p.datapathMax :=
  ⟨h.2.2.1.2, h.2.2.1.1⟩

theorem regAt_inBuf (p : Params) (a : Nat) (h : a < p.datapathMax) : regAt p (inBase + a) = some (.inBuf a) := by
  obtain ⟨h1, h2, h3⟩ := window_bases
  unfold regAt
  rw [if_neg (by omega), if_neg (by omega), if_pos (by omega), Nat.add_sub_cancel_left]

theorem regAt_outBuf (p : Params) (a : Nat) (hp : p.wf) (h : a < p.datapathMax) :
    regAt p (outBase + a) = some (.outBuf a) := by
  obtain ⟨h1, h2, h3⟩ := window_bases
  obtain ⟨h4, h5⟩ := Params.windows_apart hp
  unfold regAt
  rw [if_neg (by omega), if_neg (by omega), if_neg (by omega), if_pos (by omega), Nat.add_sub_cancel_left]

theorem regAt_msgBuf (p : Params) (a : Nat) (hp : p.wf) (h : a < p.msgbufSize) :
    regAt p (msgBase + a) = some (.msgBuf a) := by
  obtain ⟨h1, h2, h3⟩ := window_bases
  obtain ⟨h4, h5⟩ := Params.windows_apart hp
  unfold regAt
  rw [if_neg (by omega), if_neg (by omega), if_neg (by omega), if_neg (by omega), if_pos (by omega),
    Nat.add_sub_cancel_left]

theorem scalarReg_ne_inBuf (off a : Nat) : scalarReg off ≠ some (.inBuf a) := by
  unfold scalarReg; split <;> simp

/-- Every word of IN_BUF that the register map names begins inside the window. -/
theorem regAt_inBuf_lt {p : Params} {off a : Nat} (h : regAt p off = some (.inBuf a)) :
    off = inBase + a ∧ a < p.datapathMax := by
  obtain ⟨h1, h2, h3⟩ := window_bases
  unfold regAt at h
  split at h
  · cases h
  split at h
  · cases h
  split at h
  · simp only [Option.some.injEq, Reg.inBuf.injEq] at h; omega
  split at h
  · cases h
  split at h
  · cases h
  exact absurd h (scalarReg_ne_inBuf _ _)

/-- A well-formed host statement never faults. -/
theorem runStmt_wf {stmt : HostStmt} (s : State) (h : stmt.wf = true) : ∃ t, runStmt stmt s = .next t := by
  cases stmt with
  | wr off width v =>
    have : accessWf off width := of_decide_eq_true h
    obtain ⟨t, ht⟩ := busWrite_next off v s
    exact ⟨t, by simp only [runStmt]; rw [if_pos this, ht]⟩
  | rd off width =>
    have : accessWf off width := of_decide_eq_true h
    exact ⟨_, by simp only [runStmt]; rw [if_pos this]⟩
  | poll off mask value =>
    have : accessWf off 4 := of_decide_eq_true h
    simp only [runStmt]
    rw [if_pos this]
    split <;> exact ⟨_, rfl⟩
  | waitRx =>
    simp only [runStmt]
    split <;> exact ⟨_, rfl⟩

end Sys2Proof.Machine
end

