-- ==== Sys2Proof/Laws/Adapters.lean ====
section
/-! SUPPORT. The configuration check, and how long the results of the adapters and of a chain can be (42_adapters.md R231). -/

namespace Sys2Proof.Machine

/-- What a passed configuration check gives. -/
theorem cfgCheck_none {p : Params} {c : Cfg} (h : cfgCheck p c = none) :
    1 ≤ c.m ∧ c.m ≤ p.syncMax ∧ 1 ≤ c.fs ∧ c.fs ≤ p.frameMax ∧ c.n ≤ p.adpMax
      ∧ ∀ i, i < c.n → (c.desc i).valid p = true := by
  unfold cfgCheck at h
  split at h
  · cases h
  split at h
  · cases h
  split at h
  · cases h
  refine ⟨by omega, by omega, by omega, by omega, by omega, fun i hi => ?_⟩
  rw [Option.map_eq_none_iff, List.find?_eq_none] at h
  have := h (i, c.desc i) (List.mem_map.2 ⟨i, List.mem_range.2 hi, rfl⟩)
  simpa using this

theorem mem_chain {c : Cfg} {p : Nat × Desc} (h : p ∈ c.chain) : p.1 < c.n ∧ p.2 = c.desc p.1 := by
  obtain ⟨i, hi, rfl⟩ := List.mem_map.1 h
  exact ⟨List.mem_range.1 hi, rfl⟩

theorem chain_valid {z : Params} {c : Cfg} (h : cfgCheck z c = none) {p : Nat × Desc} (hp : p ∈ c.chain) :
    p.2.valid z = true := by
  obtain ⟨h1, h2⟩ := mem_chain hp
  rw [h2]; exact (cfgCheck_none h).2.2.2.2.2 _ h1

@[simp] theorem be_length (n x : Nat) : (be n x).length = n := by
  induction n with
  | zero => rfl
  | succ n ih => simp [be, ih]

@[simp] theorem le_length (n x : Nat) : (le n x).length = n := by
  induction n generalizing x with
  | zero => rfl
  | succ n ih => simp [le, ih]

theorem pack_length (k : HeaderKind) (h : Vector Half 8) : (pack k h).length = hlen k := by
  cases k <;> simp [pack, hlen]

theorem withinDatapath_ok {p : Params} {r v : Bytes} (h : withinDatapath p r = .ok v) :
    v = r ∧ v.length ≤ p.datapathMax := by
  unfold withinDatapath at h
  split at h
  · cases h
  · cases h; exact ⟨rfl, by omega⟩

/-- The result of a SPACEFRAME wrap has the frame's size. -/
theorem wrapSf_length {d : Desc} {v r : Bytes} (h : wrapSf d v = .ok r) : r.length = fsize d := by
  unfold wrapSf at h
  split at h
  · cases h
  · dsimp only at h
    split at h
    · cases h
    · cases h
      have hb : (pack .sfhdr (header [d.sfType, v.length]) ++ v ++ zeros (d.pds - v.length)).length = 2 + d.pds := by
        simp only [List.length_append, pack_length, hlen, zeros, List.length_replicate]; omega
      unfold fsize
      cases ha : d.withAsm <;> cases hc : d.withCrc <;> simp [appendCrc32c, asm] at hb ⊢ <;> omega

/-- A wrap by a valid descriptor never passes the datapath. -/
theorem wrap_length_le {p : Params} {d : Desc} {v r : Bytes} (hp : p.wf) (hd : d.valid p = true)
    (h : wrap p d v = .ok r) : r.length ≤ p.datapathMax := by
  unfold wrap at h
  unfold Desc.valid at hd
  split at h <;> rename_i hk
  · unfold wrapCrc at h
    split at h
    · cases h
    · exact (withinDatapath_ok h).2
  · unfold wrapCrc at h
    split at h
    · cases h
    · exact (withinDatapath_ok h).2
  · rw [wrapSf_length h]
    simp only [hk, Bool.decide_and, Bool.and_eq_true, decide_eq_true_eq] at hd
    unfold fsize
    split <;> split <;> omega
  · unfold wrapCsp at h
    split at h
    · cases h
    split at h
    · cases h
    · exact (withinDatapath_ok h).2
  · unfold wrapCsp at h
    split at h
    · cases h
    split at h
    · cases h
    · exact (withinDatapath_ok h).2
  · unfold wrapOlc at h
    split at h
    · cases h
    · exact (withinDatapath_ok h).2
  · unfold wrapOls at h
    split at h
    · cases h
    · exact (withinDatapath_ok h).2
  · cases h

theorem unwrapSfBody_length_le {d : Desc} {f r : Bytes} (h : unwrapSfBody d f = .ok r) : r.length ≤ f.length := by
  unfold unwrapSfBody at h
  split at h
  · cases h
  split at h
  · cases h
  split at h
  · cases h
  · cases h; simp only [sub, List.length_take, List.length_drop]; omega

theorem unwrapSfCrc_length_le {d : Desc} {f r : Bytes} (h : unwrapSfCrc d f = .ok r) : r.length ≤ f.length := by
  unfold unwrapSfCrc at h
  split at h
  · split at h
    · cases h
    · have := unwrapSfBody_length_le h
      simp only [List.length_take] at this; omega
  · exact unwrapSfBody_length_le h

/-- An unwrap never grows its input. -/
theorem unwrap_length_le {d : Desc} {v r : Bytes} (h : unwrap d v = .ok r) : r.length ≤ v.length := by
  unfold unwrap at h
  have crc : ∀ {d : Desc}, unwrapCrc d v = .ok r → r.length ≤ v.length := by
    intro d h
    unfold unwrapCrc at h
    dsimp only at h
    split at h
    · cases h
    split at h
    · cases h
    split at h
    · cases h
    · cases h; simp only [List.length_take]; omega
  have csp : ∀ {k : HeaderKind} {n : Nat}, unwrapCsp k n v = .ok r → r.length ≤ v.length := by
    intro k n h
    unfold unwrapCsp at h
    split at h
    · cases h
    split at h
    · cases h
    split at h
    · cases h
    · cases h; simp only [List.length_drop]; omega
  split at h
  · exact crc h
  · exact crc h
  · unfold unwrapSf at h
    split at h
    · cases h
    split at h
    · split at h
      · cases h
      · have := unwrapSfCrc_length_le h
        simp only [List.length_drop] at this; omega
    · exact unwrapSfCrc_length_le h
  · exact csp h
  · exact csp h
  · unfold unwrapOlc at h
    split at h
    · cases h
    split at h
    · cases h
    split at h
    · cases h
    · cases h; simp only [List.length_drop]; omega
  · unfold unwrapOls at h
    dsimp only at h
    split at h
    · cases h
    split at h
    · cases h
    split at h
    · cases h
    split at h
    · cases h
    · cases h; simp only [sub, List.length_take, List.length_drop]; omega
  · cases h

/-- A chain that passed the configuration check never wraps past the datapath. -/
theorem pipeWrap_length_le {p : Params} {c : Cfg} {v r : Bytes} (hp : p.wf) (hc : cfgCheck p c = none)
    (hv : v.length ≤ p.datapathMax) (h : pipeWrap p c v = .ok r) : r.length ≤ p.datapathMax :=
  runStages_induct (·.length ≤ p.datapathMax) (wrap p) c.chain
    (fun _ hq _ _ _ hw => wrap_length_le hp (chain_valid hc hq) hw) v r hv h

/-- A chain never unwraps to more than its input. -/
theorem pipeUnwrap_length_le {c : Cfg} {v r : Bytes} (h : pipeUnwrap c v = .ok r) : r.length ≤ v.length :=
  runStages_induct (·.length ≤ v.length) unwrap c.chain.reverse
    (fun _ _ _ _ hx hw => Nat.le_trans (unwrap_length_le hw) hx) v r (Nat.le_refl _) h

end Sys2Proof.Machine
end

