-- ==== Sys2Proof/Laws/Exec.lean ====
section
/-! SUPPORT. What a command can do to the state, once, and how long an output can be. -/

namespace Sys2Proof.Machine

theorem completeOk_eq (s : State) : s.completeOk = s.doneOk := rfl

theorem completeErr_eq (s : State) (e : Raised) : s.completeErr e = s.doneErr e.code.code (BitVec.ofNat 4 e.idx) := rfl

theorem exec_validateOf (k : HeaderKind) (s : State) :
    exec (Instr.validateOf k) s = .next (runCommand (Instr.validateOf k) (hdrValidate k) s) := by cases k <;> rfl

theorem exec_encodeOf (k : HeaderKind) (s : State) :
    exec (Instr.encodeOf k) s = .next (runCommand (Instr.encodeOf k) (hdrEncode k) s) := by cases k <;> rfl

theorem exec_decodeOf (k : HeaderKind) (s : State) :
    exec (Instr.decodeOf k) s = .next (runCommand (Instr.decodeOf k) (hdrDecode k) s) := by cases k <;> rfl

/-- A completion with the output v, when it fits OUT_BUF. -/
theorem wroteOut_completeOk (s : State) (v : Bytes) (h : v.length ≤ s.params.datapathMax) :
    wroteOut s (s.writeOut v).completeOk v := by
  refine ⟨rfl, fun a b hab => ?_, fun a ha => ?_⟩
  · have hl : a < v.length := by rw [List.getElem?_eq_some_iff] at hab; exact hab.1
    rw [State.completeOk_mem, State.writeOut_read v s h, if_pos (by omega), Nat.add_sub_cancel_left, hab]
  · rw [State.completeOk_mem, State.writeOut_read v s h, if_neg (by omega)]

/-- What a command can leave in one step: an error, a completion with at most one output, or SEND's push. An output fits
OUT_BUF when the sizes are lawful and the configuration, where locked, is a checked one. -/
inductive CommandEffect (i : Instr) (s : State) : State → Prop
  | failed (e : Raised) : CommandEffect i s (s.completeErr e)
  | plain : CommandEffect i s s.completeOk
  | out (v : Bytes)
      (hv : s.params.wf → (s.status.cfgLocked = true → cfgCheck s.params s.cfg = none) →
        v.length ≤ s.params.datapathMax) : CommandEffect i s (s.writeOut v).completeOk
  | result (v : Word) : CommandEffect i s (s.writeResult v).completeOk
  | fields (h : Vector Half 8) : CommandEffect i s (s.writeHf h).completeOk
  | lock (h : i = .cfgLock) (hc : cfgCheck s.params s.cfg = none) : CommandEffect i s (s.setLocked true).completeOk
  | unlock (h : i = .cfgUnlock) (hr : s.rx.state.running = false) : CommandEffect i s (s.setLocked false).completeOk
  | push (h : i = .send) (hl : s.status.cfgLocked = true) (f : Bytes) : CommandEffect i s (s.issuePush f)

theorem CommandEffect.ofRun {i : Instr} {body : State → Except Raised State} {s : State}
    (h : ∀ t, commonChecks i s = none → body s = .ok t → CommandEffect i s t.completeOk) :
    CommandEffect i s (runCommand i body s) := by
  rcases runCommand_cases i body s with ⟨e, -, he⟩ | ⟨e, -, -, he⟩ | ⟨t, hc, hb, ht⟩
  · rw [he]; exact .failed e
  · rw [he]; exact .failed e
  · rw [ht]; exact h t hc hb

theorem validate_effect (i : Instr) (k : HeaderKind) (s : State) :
    CommandEffect i s (runCommand i (hdrValidate k) s) := by
  refine .ofRun fun t _ hb => ?_
  unfold hdrValidate at hb
  split at hb
  · cases hb
  · cases hb; exact .plain

theorem encode_effect (i : Instr) (k : HeaderKind) (s : State) : CommandEffect i s (runCommand i (hdrEncode k) s) := by
  refine .ofRun fun t _ hb => ?_
  unfold hdrEncode encodeHeader at hb
  split at hb
  · cases hb
  · rename_i v hv
    split at hv
    · cases hv
    · cases hv; cases hb
      refine .out _ fun hp _ => ?_
      obtain ⟨-, h1, h2, -⟩ := hp
      rw [pack_length]; cases k <;> simp only [hlen] <;> omega

theorem decode_effect (i : Instr) (k : HeaderKind) (s : State) : CommandEffect i s (runCommand i (hdrDecode k) s) := by
  refine .ofRun fun t _ hb => ?_
  unfold hdrDecode at hb
  split at hb
  · cases hb
  · cases hb; exact .fields _

/-- Every command, in one step, does one of the things of `CommandEffect`. -/
theorem exec_command {i : Instr} {s t : State} (hf : i.format = .cmd) (h : exec i s = .next t) :
    CommandEffect i s t := by
  cases i with
  | nop =>
    cases h
    exact .ofRun fun u _ hb => by cases hb; exact .plain
  | cfgLock =>
    cases h
    refine .ofRun fun u _ hb => ?_
    unfold cfgLockBody at hb
    split at hb
    · cases hb
    · cases hb; exact .lock rfl ‹_›
  | cfgUnlock =>
    cases h
    refine .ofRun fun u _ hb => ?_
    unfold cfgUnlockBody at hb
    split at hb
    · cases hb
    · cases hb; exact .unlock rfl (by simp_all)
  | hdrValidateCspv1 => cases h; exact validate_effect _ _ s
  | hdrValidateCspv2 => cases h; exact validate_effect _ _ s
  | hdrValidateSfhdr => cases h; exact validate_effect _ _ s
  | hdrValidateOlchdr => cases h; exact validate_effect _ _ s
  | hdrValidateOlshdr => cases h; exact validate_effect _ _ s
  | hdrValidateOlsftr => cases h; exact validate_effect _ _ s
  | hdrEncodeCspv1 => cases h; exact encode_effect _ _ s
  | hdrEncodeCspv2 => cases h; exact encode_effect _ _ s
  | hdrEncodeSfhdr => cases h; exact encode_effect _ _ s
  | hdrEncodeOlchdr => cases h; exact encode_effect _ _ s
  | hdrEncodeOlshdr => cases h; exact encode_effect _ _ s
  | hdrEncodeOlsftr => cases h; exact encode_effect _ _ s
  | hdrDecodeCspv1 => cases h; exact decode_effect _ _ s
  | hdrDecodeCspv2 => cases h; exact decode_effect _ _ s
  | hdrDecodeSfhdr => cases h; exact decode_effect _ _ s
  | hdrDecodeOlchdr => cases h; exact decode_effect _ _ s
  | hdrDecodeOlshdr => cases h; exact decode_effect _ _ s
  | hdrDecodeOlsftr => cases h; exact decode_effect _ _ s
  | crcAdp idx =>
    cases h
    refine .ofRun fun u _ hb => ?_
    unfold crcAdpBody at hb
    split at hb
    · cases hb
    · cases hb; exact .result _
  | crcCc1110 => cases h; exact .ofRun fun u _ hb => by cases hb; exact .result _
  | crcC32c => cases h; exact .ofRun fun u _ hb => by cases hb; exact .result _
  | crcC32ieee => cases h; exact .ofRun fun u _ hb => by cases hb; exact .result _
  | adpWrap idx =>
    cases h
    refine .ofRun fun u hc hb => ?_
    obtain ⟨hl, hi, -, -⟩ := commonChecks_none hc
    unfold output at hb
    split at hb
    · cases hb
    · rename_i v hv
      cases hb
      exact .out v fun hp hk => wrap_length_le hp ((cfgCheck_none (hk (hl rfl))).2.2.2.2.2 idx (hi idx rfl)) hv
  | adpUnwrap idx =>
    cases h
    refine .ofRun fun u hc hb => ?_
    obtain ⟨-, -, -, hr⟩ := commonChecks_none hc
    unfold output at hb
    split at hb
    · cases hb
    · rename_i v hv
      cases hb
      refine .out v fun _ _ => Nat.le_trans (unwrap_length_le hv) ?_
      rw [State.input_length]; exact hr rfl
  | adpWsize idx => cases h; exact .ofRun fun u _ hb => by cases hb; exact .result _
  | pipeWrap =>
    cases h
    refine .ofRun fun u hc hb => ?_
    obtain ⟨hl, -, -, hr⟩ := commonChecks_none hc
    unfold pipeOutput at hb
    split at hb
    · cases hb
    · rename_i v hv
      cases hb
      exact .out v fun hp hk => pipeWrap_length_le hp (hk (hl rfl)) (by rw [State.input_length]; exact hr rfl) hv
  | pipeUnwrap =>
    cases h
    refine .ofRun fun u hc hb => ?_
    obtain ⟨-, -, -, hr⟩ := commonChecks_none hc
    unfold pipeOutput at hb
    split at hb
    · cases hb
    · rename_i v hv
      cases hb
      refine .out v fun _ _ => Nat.le_trans (pipeUnwrap_length_le hv) ?_
      rw [State.input_length]; exact hr rfl
  | pipeWsize => cases h; exact .ofRun fun u _ hb => by cases hb; exact .result _
  | send =>
    simp only [exec, execSend] at h
    split at h
    · cases h; exact .failed _
    · rename_i hc
      split at h
      · cases h; exact .failed _
      · cases h; exact .push rfl ((commonChecks_none hc).1 rfl) _
  | rxStart => cases hf
  | rxReset => cases hf
  | rxCancel => cases hf
  | rxMsgPop => cases hf
  | rxErrPop => cases hf

/-- Every word that decodes is a command. -/
theorem decodeCmd_format {c : Word} {i : Instr} (h : decodeCmd c = .ok i) : i.format = .cmd := by
  unfold decodeCmd at h
  split at h
  · cases h
  split at h
  · rename_i j hj
    cases h
    unfold indexedOfOpc at hj
    split at hj <;> cases hj <;> rfl
  split at h
  · cases h
  split at h
  · rename_i j hj
    cases h
    unfold plainOfOpc at hj
    split at hj <;> cases hj <;> rfl
  split at h
  · cases h
  rename_i op hop
  split at h
  · cases h
  · rename_i k hk
    cases h
    unfold headerOpOf at hop
    split at hop <;> cases hop <;> cases k <;> rfl

end Sys2Proof.Machine
end

