-- ==== Sys2Proof/Laws/PerInstr.lean ====
section
/-! SUPPORT. Statements about every instruction of the opcode table, one lemma per constructor. -/

namespace Sys2Proof.Laws

/-- The column "mask" of spec/opcode_table.json. -/
def tableMask : Instr → Word
  | .nop => 0xFFFFFFFF
  | .cfgLock => 0xFFFFFFFF
  | .cfgUnlock => 0xFFFFFFFF
  | .hdrValidateCspv1 => 0xFFFFFFFF
  | .hdrValidateCspv2 => 0xFFFFFFFF
  | .hdrValidateSfhdr => 0xFFFFFFFF
  | .hdrValidateOlchdr => 0xFFFFFFFF
  | .hdrValidateOlshdr => 0xFFFFFFFF
  | .hdrValidateOlsftr => 0xFFFFFFFF
  | .hdrEncodeCspv1 => 0xFFFFFFFF
  | .hdrEncodeCspv2 => 0xFFFFFFFF
  | .hdrEncodeSfhdr => 0xFFFFFFFF
  | .hdrEncodeOlchdr => 0xFFFFFFFF
  | .hdrEncodeOlshdr => 0xFFFFFFFF
  | .hdrEncodeOlsftr => 0xFFFFFFFF
  | .hdrDecodeCspv1 => 0xFFFFFFFF
  | .hdrDecodeCspv2 => 0xFFFFFFFF
  | .hdrDecodeSfhdr => 0xFFFFFFFF
  | .hdrDecodeOlchdr => 0xFFFFFFFF
  | .hdrDecodeOlshdr => 0xFFFFFFFF
  | .hdrDecodeOlsftr => 0xFFFFFFFF
  | .crcAdp _ => 0xFFFFF0FF
  | .crcCc1110 => 0xFFFFFFFF
  | .crcC32c => 0xFFFFFFFF
  | .crcC32ieee => 0xFFFFFFFF
  | .adpWrap _ => 0xFFFFF0FF
  | .adpUnwrap _ => 0xFFFFF0FF
  | .adpWsize _ => 0xFFFFF0FF
  | .pipeWrap => 0xFFFFFFFF
  | .pipeUnwrap => 0xFFFFFFFF
  | .pipeWsize => 0xFFFFFFFF
  | .send => 0xFFFFFFFF
  | .rxStart => 0x00000001
  | .rxReset => 0x00000002
  | .rxCancel => 0x00000004
  | .rxMsgPop => 0x00000008
  | .rxErrPop => 0x00000010

/-- The column "match" of spec/opcode_table.json. -/
def tableMatch : Instr → Word
  | .nop => 0x00000000
  | .cfgLock => 0x00000001
  | .cfgUnlock => 0x00000002
  | .hdrValidateCspv1 => 0x00000010
  | .hdrValidateCspv2 => 0x00000011
  | .hdrValidateSfhdr => 0x00000012
  | .hdrValidateOlchdr => 0x00000013
  | .hdrValidateOlshdr => 0x00000014
  | .hdrValidateOlsftr => 0x00000015
  | .hdrEncodeCspv1 => 0x00000020
  | .hdrEncodeCspv2 => 0x00000021
  | .hdrEncodeSfhdr => 0x00000022
  | .hdrEncodeOlchdr => 0x00000023
  | .hdrEncodeOlshdr => 0x00000024
  | .hdrEncodeOlsftr => 0x00000025
  | .hdrDecodeCspv1 => 0x00000030
  | .hdrDecodeCspv2 => 0x00000031
  | .hdrDecodeSfhdr => 0x00000032
  | .hdrDecodeOlchdr => 0x00000033
  | .hdrDecodeOlshdr => 0x00000034
  | .hdrDecodeOlsftr => 0x00000035
  | .crcAdp _ => 0x00000040
  | .crcCc1110 => 0x00000041
  | .crcC32c => 0x00000042
  | .crcC32ieee => 0x00000043
  | .adpWrap _ => 0x00000050
  | .adpUnwrap _ => 0x00000051
  | .adpWsize _ => 0x00000052
  | .pipeWrap => 0x00000060
  | .pipeUnwrap => 0x00000061
  | .pipeWsize => 0x00000062
  | .send => 0x00000063
  | .rxStart => 0x00000001
  | .rxReset => 0x00000002
  | .rxCancel => 0x00000004
  | .rxMsgPop => 0x00000008
  | .rxErrPop => 0x00000010

/-- The word of a well-formed instruction shows its row of the opcode table: the fixed bits are the row's, and the bits
outside them are its adapter index, 0 when it takes none. -/
def TableMatch.Statement (i : Instr) : Prop :=
  i.wf = true → encode i &&& tableMask i = tableMatch i
    ∧ (i.format = .cmd → encode i &&& ~~~tableMask i = BitVec.ofNat 32 i.index <<< 8)

/-- The four indexed rows: the words of the sixteen indices. -/
theorem tableMatch_of_lt {f : Nat → Instr} (h : ∀ n : Fin 16, TableMatch.Statement (f n.val)) {n : Nat} (hn : n < 16) :
    TableMatch.Statement (f n) := h ⟨n, hn⟩

theorem TableMatch.nop : TableMatch.Statement .nop := by unfold TableMatch.Statement; decide

theorem TableMatch.cfgLock : TableMatch.Statement .cfgLock := by unfold TableMatch.Statement; decide

theorem TableMatch.cfgUnlock : TableMatch.Statement .cfgUnlock := by unfold TableMatch.Statement; decide

theorem TableMatch.hdrValidateCspv1 : TableMatch.Statement .hdrValidateCspv1 := by unfold TableMatch.Statement; decide

theorem TableMatch.hdrValidateCspv2 : TableMatch.Statement .hdrValidateCspv2 := by unfold TableMatch.Statement; decide

theorem TableMatch.hdrValidateSfhdr : TableMatch.Statement .hdrValidateSfhdr := by unfold TableMatch.Statement; decide

theorem TableMatch.hdrValidateOlchdr : TableMatch.Statement .hdrValidateOlchdr := by unfold TableMatch.Statement; decide

theorem TableMatch.hdrValidateOlshdr : TableMatch.Statement .hdrValidateOlshdr := by unfold TableMatch.Statement; decide

theorem TableMatch.hdrValidateOlsftr : TableMatch.Statement .hdrValidateOlsftr := by unfold TableMatch.Statement; decide

theorem TableMatch.hdrEncodeCspv1 : TableMatch.Statement .hdrEncodeCspv1 := by unfold TableMatch.Statement; decide

theorem TableMatch.hdrEncodeCspv2 : TableMatch.Statement .hdrEncodeCspv2 := by unfold TableMatch.Statement; decide

theorem TableMatch.hdrEncodeSfhdr : TableMatch.Statement .hdrEncodeSfhdr := by unfold TableMatch.Statement; decide

theorem TableMatch.hdrEncodeOlchdr : TableMatch.Statement .hdrEncodeOlchdr := by unfold TableMatch.Statement; decide

theorem TableMatch.hdrEncodeOlshdr : TableMatch.Statement .hdrEncodeOlshdr := by unfold TableMatch.Statement; decide

theorem TableMatch.hdrEncodeOlsftr : TableMatch.Statement .hdrEncodeOlsftr := by unfold TableMatch.Statement; decide

theorem TableMatch.hdrDecodeCspv1 : TableMatch.Statement .hdrDecodeCspv1 := by unfold TableMatch.Statement; decide

theorem TableMatch.hdrDecodeCspv2 : TableMatch.Statement .hdrDecodeCspv2 := by unfold TableMatch.Statement; decide

theorem TableMatch.hdrDecodeSfhdr : TableMatch.Statement .hdrDecodeSfhdr := by unfold TableMatch.Statement; decide

theorem TableMatch.hdrDecodeOlchdr : TableMatch.Statement .hdrDecodeOlchdr := by unfold TableMatch.Statement; decide

theorem TableMatch.hdrDecodeOlshdr : TableMatch.Statement .hdrDecodeOlshdr := by unfold TableMatch.Statement; decide

theorem TableMatch.hdrDecodeOlsftr : TableMatch.Statement .hdrDecodeOlsftr := by unfold TableMatch.Statement; decide

theorem TableMatch.crcAdp (idx : Nat) : TableMatch.Statement (.crcAdp idx) := by
  intro h
  exact tableMatch_of_lt (f := .crcAdp) (by unfold TableMatch.Statement; decide) (by simpa [Instr.wf] using h) h

theorem TableMatch.crcCc1110 : TableMatch.Statement .crcCc1110 := by unfold TableMatch.Statement; decide

theorem TableMatch.crcC32c : TableMatch.Statement .crcC32c := by unfold TableMatch.Statement; decide

theorem TableMatch.crcC32ieee : TableMatch.Statement .crcC32ieee := by unfold TableMatch.Statement; decide

theorem TableMatch.adpWrap (idx : Nat) : TableMatch.Statement (.adpWrap idx) := by
  intro h
  exact tableMatch_of_lt (f := .adpWrap) (by unfold TableMatch.Statement; decide) (by simpa [Instr.wf] using h) h

theorem TableMatch.adpUnwrap (idx : Nat) : TableMatch.Statement (.adpUnwrap idx) := by
  intro h
  exact tableMatch_of_lt (f := .adpUnwrap) (by unfold TableMatch.Statement; decide) (by simpa [Instr.wf] using h) h

theorem TableMatch.adpWsize (idx : Nat) : TableMatch.Statement (.adpWsize idx) := by
  intro h
  exact tableMatch_of_lt (f := .adpWsize) (by unfold TableMatch.Statement; decide) (by simpa [Instr.wf] using h) h

theorem TableMatch.pipeWrap : TableMatch.Statement .pipeWrap := by unfold TableMatch.Statement; decide

theorem TableMatch.pipeUnwrap : TableMatch.Statement .pipeUnwrap := by unfold TableMatch.Statement; decide

theorem TableMatch.pipeWsize : TableMatch.Statement .pipeWsize := by unfold TableMatch.Statement; decide

theorem TableMatch.send : TableMatch.Statement .send := by unfold TableMatch.Statement; decide

theorem TableMatch.rxStart : TableMatch.Statement .rxStart := by unfold TableMatch.Statement; decide

theorem TableMatch.rxReset : TableMatch.Statement .rxReset := by unfold TableMatch.Statement; decide

theorem TableMatch.rxCancel : TableMatch.Statement .rxCancel := by unfold TableMatch.Statement; decide

theorem TableMatch.rxMsgPop : TableMatch.Statement .rxMsgPop := by unfold TableMatch.Statement; decide

theorem TableMatch.rxErrPop : TableMatch.Statement .rxErrPop := by unfold TableMatch.Statement; decide

end Sys2Proof.Laws
end

