-- ==== Sys2Proof/Laws/Run.lean ====
section
/-! SUPPORT. Runs: one step of a run, that fairness completes every command but SEND (70_reset_and_hazards.md R446), and
that endless Zero answers leave a run stuck (R440). -/

namespace Sys2Proof.Machine

/-- `step` is the step of the agent whose turn it is, with free oracles. -/
theorem step_eq_stepBy (s : State) : step s = stepBy Config.ports s.turn s := rfl

/-- One more step of a run that has not stopped. -/
theorem Launch.after_succ {l : Launch} {σ : Interleaving} {n : Nat} {s : State} (h : l.after σ n = .next s) :
    l.after σ (n + 1) = stepBy l.ports (σ n) s := by simp [Launch.after, h]

/-- A run that has stopped stays stopped. -/
theorem Launch.after_fault {l : Launch} {σ : Interleaving} {n : Nat} {f : Fault} (h : l.after σ n = .fault f) :
    l.after σ (n + 1) = .fault f := by simp [Launch.after, h]

/-- Command word c is in flight, not waiting for the SINK. -/
structure InFlight (c : Word) (s : State) : Prop where
  cmd : s.cmd = some c
  busy : s.status.busy = true
  unpushed : s.sinkPending = none
  unanswered : s.sinkAnswer = none

theorem InFlight.drop {c : Word} {s : State} (h : InFlight c s) : InFlight c s.drop := ⟨h.1, h.2, h.3, h.4⟩

/-- What only the receiver's registers tell apart has the same command in flight. -/
theorem InFlight.of_eq {c : Word} {s t : State} (h : InFlight c s) (h1 : t.cmd = s.cmd) (h2 : t.status = s.status)
    (h3 : t.sinkPending = s.sinkPending) (h4 : t.sinkAnswer = s.sinkAnswer) : InFlight c t :=
  ⟨h1.trans h.1, by rw [h2]; exact h.2, h3.trans h.3, h4.trans h.4⟩

theorem InFlight.enterTop {c : Word} {s : State} (h : InFlight c s) : InFlight c s.enterTop :=
  h.of_eq (by simp) (by simp) (by simp) (by simp)

theorem InFlight.action {c : Word} {i : Instr} {s t : State} (h : InFlight c s) (hf : i.format = .rxctrl)
    (he : exec i s = .next t) : InFlight c t := by
  cases i <;> simp only [Instr.format, reduceCtorEq] at hf <;> simp only [exec] at he
  · unfold execRxStart at he; split at he <;> cases he
    · exact InFlight.enterTop ⟨h.1, h.2, h.3, h.4⟩
    · exact ⟨h.1, h.2, h.3, h.4⟩
  · unfold execRxReset at he; split at he <;> cases he <;> exact ⟨h.1, h.2, h.3, h.4⟩
  · cases he; exact ⟨h.1, h.2, h.3, h.4⟩
  · unfold execRxMsgPop at he; split at he <;> cases he
    · exact InFlight.enterTop ⟨h.1, h.2, h.3, h.4⟩
    · exact h
  · unfold execRxErrPop at he; split at he <;> cases he
    · exact InFlight.enterTop ⟨h.1, h.2, h.3, h.4⟩
    · exact h

theorem InFlight.write {c v : Word} {s t : State} {r : Reg} (h : InFlight c s) (he : writeReg v s r = .next t) :
    InFlight c t := by
  cases r <;> simp only [writeReg, Host.Outcome.next.injEq, operandWrite, cmdWrite, configWrite, h.busy, if_true] at he
  case rxCtrl => exact runActions_induct _ _ (fun i hi s t hs he => hs.action (decodeRxctrl_format v i hi) he) s t h he
  all_goals first
    | (subst he; exact h.drop)
    | (subst he; exact ⟨h.1, h.2, h.3, h.4⟩)
    | (split at he <;> subst he <;> exact ⟨h.1, h.2, h.3, h.4⟩)

theorem InFlight.host {c : Word} {s t : State} (h : InFlight c s) (he : hostStep s = .next t) : InFlight c t := by
  unfold hostStep at he
  split at he
  · cases he; exact h
  · rename_i stmt rest _
    have h' : InFlight c { s with program := rest } := ⟨h.1, h.2, h.3, h.4⟩
    cases stmt <;> simp only [runStmt] at he
    · split at he
      · unfold busWrite at he
        split at he
        · exact h'.write he
        · cases he; exact h'
      · cases he
    · split at he <;> cases he
      exact ⟨h.1, h.2, h.3, h.4⟩
    · split at he
      · split at he <;> cases he <;> exact ⟨h.1, h.2, h.3, h.4⟩
      · cases he
    · split at he <;> cases he <;> exact ⟨h.1, h.2, h.3, h.4⟩

theorem InFlight.rx {c : Word} {s : State} (h : InFlight c s) : InFlight c (rxStep s) := by
  unfold rxStep rxStep?
  split
  · exact h
  · split
    · rcases seekStep_cases s with ⟨j, -, he⟩ | ⟨-, he⟩ <;> simp only [Option.getD_some, he] <;>
        exact ⟨h.1, h.2, h.3, h.4⟩
    · rcases readStep_cases s with ⟨-, he⟩ | ⟨-, -, he⟩ | ⟨-, -, he⟩ <;> simp only [Option.getD_some, he] <;>
        exact ⟨h.1, h.2, h.3, h.4⟩
    · split
      · exact ⟨h.1, h.2, h.3, h.4⟩
      · rename_i it _
        rcases offerStep_cases it s with ⟨-, he⟩ | ⟨x, -, -, he⟩ | ⟨e, st, i, -, -, -, he⟩ | ⟨e, st, i, -, -, -, he⟩ <;>
          simp only [Option.getD_some, he] <;> exact ⟨h.1, h.2, h.3, h.4⟩
    · split
      · exact ⟨h.1, h.2, h.3, h.4⟩
      · exact h
    · split
      · exact ⟨h.1, h.2, h.3, h.4⟩
      · exact h
    all_goals exact h

theorem InFlight.source {c : Word} {s : State} (o : Ports) (h : InFlight c s) : InFlight c (sourceStep o s) := by
  unfold sourceStep
  split
  · rename_i stage k a rest _ _
    generalize presentSource k a = p
    have h' : InFlight c { s with
        pullPending := none, sourcePlan := p.2 ++ rest, portLog := s.portLog ++ [.pulled p.1] } := ⟨h.1, h.2, h.3, h.4⟩
    cases hp : p.1 <;> cases stage <;> simp only [handleSource, sourceEof, sourceError] <;> (try split) <;>
      exact ⟨h.1, h.2, h.3, h.4⟩
  · exact h

/-- The agents other than CODEC leave a command in flight as it is, or a reset ends it. -/
theorem InFlight.others {c : Word} {s t : State} {o : Ports} {a : Agent} (h : InFlight c s) (ha : a ≠ .codec)
    (he : stepBy o a s = .next t) : InFlight c t ∨ t.cmd = none := by
  have h' : InFlight c s.begin := ⟨h.1, h.2, h.3, h.4⟩
  cases a with
  | codec => exact absurd rfl ha
  | host => exact .inl (h'.host he)
  | rx => cases he; exact .inl h'.rx
  | source => cases he; exact .inl (h'.source o)
  | sink => cases he; exact .inl (by unfold sinkStep; rw [h'.unpushed]; exact h')
  | rst => cases he; exact .inr rfl

/-- CODEC's turn completes a command in flight other than SEND. -/
theorem InFlight.completes {c : Word} {s t : State} {o : Ports} (h : InFlight c s) (hc : decodeCmd c ≠ .ok .send)
    (he : stepBy o .codec s = .next t) : t.cmd = none := by
  simp only [stepBy, agentStep, codecStep, State.begin_cmd, h.cmd, State.begin_sinkAnswer, h.unanswered,
    State.begin_sinkPending, h.unpushed, Option.isSome_none, Bool.false_eq_true, if_false] at he
  split at he
  · cases he; rfl
  · rename_i i hi
    cases exec_command (decodeCmd_format hi) he with
    | push hs _ _ => rw [hs] at hi; exact absurd hi hc
    | _ => rfl

/-- In a fair run that never faults every command but SEND is over after finitely many steps
(70_reset_and_hazards.md R446). -/
theorem Launch.fair_completes {l : Launch} {σ : Interleaving} (hf : l.Fair σ) (hr : ∀ n, ∃ s, l.after σ n = .next s)
    {n : Nat} {s : State} {c : Word} (hs : l.after σ n = .next s) (h : InFlight c s) (hc : decodeCmd c ≠ .ok .send) :
    ∃ m t, n ≤ m ∧ l.after σ m = .next t ∧ t.cmd = none := by
  apply Classical.byContradiction
  intro hno
  have stays : ∀ d, ∃ t, l.after σ (n + d) = .next t ∧ InFlight c t := by
    intro d
    induction d with
    | zero => exact ⟨s, hs, h⟩
    | succ d ih =>
      obtain ⟨t, ht, hi⟩ := ih
      obtain ⟨u, hu⟩ := hr (n + (d + 1))
      have hst : stepBy l.ports (σ (n + d)) t = .next u := (Launch.after_succ ht).symm.trans hu
      have hu0 : u.cmd ≠ none := fun h0 => hno ⟨n + (d + 1), u, by omega, hu, h0⟩
      by_cases ha : σ (n + d) = .codec
      · rw [ha] at hst
        exact absurd (hi.completes hc hst) hu0
      · rcases hi.others ha hst with h1 | h1
        · exact ⟨u, hu, h1⟩
        · exact absurd h1 hu0
  have stays' : ∀ m, n ≤ m → ∃ t, l.after σ m = .next t ∧ InFlight c t := fun m hm => by
    have := stays (m - n)
    rwa [show n + (m - n) = m by omega] at this
  obtain ⟨m, hm, ha⟩ := hf.codec n fun m hm => by
    obtain ⟨t, ht, hi⟩ := stays' m hm
    exact ⟨t, ht, by simp [codecEnabled, hi.cmd, hi.unpushed]⟩
  obtain ⟨t, ht, hi⟩ := stays' m hm
  obtain ⟨u, hu⟩ := hr (m + 1)
  have hst : stepBy l.ports (σ m) t = .next u := (Launch.after_succ ht).symm.trans hu
  rw [ha] at hst
  exact hno ⟨m + 1, u, by omega, hu, hi.completes hc hst⟩

/-- While an item is offered an RX step is enabled exactly under a pending cancellation, so in a fair run no cancelled item
stays offered forever (44_frame_receiver.md R348, 70_reset_and_hazards.md R449). -/
theorem rxEnabled_of_offered {s : State} (h : s.rx.state = .delivering ∨ s.rx.state = .reporting)
    (hp : s.pullPending = none) : rxEnabled s = s.rx.cancelPending := by
  cases hc : s.rx.cancelPending <;> rcases h with h | h <;> simp [rxEnabled, rxStep?, h, hp, hc]

/-- A receiver that seeks in an empty buffer, its pull outstanding (w) or still to come, beside a HOST whose program is not
done and a CODEC without a command. -/
structure ZeroLoop (w : Bool) (s : State) : Prop where
  seeking : s.rx.state = .seeking
  buffer : s.rdbuf = []
  miss : findMarker s.cfg.sync [] = none
  plan : s.sourcePlan = []
  idle : s.cmd = none
  program : s.program ≠ []
  pull : s.pullPending = if w then some (.seek, s.params.rdbufCap) else none

/-- RX pulls again and leaves the SOURCE's latest answer the latest. -/
theorem ZeroLoop.rx {s : State} (o : Ports) (h : ZeroLoop false s) :
    ∃ t, stepBy o .rx s = .next t ∧ ZeroLoop true t ∧ t.lastPulled = s.lastPulled := by
  have hp : s.pullPending = none := h.pull
  refine ⟨_, rfl, ?_⟩
  have he : rxStep s.begin = s.begin.issuePull .seek s.params.rdbufCap := by
    simp [rxStep, rxStep?, hp, h.seeking, seekStep, h.buffer, h.miss, keepTail, State.issuePull, State.begin]
  simp only [he]
  exact ⟨⟨h.1, h.2, h.3, h.4, h.5, h.6, rfl⟩,
    by simp [State.lastPulled, State.issuePull, State.begin, List.findSome?, PortEvent.sourceAnswer]⟩

/-- Under Retry a SOURCE that answers `Zero` changes nothing but the history of its port. -/
theorem ZeroLoop.source {s : State} {o : Ports} (hz : Config.zeroReadPolicy = .retry) (ho : ∀ l, o.source l = some .zero)
    (h : ZeroLoop true s) :
    ∃ t, stepBy o .source s = .next t ∧ ZeroLoop false t ∧ t.lastPulled = some .zero
      ∧ t.portLog = s.portLog ++ [.pulled .zero] := by
  have hp : s.pullPending = some (.seek, s.params.rdbufCap) := h.pull
  refine ⟨_, rfl, ?_⟩
  have he : sourceStep o s.begin =
      { s.begin with pullPending := none, portLog := s.portLog ++ [.pulled .zero] } := by
    simp [sourceStep, State.sourceNext, nextAnswer, hp, h.plan, ho, presentSource, handleSource, hz, State.begin]
  simp only [he]
  exact ⟨⟨h.1, h.2, h.3, h.4, h.5, h.6, rfl⟩, by simp [State.lastPulled, List.findSome?, PortEvent.sourceAnswer], trivial⟩

/-- The SOURCE and RX take turns, the SOURCE first. -/
def sourceRx : Interleaving := fun n => if n % 2 = 0 then .source else .rx

/-- 70_reset_and_hazards.md R440: under Retry a SOURCE that answers every pull with `Zero` leaves a run stuck, the receiver
and the SOURCE taking steps for ever. -/
theorem Launch.zero_reads_stuck {l : Launch} (hz : Config.zeroReadPolicy = .retry)
    (ho : ∀ h, l.ports.source h = some .zero) (h0 : ZeroLoop true l.start) :
    l.EndsAs sourceRx (.stuck .zeroReads) := by
  have at_ : ∀ n, ∃ s, l.after sourceRx n = .next s ∧ ZeroLoop (n % 2 = 0) s ∧ (1 ≤ n → s.lastPulled = some .zero) := by
    intro n
    induction n with
    | zero => exact ⟨l.start, rfl, h0, fun h => absurd h (by omega)⟩
    | succ n ih =>
      obtain ⟨s, hs, h, hl⟩ := ih
      rw [Launch.after_succ hs]
      rcases Nat.mod_two_eq_zero_or_one n with hn | hn
      · obtain ⟨t, ht, hf, hv, -⟩ := ZeroLoop.source hz ho (by simpa [hn] using h)
        exact ⟨t, by simpa [sourceRx, hn] using ht, by simpa [show (n + 1) % 2 = 1 by omega] using hf, fun _ => hv⟩
      · obtain ⟨t, ht, hf, hv⟩ := ZeroLoop.rx l.ports (by simpa [hn] using h)
        exact ⟨t, by simpa [sourceRx, hn] using ht, by simpa [show (n + 1) % 2 = 0 by omega] using hf,
          fun _ => hv.trans (hl (by omega))⟩
  refine ⟨⟨fun n h => ?_, fun n _ => ⟨2 * n + 1, by omega, if_neg (by omega)⟩⟩, fun m _ => ?_, ⟨1, fun m hm => ?_⟩,
    fun n => ⟨2 * n, by omega, ?_⟩⟩
  · obtain ⟨s, hs, hc⟩ := h n (Nat.le_refl n)
    obtain ⟨t, ht, z, -⟩ := at_ n
    rw [hs] at ht
    cases ht
    simp [codecEnabled, z.idle] at hc
  · obtain ⟨t, ht, z, -⟩ := at_ m
    exact ⟨t, ht, by simp [State.ended, z.program]⟩
  · obtain ⟨t, ht, z, hl⟩ := at_ m
    exact ⟨t, ht, by simp [State.waitsFor, z.seeking, hl hm]⟩
  · obtain ⟨s, hs, z, -⟩ := at_ (2 * n)
    obtain ⟨t, ht, -, -, hg⟩ := ZeroLoop.source hz ho (by simpa using z)
    exact ⟨s, t, hs, by rw [Launch.after_succ hs]; simpa [sourceRx] using ht, hg⟩

end Sys2Proof.Machine
end

