-- ==== Sys2Proof/Tests/Slice0.lean ====
section
/-! SUPPORT. The model's own tests: one step each, with the expected values of spec/95_test_vectors.md (named in each
docstring); what the well-formedness checks and the decoder refuse; and a witness for every statement with hypotheses. -/

namespace Sys2Proof.Tests

-- The kernel evaluates the tests one after another: side by side each would take a thread and its stack.
set_option Elab.async false

open Sys2Proof Sys2Proof.Machine

/-! ## Helpers -/

/-- The state an outcome gives, or the reset state. -/
def got (o : Host.Outcome State Fault Refusal) : State :=
  match o with
  | .next t => t
  | .fault _ | .refused _ => State.reset

/-- An outcome is a next state. -/
def isNext (o : Host.Outcome State Fault Refusal) : Bool :=
  match o with
  | .next _ => true
  | .fault _ | .refused _ => false

theorem next_got {o : Host.Outcome State Fault Refusal} (h : isNext o = true) : o = .next (got o) := by
  cases o <;> simp_all [isNext, got]

/-- One step that runs the command word w. -/
def ran (w : Nat) (s : State) : State := got (step (s.withFetchWord 32 w))

/-- One step that performs the RX_CTRL word w. -/
def acted (w : Nat) (s : State) : State := got (step (s.withFetchWord 8 w))

/-- OUT_BUF[0 : OUT_LEN]. -/
def out (s : State) : Bytes := (List.range s.outLen.toNat).filterMap fun a => s.mem.read (outBase + a)

/-- STATUS and the output bytes. -/
def statusOut (s : State) : Word × Bytes := (s.status.word, out s)

/-- STATUS and RESULT. -/
def statusResult (s : State) : Word × Word := (s.status.word, s.result)

/-- STATUS and HF0..HF7. -/
def statusHf (s : State) : Word × List Nat := (s.status.word, s.hf.toList.map (·.toNat))

/-- A header value in the HF registers, unlisted slots 0. -/
def withHf (vs : List Nat) (s : State) : State := { s with hf := Vector.ofFn fun j => BitVec.ofNat 16 (vs.getD j.val 0) }

/-- `loadin`: the input bytes and IN_LEN. -/
def load (v : Bytes) (s : State) : State := { s with mem := Memory.cells inBase v, inLen := BitVec.ofNat 16 v.length }

/-- A descriptor by its four words. -/
def desc (w0 w1 w2 w3 : Word) : Desc := (((Desc.reset.setWord 0 w0).setWord 1 w1).setWord 2 w2).setWord 3 w3

/-- The configuration with sync FF, the frame size fs and the chain ds. -/
def chainCfg (fs : Half) (ds : List Desc) : Cfg :=
  { syncLen := 1, sync0 := 0xFF, sync1 := 0, frameSize := fs, nAdp := BitVec.ofNat 4 ds.length, errqEn := true
    adp := Vector.ofFn fun i => ds.getD i.val Desc.reset }

/-- The reset state with that configuration. -/
def configured (fs : Half) (ds : List Desc) : State := { State.reset with cfg := chainCfg fs ds }

/-- The same, after a successful CFG.LOCK. -/
def locked (fs : Half) (ds : List Desc) : State :=
  { configured fs ds with status := { Status.reset with done := true, cfgLocked := true } }

/-- Descriptor CSP1 of the vectors. -/
def csp1 : Desc := desc 0x4 5 0x000A000B 0x00142802

/-- Descriptor CSP2 of the vectors. -/
def csp2 : Desc := desc 0x5 16 0x06C00B1C 0x003F1003

/-- Descriptor C32C of the vectors. -/
def crc32c : Desc := desc 0x202 0 0 0

/-- Descriptor CCITT of the vectors. -/
def ccitt : Desc := desc 0x1 0xFFFF1021 0 0

/-- Descriptor X25 of the vectors. -/
def x25 : Desc := desc 0x301 0xFFFF1021 0xFFFF 0

/-- Descriptor OLC of the vectors. -/
def olc : Desc := desc 0x6 0x000C02F3 0 0x000039D4

/-- Descriptor OLS of the vectors. -/
def ols : Desc := desc 0x7 0x010207FF 0 0x00011105

/-- Descriptor SF(p, 1, 1) of the vectors. -/
def sf (p : Word) : Desc := desc 0xC03 p 0 0

/-- The smallest lawful sizes. -/
def smallest : Params := { syncMax := 1, frameMax := 1, datapathMax := 11, adpMax := 1, rdbufCap := 4 }

/-- The largest lawful sizes. -/
def largest : Params := { syncMax := 8, frameMax := 4086, datapathMax := 4096, adpMax := 8, rdbufCap := 9000 }

/-- The bytes of ASCII "123456789". -/
def digits : Bytes := [0x31, 0x32, 0x33, 0x34, 0x35, 0x36, 0x37, 0x38, 0x39]

/-! ## Well-formedness -/

/-- An adapter index of 16 has no encoding. -/
theorem test_wf_index : (Instr.crcAdp 16).wf = false ∧ (Instr.adpWrap 16).wf = false ∧ (Instr.adpUnwrap 16).wf = false
    ∧ (Instr.adpWsize 16).wf = false ∧ (Instr.adpWsize 15).wf = true := by decide

/-- A 16-bit access and a misaligned one are not performed. -/
theorem test_wf_access : (HostStmt.wr 0x00C 2 0).wf = false ∧ (HostStmt.wr 0x006 4 0).wf = false
    ∧ (HostStmt.rd 0x001 4).wf = false ∧ (HostStmt.rd 0x008 1).wf = false ∧ (HostStmt.poll 0x00A 0 0).wf = false
    ∧ (HostStmt.rd 0xFFFC 4).wf = true := by decide

/-! ## Decoding: the words of 30_encoding.md R114, R117 and R121, written out -/

/-- Command words: plain. -/
theorem test_decode_plain :
    decodeTableWord 32 0x00000000 = some .nop
    ∧ decodeTableWord 32 0x00000001 = some .cfgLock
    ∧ decodeTableWord 32 0x00000002 = some .cfgUnlock
    ∧ decodeTableWord 32 0x00000041 = some .crcCc1110
    ∧ decodeTableWord 32 0x00000042 = some .crcC32c
    ∧ decodeTableWord 32 0x00000043 = some .crcC32ieee
    ∧ decodeTableWord 32 0x00000060 = some .pipeWrap
    ∧ decodeTableWord 32 0x00000061 = some .pipeUnwrap
    ∧ decodeTableWord 32 0x00000062 = some .pipeWsize
    ∧ decodeTableWord 32 0x00000063 = some .send := by decide +kernel

/-- Command words: header. -/
theorem test_decode_header :
    decodeTableWord 32 0x00000010 = some .hdrValidateCspv1
    ∧ decodeTableWord 32 0x00000011 = some .hdrValidateCspv2
    ∧ decodeTableWord 32 0x00000012 = some .hdrValidateSfhdr
    ∧ decodeTableWord 32 0x00000013 = some .hdrValidateOlchdr
    ∧ decodeTableWord 32 0x00000014 = some .hdrValidateOlshdr
    ∧ decodeTableWord 32 0x00000015 = some .hdrValidateOlsftr
    ∧ decodeTableWord 32 0x00000020 = some .hdrEncodeCspv1
    ∧ decodeTableWord 32 0x00000021 = some .hdrEncodeCspv2
    ∧ decodeTableWord 32 0x00000022 = some .hdrEncodeSfhdr
    ∧ decodeTableWord 32 0x00000023 = some .hdrEncodeOlchdr
    ∧ decodeTableWord 32 0x00000024 = some .hdrEncodeOlshdr
    ∧ decodeTableWord 32 0x00000025 = some .hdrEncodeOlsftr
    ∧ decodeTableWord 32 0x00000030 = some .hdrDecodeCspv1
    ∧ decodeTableWord 32 0x00000031 = some .hdrDecodeCspv2
    ∧ decodeTableWord 32 0x00000032 = some .hdrDecodeSfhdr
    ∧ decodeTableWord 32 0x00000033 = some .hdrDecodeOlchdr
    ∧ decodeTableWord 32 0x00000034 = some .hdrDecodeOlshdr
    ∧ decodeTableWord 32 0x00000035 = some .hdrDecodeOlsftr := by decide +kernel

/-- Command words: indexed. -/
theorem test_decode_indexed :
    decodeTableWord 32 0x00000740 = some (.crcAdp 7)
    ∧ decodeTableWord 32 0x00000250 = some (.adpWrap 2)
    ∧ decodeTableWord 32 0x00000F51 = some (.adpUnwrap 15)
    ∧ decodeTableWord 32 0x00000052 = some (.adpWsize 0) := by decide +kernel

/-- The action bits of RX_CTRL, the bits above them ignored. -/
theorem test_decode_actions :
    decodeTableWord 8 0x01 = some .rxStart
    ∧ decodeTableWord 8 0x02 = some .rxReset
    ∧ decodeTableWord 8 0x04 = some .rxCancel
    ∧ decodeTableWord 8 0x08 = some .rxMsgPop
    ∧ decodeTableWord 8 0x10 = some .rxErrPop
    ∧ decodeRxctrl 0xFFFFFFE3 = [.rxReset, .rxStart] := by decide +kernel

/-- E2 to E10: the illegal words, by name. -/
theorem test_decode_illegal :
    decodeCmd 0x00000100 = .error .indexOnNoIndexCommand ∧ decodeCmd 0x00000016 = .error .headerKind
    ∧ decodeCmd 0x00000003 = .error .opcode ∧ decodeCmd 0x00001000 = .error .reservedBits
    ∧ decodeCmd 0x80000000 = .error .reservedBits ∧ decodeCmd 0x00000120 = .error .indexOnNoIndexCommand
    ∧ decodeCmd 0x00000044 = .error .opcode ∧ decodeCmd 0x00000064 = .error .opcode ∧ decodeCmd 0x000000FF = .error .opcode := by decide +kernel

/-! ## Commands -/

/-- E1 -/
theorem test_nop :
    (ran 0x000 (State.reset)).status.word = 0x00000002 := by decide +kernel

/-- K15 -/
theorem test_nop_lock_kept :
    (ran 0x000 (locked 3 [])).status.word = 0x00000012 := by decide +kernel

/-- E5 -/
theorem test_illegal :
    (ran 0x1000 (State.reset)).status.word = 0x00002006 := by decide +kernel

/-- K1 -/
theorem test_cfgLock_reset :
    (ran 0x001 (State.reset)).status.word = 0x000F0106 := by decide +kernel

/-- K7 -/
theorem test_cfgLock_second :
    (ran 0x001 (configured 3 [crc32c, desc 8 0 0 0])).status.word = 0x00010106 := by decide +kernel

/-- K16 -/
theorem test_cfgUnlock :
    (ran 0x002 (locked 3 [])).status.word = 0x00000002 := by decide +kernel

/-- K18 -/
theorem test_cfgUnlock_running :
    (ran 0x002 ({ locked 3 [] with rx := { RxStatus.reset with state := .seeking } })).status.word = 0x00002316 := by decide +kernel

/-- H1 -/
theorem test_validate_cspv1 :
    (ran 0x010 (withHf [2, 10, 11, 40, 20] State.reset)).status.word = 0x00000002 := by decide +kernel

/-- H3 -/
theorem test_validate_cspv1_lowest :
    (ran 0x010 (withHf [0, 0, 32, 0, 64] State.reset)).status.word = 0x00020306 := by decide +kernel

/-- the operands of H7 -/
theorem test_validate_cspv2 :
    (ran 0x011 (withHf [3, 16383, 16383, 63, 63] State.reset)).status.word = 0x00000002 := by decide +kernel

/-- H8 -/
theorem test_validate_cspv2_src :
    (ran 0x011 (withHf [0, 16384] State.reset)).status.word = 0x00010306 := by decide +kernel

/-- the operands of H10 -/
theorem test_validate_sfhdr :
    (ran 0x012 (withHf [0, 1024] State.reset)).status.word = 0x00000002 := by decide +kernel

/-- the operands of H11 -/
theorem test_validate_sfhdr_length :
    (ran 0x012 (withHf [0, 1025] State.reset)).status.word = 0x00010306 := by decide +kernel

/-- the operands of H14 -/
theorem test_validate_olchdr :
    (ran 0x013 (withHf [251, 65535, 65535, 255, 255] State.reset)).status.word = 0x00000002 := by decide +kernel

/-- the operands of H15 -/
theorem test_validate_olchdr_length :
    (ran 0x013 (withHf [5] State.reset)).status.word = 0x00000306 := by decide +kernel

/-- the operands of H18 -/
theorem test_validate_olshdr :
    (ran 0x014 (withHf [13, 1, 258, 5, 17] State.reset)).status.word = 0x00000002 := by decide +kernel

/-- the operands of H19 -/
theorem test_validate_olshdr_port :
    (ran 0x014 (withHf [13, 256, 258, 5, 17] State.reset)).status.word = 0x00010306 := by decide +kernel

/-- the operands of H21 -/
theorem test_validate_olsftr :
    (ran 0x015 (withHf [65535, 255, 0] State.reset)).status.word = 0x00000002 := by decide +kernel

/-- the operands of H22 -/
theorem test_validate_olsftr_crc :
    (ran 0x015 (withHf [0, 0, 256] State.reset)).status.word = 0x00020306 := by decide +kernel

/-- V1 -/
theorem test_encode_cspv1 :
    statusOut (ran 0x020 (withHf [2, 10, 11, 40, 20] State.reset)) = (0x00000002, [0x94, 0xBA, 0x14, 0x00]) := by decide +kernel

/-- H4 -/
theorem test_encode_cspv1_max :
    statusOut (ran 0x020 (withHf [3, 31, 31, 63, 63] State.reset)) = (0x00000002, [0xFF, 0xFF, 0xFF, 0x00]) := by decide +kernel

/-- V3 -/
theorem test_encode_cspv2 :
    statusOut (ran 0x021 (withHf [3, 2844, 1728, 16, 63] State.reset)) = (0x00000002, [0xCB, 0x1C, 0x1B, 0x01, 0x0F, 0xC0]) := by decide +kernel

/-- H7 -/
theorem test_encode_cspv2_max :
    statusOut (ran 0x021 (withHf [3, 16383, 16383, 63, 63] State.reset)) = (0x00000002, [0xFF, 0xFF, 0xFF, 0xFF, 0xFF, 0xC0]) := by decide +kernel

/-- V4 -/
theorem test_encode_sfhdr :
    statusOut (ran 0x022 (withHf [0, 78] State.reset)) = (0x00000002, [0x00, 0x4E]) := by decide +kernel

/-- H12 -/
theorem test_encode_sfhdr_type :
    statusOut (ran 0x022 (withHf [1, 3] State.reset)) = (0x00000306, []) := by decide +kernel

/-- V5 -/
theorem test_encode_olchdr :
    statusOut (ran 0x023 (withHf [10, 755, 12, 212, 57] State.reset)) = (0x00000002, [0x0A, 0xF3, 0x02, 0x0C, 0x00, 0xD4, 0x39]) := by decide +kernel

/-- H17 -/
theorem test_encode_olchdr_cmd :
    statusOut (ran 0x023 (withHf [6, 0, 0, 0, 256] State.reset)) = (0x00040306, []) := by decide +kernel

/-- H18 -/
theorem test_encode_olshdr :
    statusOut (ran 0x024 (withHf [13, 1, 258, 5, 17] State.reset)) = (0x00000002, [0x0D, 0x01, 0x02, 0x01, 0x05, 0x11]) := by decide +kernel

/-- H19 -/
theorem test_encode_olshdr_port :
    statusOut (ran 0x024 (withHf [13, 256, 258, 5, 17] State.reset)) = (0x00010306, []) := by decide +kernel

/-- V6 -/
theorem test_encode_olsftr :
    statusOut (ran 0x025 (withHf [2047, 1, 2] State.reset)) = (0x00000002, [0xFF, 0x07, 0x02, 0x01]) := by decide +kernel

/-- H21 -/
theorem test_encode_olsftr_max :
    statusOut (ran 0x025 (withHf [65535, 255, 0] State.reset)) = (0x00000002, [0xFF, 0xFF, 0x00, 0xFF]) := by decide +kernel

/-- H23 -/
theorem test_decode_cspv1 :
    statusHf (ran 0x030 (load [0x94, 0xBA, 0x14, 0x00] State.reset)) = (0x00000002, [2, 10, 11, 40, 20, 0, 0, 0]) := by decide +kernel

/-- H24, HF unchanged -/
theorem test_decode_cspv1_short :
    statusHf (ran 0x030 (load [0x94, 0xBA, 0x14] (withHf [1, 2] State.reset))) = (0x00000406, [1, 2, 0, 0, 0, 0, 0, 0]) := by decide +kernel

/-- H28 -/
theorem test_decode_cspv2 :
    statusHf (ran 0x031 (load [0xCB, 0x1C, 0x1B, 0x01, 0x0F, 0xC0] State.reset)) = (0x00000002, [3, 2844, 1728, 16, 63, 0, 0, 0]) := by decide +kernel

/-- the bytes of A13 -/
theorem test_decode_cspv2_length :
    statusHf (ran 0x031 (load [0xCB, 0x1C, 0x1B, 0x01, 0x0F] State.reset)) = (0x00000406, [0, 0, 0, 0, 0, 0, 0, 0]) := by decide +kernel

/-- the bytes of V4, the unused slots set to 0 -/
theorem test_decode_sfhdr :
    statusHf (ran 0x032 (load [0x00, 0x4E] (withHf [9, 9, 9] State.reset))) = (0x00000002, [0, 78, 0, 0, 0, 0, 0, 0]) := by decide +kernel

/-- H33 -/
theorem test_decode_olchdr :
    statusHf (ran 0x033 (load [0x0A, 0xF3, 0x02, 0x0C, 0x00, 0xD4, 0x39] State.reset)) = (0x00000002, [10, 755, 12, 212, 57, 0, 0, 0]) := by decide +kernel

/-- H35 -/
theorem test_decode_olshdr :
    statusHf (ran 0x034 (load [0x0D, 0x01, 0x02, 0x01, 0x05, 0x11] State.reset)) = (0x00000002, [13, 1, 258, 5, 17, 0, 0, 0]) := by decide +kernel

/-- H36 -/
theorem test_decode_olsftr :
    statusHf (ran 0x035 (load [0xFF, 0x07, 0x02, 0x01] State.reset)) = (0x00000002, [2047, 1, 2, 0, 0, 0, 0, 0]) := by decide +kernel

/-- H37 -/
theorem test_decode_olsftr_length :
    statusHf (ran 0x035 (load [0xFF, 0x07, 0x02, 0x01, 0x00] State.reset)) = (0x00000406, [0, 0, 0, 0, 0, 0, 0, 0]) := by decide +kernel

/-- Q9 -/
theorem test_crcAdp :
    statusResult (ran 0x040 (load digits (locked 2048 [x25]))) = (0x00000012, 0x0000906E) := by decide +kernel

/-- Q15 -/
theorem test_crcAdp_index :
    statusResult (ran 0x140 (load digits (locked 2048 [ccitt]))) = (0x00012116, 0x00000000) := by decide +kernel

/-- Q6 -/
theorem test_crcCc1110 :
    statusResult (ran 0x041 (load digits State.reset)) = (0x00000002, 0x0000AEE7) := by decide +kernel

/-- V8 -/
theorem test_crcC32c :
    statusResult (ran 0x042 (load [0x01, 0x02] State.reset)) = (0x00000002, 0x03F89F52) := by decide +kernel

/-- Q17 -/
theorem test_crcC32c_long :
    statusResult (ran 0x042 ({ State.reset with inLen := 4097 })) = (0x00002106, 0x00000000) := by decide +kernel

/-- Q4 -/
theorem test_crcC32ieee :
    statusResult (ran 0x043 (load [0x01, 0x02] State.reset)) = (0x00000002, 0xB6CC4292) := by decide +kernel

/-- A56 -/
theorem test_adpWrap :
    statusOut (ran 0x050 (load [0x01, 0x02, 0x03, 0x04] (locked 2048 [ols]))) = (0x00000012, [0x0D, 0x01, 0x02, 0x01, 0x05, 0x11, 0x01, 0x02, 0x03, 0x04, 0xFF, 0x07, 0xB1, 0x84]) := by decide +kernel

/-- A67 -/
theorem test_adpWrap_index :
    statusOut (ran 0x350 (locked 2048 [crc32c])) = (0x00032116, []) := by decide +kernel

/-- A43 -/
theorem test_adpUnwrap :
    statusOut (ran 0x051 (load [0x1A, 0xCF, 0xFC, 0x1D, 0x00, 0x03, 0x58, 0x59, 0x5A, 0xDC, 0x65, 0xA2, 0x3B] (locked 2048 [sf 3]))) = (0x00000012, [0x58, 0x59, 0x5A]) := by decide +kernel

/-- A18 -/
theorem test_adpUnwrap_crc :
    statusOut (ran 0x051 (load [0x00, 0x02, 0x03, 0xF8, 0x9F, 0x52] (locked 2048 [crc32c]))) = (0x00000516, []) := by decide +kernel

/-- A22 -/
theorem test_adpWsize :
    statusResult (ran 0x052 ({ locked 2048 [crc32c] with arg := 0xFFFF })) = (0x00000012, 0x00010003) := by decide +kernel

/-- A48 -/
theorem test_adpWsize_spaceframe :
    statusResult (ran 0x052 ({ locked 2048 [sf 3] with arg := 99 })) = (0x00000012, 0x0000000D) := by decide +kernel

/-- PL1 -/
theorem test_pipeWrap :
    statusOut (ran 0x060 (load [0x11, 0x22, 0x33] (locked 2048 [csp1, crc32c]))) = (0x00000012, [0x94, 0xBA, 0x14, 0x00, 0x11, 0x22, 0x33, 0x54, 0x68, 0x2B, 0x69]) := by decide +kernel

/-- PL13 -/
theorem test_pipeWrap_unlocked :
    statusOut (ran 0x060 (load [0x11] State.reset)) = (0x00002206, []) := by decide +kernel

/-- PL3 -/
theorem test_pipeUnwrap :
    statusOut (ran 0x061 (load [0x94, 0xBA, 0x14, 0x00, 0x11, 0x22, 0x33, 0x54, 0x68, 0x2B, 0x69] (locked 2048 [csp1, crc32c]))) = (0x00000012, [0x11, 0x22, 0x33]) := by decide +kernel

/-- PL4 -/
theorem test_pipeUnwrap_last :
    statusOut (ran 0x061 (load [0x94, 0xBA, 0x14, 0x00, 0x11, 0x22, 0x33, 0x54, 0x68, 0x2B, 0x6A] (locked 2048 [csp1, crc32c]))) = (0x00010516, []) := by decide +kernel

/-- PL10 -/
theorem test_pipeWsize :
    statusResult (ran 0x062 ({ locked 2048 [csp1, sf 8] with arg := 3 })) = (0x00000012, 0x00000012) := by decide +kernel

/-- PL12 -/
theorem test_pipeWsize_identity :
    statusResult (ran 0x062 ({ locked 2048 [] with arg := 7 })) = (0x00000012, 0x00000007) := by decide +kernel

/-- The setup of 3.7: the push, and SEND still in flight -/
theorem test_send :
    (ran 0x063 (load [0x11, 0x22, 0x33] (locked 11 [csp1, crc32c]))).sinkPending
      = some [0xFF, 0x94, 0xBA, 0x14, 0x00, 0x11, 0x22, 0x33, 0x54, 0x68, 0x2B, 0x69]
    ∧ (ran 0x063 (load [0x11, 0x22, 0x33] (locked 11 [csp1, crc32c]))).status.word = 0x00000011 := by decide +kernel

/-- SD5 -/
theorem test_send_too_large :
    (ran 0x063 (load [0x11, 0x22, 0x33] (locked 10 [csp1, crc32c]))).status.word = 0x000F0216 := by decide +kernel

/-! ## RX_CTRL actions -/

/-- 44_frame_receiver.md R361: START, locked and not -/
theorem test_rxStart :
    (acted 0x01 (locked 3 [])).rx.word = 0x00000001 ∧ (acted 0x01 State.reset).rx.word = 0x00000800 := by decide +kernel

/-- R362: RESET in EOS, and while running -/
theorem test_rxReset :
    (acted 0x02 { locked 3 [] with rx := { RxStatus.reset with state := .eos, ctrlRejected := true } }).rx.word = 0
    ∧ (acted 0x02 { locked 3 [] with rx := { RxStatus.reset with state := .seeking } }).rx.word = 0x00000801 := by decide +kernel

/-- R363: CANCEL sets the token in any state -/
theorem test_rxCancel :
    (acted 0x04 State.reset).rx.word = 0x00000400 := by decide +kernel

/-- R364: MSG_POP of an offered message, to SEEKING -/
theorem test_rxMsgPop :
    (acted 0x08 { locked 3 [] with rx := { RxStatus.reset with state := .delivering, msgValid := true } }).rx.word = 1 := by decide +kernel

/-- R365: ERR_POP under a pending cancellation, to CANCELED with RX_END -/
theorem test_rxErrPop :
    (acted 0x14 { locked 3 [] with rx := { RxStatus.reset with state := .reporting, errValid := true } }).rx.word = 0x00000406
    ∧ (acted 0x14 { locked 3 [] with rx := { RxStatus.reset with state := .reporting, errValid := true } }).irqStatus = 8 := by decide +kernel

/-! ## Bus -/

/-- E15: ID is constant, CMD and an unmapped offset read 0 -/
theorem test_bus_readOnly :
    busRead State.reset 0x000 = 0x53460001 ∧ busRead State.reset 0x004 = 0 ∧ busRead State.reset 0x300 = 0 := by decide +kernel

/-- 20_memory.md R83: a window word, lane 0 first -/
theorem test_bus_lanes :
    (got (busWrite 0x1004 0x44332211 State.reset)).mem = [(0x1004, 0x11), (0x1005, 0x22), (0x1006, 0x33), (0x1007, 0x44)] := by decide +kernel

/-- K14: a configuration write while locked -/
theorem test_bus_config_dropped :
    (got (busWrite 0x08C 5 (locked 3 []))).status.word = 0x0000001A ∧ (got (busWrite 0x08C 5 (locked 3 []))).cfg.frameSize = 3 := by decide +kernel

/-- IQ2, IQ3: IRQ_STATUS clears the bits written as 1 -/
theorem test_bus_irq :
    (got (busWrite 0x044 0xE { State.reset with irqStatus := 1 })).irqStatus = 1
    ∧ (got (busWrite 0x044 1 { State.reset with irqStatus := 1 })).irqStatus = 0 := by decide +kernel

/-- 30_encoding.md R118: mnemonic text, case significant -/
theorem test_assemble :
    (assemble ["ADP.WRAP", "2"]).map encode = some 0x00000250 ∧ assemble ["nop"] = none
    ∧ (assemble ["HDR.VALIDATE", "SFHDR"]).map encode = some 0x00000012 := by decide +kernel

/-! ## Witnesses: states and operands that meet the hypotheses of each statement, for each clause of it -/

/-- The agent a takes the next step. -/
def onTurn (a : Agent) (s : State) : State := { s with sched := [a] }

/-- The host's next statement. -/
def hosting (stmt : HostStmt) (s : State) : State := onTurn .host { s with program := [stmt] }

/-- A command in flight. -/
def inFlight (c : Word) (s : State) : State := onTurn .codec (s.accept c)

/-- The receiver in a state, RX or another agent to move. -/
def rxIn (a : Agent) (st : RxState) (s : State) : State := onTurn a { s with rx := { s.rx with state := st } }

theorem witness_DecodeOfEncode : (Instr.crcAdp 0).wf = true ∧ (Instr.adpWsize 15).wf = true ∧ Instr.rxErrPop.wf = true := by
  decide

theorem witness_LegalWordsExactly : decodeCmd 0x00000F52 = .ok (.adpWsize 15) ∧ decodeCmd 0x00000F53 = .error .indexOnNoIndexCommand := by
  decide

theorem witness_StepRunsCommand :
    (∃ (s : State) (c : Word) (i : Instr), s.turn = .codec ∧ s.cmd = some c ∧ s.sinkPending = none
      ∧ s.sinkAnswer = none ∧ decodeCmd c = .ok i)
    ∧ (∃ s : State, s.turn = .codec ∧ s.cmd = none)
    ∧ ∃ (s : State) (c : Word) (f : Bytes), s.turn = .codec ∧ s.cmd = some c ∧ s.sinkAnswer = none
      ∧ s.sinkPending = some f :=
  ⟨⟨inFlight 0x50 (locked 2048 [csp1]), 0x50, .adpWrap 0, by decide⟩, ⟨onTurn .codec State.reset, by decide⟩,
    ⟨inFlight 0x63 { locked 3 [] with sinkPending := some [0xFF] }, 0x63, [0xFF], by decide⟩⟩

theorem witness_StepRunsAction : ∃ (s : State) (i : Instr) (rest : List HostStmt), s.turn = .host
    ∧ i.format = .rxctrl ∧ s.program = .wr 0x200 4 (encode i) :: rest :=
  ⟨hosting (.wr 0x200 4 0x10) State.reset, .rxErrPop, [], by decide⟩

theorem witness_IllegalWordCompletes : ∃ (s : State) (c : Word) (e : Illegal), s.turn = .codec ∧ s.cmd = some c
    ∧ s.sinkPending = none ∧ s.sinkAnswer = none ∧ decodeCmd c = .error e :=
  ⟨inFlight 0x80000000 State.reset, 0x80000000, .reservedBits, by decide⟩

theorem witness_CommandIssue : ∃ (s t : State) (c : Word) (rest : List HostStmt), s.turn = .host ∧ t.turn = .host
    ∧ s.program = .wr 0x004 4 c :: rest ∧ t.program = .wr 0x004 4 c :: rest ∧ s.status.busy = false
    ∧ t.status.busy = true :=
  ⟨hosting (.wr 0x004 4 0) State.reset, hosting (.wr 0x004 4 0) (State.reset.accept 1), 0, [], by decide⟩

/-- The sizes at both ends of their constraints, and this hardware's: the premise on the sizes. -/
theorem witness_sizes : Config.params.wf ∧ smallest.wf ∧ largest.wf := by decide

/-- Every kind at its largest values, and the smallest OLCHDR length. -/
theorem witness_HeaderRoundTrip :
    (∀ k : HeaderKind, validate k (Vector.ofFn fun j => BitVec.ofNat 16 ((slotMaxima k).getD j.val 0xFFFF)) = none)
    ∧ validate .olchdr (#v[6, 0, 0, 0, 0, 0, 0, 0]) = none
    ∧ ∃ (k : HeaderKind) (s t u : State), s.params.wf ∧ u.params.wf ∧ exec (Instr.encodeOf k) s = .next t
      ∧ t.status.err = false
      ∧ u.inLen = t.outLen ∧ ∀ a, a < t.outLen.toNat → u.inByte a = t.outByte a := by
  refine ⟨fun k => by cases k <;> decide +kernel, by decide +kernel, .cspv2,
    withHf [3, 16383, 16383, 63, 63] State.reset, got (exec .hdrEncodeCspv2 (withHf [3, 16383, 16383, 63, 63] State.reset)),
    load [0xFF, 0xFF, 0xFF, 0xFF, 0xFF, 0xC0] State.reset, by decide, by decide, next_got (by decide +kernel), by decide +kernel, by decide +kernel, ?_⟩
  decide +kernel

/-- A locked state that CFG.LOCK accepts, with each kind in its chain, and an unlocked one: the hypothesis of the statements
CrcAdpResult, AdpWrapResult, AdpUnwrapResult, AdpWsizeResult, PipeCommandsResult and PipeWsizeResult. -/
theorem witness_lockedAccepted :
    lockedAccepted (locked 2048 [ccitt, crc32c, sf 2048, csp1, csp2, olc, ols, x25])
    ∧ (locked 2048 [ccitt, crc32c, sf 2048, csp1, csp2, olc, ols, x25]).status.cfgLocked = true
    ∧ lockedAccepted (locked 1 []) ∧ lockedAccepted State.reset := by
  refine ⟨?_, ?_, ?_, ?_⟩ <;> decide +kernel

/-- The successful arm of CrcAdpResult. -/
theorem witness_CrcAdpResult : lockedAccepted (load digits (locked 2048 [ccitt]))
    ∧ (exec (.crcAdp 0) (load digits (locked 2048 [ccitt]))
      = .next { (load digits (locked 2048 [ccitt])).doneOk with result := 0x29B1 }) :=
  ⟨by decide +kernel, (next_got (by decide +kernel)).trans (congrArg _ (by decide +kernel))⟩

theorem witness_CrcVariants : ∃ p : CrcParams 32, p.refin = true ∧ p.refout = true ∧ p.init = 0xFFFFFFFF
    ∧ p.xorout = 0xFFFFFFFF := ⟨c32c, by decide⟩

theorem witness_CrcResidueZero : (∃ p : CrcParams 16, p.refin = false ∧ p.refout = false ∧ p.xorout = 0)
    ∧ ∃ p : CrcParams 32, p.refin = false ∧ p.refout = false ∧ p.xorout = 0 :=
  ⟨⟨{ poly := 0x1021, init := 0xFFFF, refin := false, refout := false, xorout := 0 }, by decide⟩,
    ⟨{ poly := 0x04C11DB7, init := 0, refin := false, refout := false, xorout := 0 }, by decide⟩⟩

/-- The descriptor wraps n zero bytes. -/
def wraps (p : Params) (d : Desc) (n : Nat) : Bool :=
  decide (d.accepted p) && (wrap p d (List.replicate n 0)).toOption.isSome

/-- Each kind at its boundary: the largest accepted input and one byte more, with this hardware's sizes and, where
DATAPATH_MAX is the bound, with the smallest. -/
theorem witness_WrapContract :
    wraps Config.params ccitt 0 = true ∧ wraps smallest ccitt 9 = true ∧ wraps smallest ccitt 10 = false
    ∧ wraps Config.params crc32c 0 = true ∧ wraps smallest crc32c 7 = true ∧ wraps smallest crc32c 8 = false
    ∧ wraps Config.params csp1 5 = true ∧ wraps Config.params csp1 6 = false ∧ wraps Config.params csp2 16 = true
    ∧ wraps Config.params csp2 17 = false ∧ wraps smallest csp2 5 = true ∧ wraps smallest csp2 6 = false
    ∧ wraps Config.params (sf 3) 3 = true ∧ wraps Config.params (sf 3) 4 = false
    ∧ wraps Config.params olc 245 = true ∧ wraps Config.params olc 246 = false ∧ wraps smallest olc 4 = true
    ∧ wraps smallest olc 5 = false ∧ wraps Config.params ols 246 = true ∧ wraps Config.params ols 247 = false
    ∧ wraps smallest ols 1 = true ∧ wraps smallest ols 2 = false := by decide +kernel

theorem witness_CrcAdapter : ccitt.accepted Config.params ∧ ccitt.kind = 1 ∧ crc32c.accepted smallest
    ∧ crc32c.kind = 2 := by decide

/-- The frame sizes, the marker clause and the taken-apart clause of SpaceframeUnwrap, at the ends of the payload size. -/
theorem witness_Spaceframe : (sf 0).accepted smallest ∧ (sf 2048).accepted Config.params ∧ (sf 0).kind = 3 ∧ (sf 0).opts.getLsbD 2 = true
    ∧ ([0x1A, 0xCF, 0xFC, 0x1E, 0, 0, 0, 0, 0, 0] : Bytes).length = 2 + 0 + 4 + 4
    ∧ ([0x1A, 0xCF, 0xFC, 0x1E, 0, 0, 0, 0, 0, 0] : Bytes).take 4 ≠ [0x1A, 0xCF, 0xFC, 0x1D]
    ∧ ([] : Bytes).length ≠ 2 + 0 + 4 + 4
    ∧ ([0x58, 0x59, 0x5A] : Bytes).length = ((sf 3).w1.extractLsb' 0 16).toNat := by decide

/-- The kinds of CspWrap, CspUnwrap, OpenLstWrap and OpenLstUnwrap, and the sizes of OpenLstWrap. -/
theorem witness_kinds : csp1.kind = 4 ∧ csp2.kind = 5 ∧ olc.kind = 6 ∧ ols.kind = 7 ∧ 256 ≤ Config.params.datapathMax := by
  decide

theorem witness_FirstFailingStage :
    (∃ (p : Params) (c : Cfg) (v : Bytes) (e : Raised), pipeWrap p c v = .error e)
    ∧ ∃ (c : Cfg) (v : Bytes) (e : Raised), pipeUnwrap c v = .error e :=
  ⟨⟨Config.params, chainCfg 2048 [crc32c, csp1], [1, 2], ⟨.payloadTooLarge, 1⟩, by decide +kernel⟩,
    ⟨chainCfg 2048 [csp1, crc32c], [0x94, 0xBA, 0xA2, 0x1A, 0x47, 0x87], ⟨.headerDecodeError, 0⟩, by decide +kernel⟩⟩

/-- A chain of a CRC stage and a header, and the empty chain. -/
theorem witness_PipelineComposition :
    (∃ (p : Params) (c : Cfg) (x z : Bytes), p.wf ∧ c.globalsAccepted p ∧ c.firstBad p = none ∧ pipeWrap p c x = .ok z
      ∧ ∀ i, i < c.n → ((c.desc i).kind = 1 ∨ (c.desc i).kind = 2) →
          ((runStages (wrap p) (c.chain.take i) x).toOption.map fun y => decide (1 ≤ y.length)) = some true)
    ∧ ∃ c : Cfg, c.n = 0 :=
  ⟨⟨Config.params, chainCfg 2048 [crc32c, csp2], [0x11], [0xCB, 0x1C, 0x1B, 0x01, 0x0F, 0xC0, 0x11] ++ beWord (crc c32c [0x11]),
      by decide +kernel⟩, ⟨chainCfg 1 [], by decide⟩⟩

/-- The SINK's two answers, its count at both ends, by the plan and by an oracle that answers every push, and the
completion of SEND. -/
theorem witness_SendCompletes : ∀ a ∈ [SinkAnswer.accepted 0, .accepted 2, .error],
    (∃ (s : State) (f : Bytes) (rest : List SinkAnswer), s.sinkPending = some f ∧ s.sinkPlan = a :: rest
      ∧ ∀ n, a = .accepted n → n ≤ f.length)
    ∧ (∃ (o : Ports) (s : State) (f : Bytes), s.sinkPending = some f ∧ s.sinkPlan = [] ∧ o.sink s.pushes = some a
      ∧ ∀ n, a = .accepted n → n ≤ f.length)
    ∧ ∃ (s : State) (c : Word) (f : Bytes), s.turn = .codec ∧ s.cmd = some c ∧ s.sinkAnswer = some (f, a) := by
  intro a ha
  have hl : ∀ n, a = .accepted n → n ≤ ([0xFF, 1] : Bytes).length := by
    rintro n rfl; simp at ha; simp only [List.length_cons, List.length_nil]; omega
  exact ⟨⟨{ State.reset with sinkPending := some [0xFF, 1], sinkPlan := [a] }, [0xFF, 1], [], rfl, rfl, hl⟩,
    ⟨⟨fun _ => none, fun _ => some a⟩, { State.reset with sinkPending := some [0xFF, 1] }, [0xFF, 1], rfl, rfl, rfl, hl⟩,
    ⟨inFlight 0x63 { State.reset with sinkAnswer := some ([0xFF, 1], a) }, 0x63, [0xFF, 1], rfl, rfl, rfl⟩⟩

theorem witness_ErrorsArePrecise : ∃ (i : Instr) (s t : State), i.format = .cmd ∧ s.status.err = false
    ∧ exec i s = .next t ∧ t.status.err = true :=
  ⟨.pipeWrap, State.reset, got (exec .pipeWrap State.reset), by decide, by decide, next_got (by decide), by decide⟩

/-- Every action bit set, and none. -/
theorem witness_RxActionOrder : ∀ a ∈ ([0x1F, 0] : List Word), ∃ (s s1 s2 s3 s4 s5 : State) (rest : List HostStmt),
    s.turn = .host ∧ s.program = .wr 0x200 4 a :: rest
    ∧ (if a.getLsbD 2 then exec .rxCancel { s.begin with program := rest } else .next { s.begin with program := rest })
      = .next s1
    ∧ (if a.getLsbD 3 then exec .rxMsgPop s1 else .next s1) = .next s2
    ∧ (if a.getLsbD 4 then exec .rxErrPop s2 else .next s2) = .next s3
    ∧ (if a.getLsbD 1 then exec .rxReset s3 else .next s3) = .next s4
    ∧ (if a.getLsbD 0 then exec .rxStart s4 else .next s4) = .next s5 := by
  intro a ha
  have : a = 0x1F ∨ a = 0 := by simpa using ha
  rcases this with rfl | rfl
  · exact ⟨hosting (.wr 0x200 4 0x1F) State.reset, _, _, _, _, _, [], by decide, rfl, rfl, rfl, rfl, rfl, rfl⟩
  · exact ⟨hosting (.wr 0x200 4 0) State.reset, _, _, _, _, _, [], by decide, rfl, rfl, rfl, rfl, rfl, rfl⟩

theorem witness_SeekMissLosesNoMarker : ∃ sync b v : Bytes, sync ≠ [] ∧ findMarker sync b = none
    ∧ findMarker sync (b ++ v) = some 1 := ⟨[0x1A, 0xCF], [0, 0x1A], [0xCF], by decide⟩

/-- A marker of no byte and one of eight. -/
theorem witness_SyncMarkerBytes : ∃ c d : Cfg, c.syncLen.toNat = 0 ∧ d.syncLen.toNat = 8 :=
  ⟨Cfg.reset, { Cfg.reset with syncLen := 8 }, by decide⟩

/-- The five clauses of the seek and read steps. -/
theorem witness_SeekAndReadSteps :
    (∃ (s : State) (j : Nat), s.turn = .rx ∧ s.pullPending = none ∧ s.rx.state = .seeking
      ∧ findMarker s.cfg.sync s.rdbuf = some j)
    ∧ (∃ s : State, s.turn = .rx ∧ s.pullPending = none ∧ s.rx.state = .seeking
      ∧ findMarker s.cfg.sync s.rdbuf = none)
    ∧ (∃ s : State, s.turn = .rx ∧ s.pullPending = none ∧ s.rx.state = .reading
      ∧ s.cfg.syncLen.toNat + s.cfg.frameSize.toNat - s.frame.length = 0)
    ∧ (∃ s : State, s.turn = .rx ∧ s.pullPending = none ∧ s.rx.state = .reading
      ∧ s.cfg.syncLen.toNat + s.cfg.frameSize.toNat - s.frame.length ≠ 0 ∧ s.rdbuf ≠ [])
    ∧ ∃ s : State, s.turn = .rx ∧ s.pullPending = none ∧ s.rx.state = .reading
      ∧ s.cfg.syncLen.toNat + s.cfg.frameSize.toNat - s.frame.length ≠ 0 ∧ s.rdbuf = [] :=
  ⟨⟨rxIn .rx .seeking { locked 3 [] with rdbuf := [1, 0xFF, 2] }, 1, by decide⟩,
    ⟨rxIn .rx .seeking { locked 3 [] with rdbuf := [1, 2] }, by decide⟩,
    ⟨rxIn .rx .reading { locked 3 [] with frame := [0xFF, 1, 2, 3] }, by decide⟩,
    ⟨rxIn .rx .reading { locked 3 [] with rdbuf := [0xFF, 1, 2, 3, 4] }, by decide⟩,
    ⟨rxIn .rx .reading { locked 3 [] with frame := [0xFF, 1, 2] }, by decide⟩⟩

/-- The five clauses of the decode and offer steps; the message of the empty length (the longest one is
`witness_longest_message`). -/
theorem witness_DecodeAndOfferSteps :
    (∃ s : State, s.turn = .rx ∧ s.pullPending = none ∧ s.rx.state = .decoding ∧ s.rxItem = none)
    ∧ (∃ (s : State) (it : RxItem), s.turn = .rx ∧ s.pullPending = none ∧ s.rx.state = .decoding
      ∧ s.rxItem = some it ∧ s.rx.cancelPending = true)
    ∧ (∃ (s : State) (x : Bytes), s.turn = .rx ∧ s.pullPending = none ∧ s.rx.state = .decoding
      ∧ s.rxItem = some (.msg x) ∧ s.rx.cancelPending = false ∧ x.length = 0)
    ∧ ∀ q : Bool, ∃ (s : State) (e : ErrCode) (st : ErrStage) (i : Nat), s.turn = .rx ∧ s.pullPending = none
      ∧ s.rx.state = .decoding ∧ s.rxItem = some (.err e st i) ∧ s.rx.cancelPending = false ∧ s.cfg.errqEn = q :=
  ⟨⟨rxIn .rx .decoding { locked 3 [] with frame := [0xFF, 1, 2, 3] }, by decide⟩,
    ⟨rxIn .rx .decoding { locked 3 [] with rxItem := some (.msg []), rx := { RxStatus.reset with cancelPending := true } },
      .msg [], by decide⟩,
    ⟨rxIn .rx .decoding { locked 3 [] with rxItem := some (.msg []) }, [], by decide⟩,
    fun q => ⟨rxIn .rx .decoding { locked 3 [] with
        rxItem := some (.err .crcMismatch .unwrap 7), cfg := { chainCfg 3 [] with errqEn := q } },
      .crcMismatch, .unwrap, 7, rfl, rfl, rfl, rfl, rfl, rfl⟩⟩

/-- The offer step with a message that fills MSG_BUF. -/
theorem witness_longest_message : ∃ (s : State) (x : Bytes), s.turn = .rx ∧ s.pullPending = none
    ∧ s.rx.state = .decoding ∧ s.rxItem = some (.msg x) ∧ s.rx.cancelPending = false ∧ x.length = 2048 :=
  ⟨rxIn .rx .decoding { locked 2048 [] with rxItem := some (.msg (List.replicate 2048 0)) }, List.replicate 2048 0,
    rfl, rfl, rfl, rfl, rfl, List.length_replicate⟩

theorem witness_CancelOfferStep : ∀ c : Bool, ∃ s t : State, s.turn = .rx ∧ s.pullPending = none
    ∧ s.rx.state = .delivering ∧ s.rx.cancelPending = c ∧ t.turn = .rx ∧ t.pullPending = none
    ∧ t.rx.state = .reporting ∧ t.rx.cancelPending = c := fun c =>
  ⟨rxIn .rx .delivering { locked 3 [] with rx := { RxStatus.reset with msgValid := true, cancelPending := c } },
    rxIn .rx .reporting { locked 3 [] with rx := { RxStatus.reset with errValid := true, cancelPending := c } },
    rfl, rfl, rfl, rfl, rfl, rfl, rfl, rfl⟩

/-- Each answer to each stage, the data of the full length k, by the plan and by an oracle that answers every pull. -/
theorem witness_SourceAnswers : ∀ (stage : PullStage), ∀ a ∈ [SourceAnswer.data [1, 2], .zero, .eof, .error],
    (∃ (s : State) (k : Nat) (rest : List SourceAnswer), s.pullPending = some (stage, k)
      ∧ s.sourcePlan = a :: rest ∧ ∀ v, a = .data v → 1 ≤ v.length ∧ v.length ≤ k)
    ∧ ∃ (o : Ports) (s : State) (k : Nat), s.pullPending = some (stage, k) ∧ s.sourcePlan = []
      ∧ o.source s.pulls = some a ∧ ∀ v, a = .data v → 1 ≤ v.length ∧ v.length ≤ k := by
  intro stage a ha
  have hl : ∀ v, a = .data v → 1 ≤ v.length ∧ v.length ≤ 2 := by rintro v rfl; simp at ha; simp [ha]
  exact ⟨⟨{ locked 3 [] with pullPending := some (stage, 2), sourcePlan := [a] }, 2, [], rfl, rfl, hl⟩,
    ⟨⟨fun _ => some a, fun _ => none⟩, { locked 3 [] with pullPending := some (stage, 2) }, 2, rfl, rfl, rfl, hl⟩⟩

theorem witness_UnansweredPullWaits : (∃ s : State, s.pullPending.isSome = true ∧ s.turn = .rx)
    ∧ ∃ (o : Ports) (s : State), s.pullPending.isSome = true ∧ s.sourcePlan = [] ∧ o.source s.pulls = none :=
  ⟨⟨onTurn .rx { State.reset with pullPending := some (.seek, 4112) }, by decide⟩,
    ⟨⟨fun _ => none, fun _ => none⟩, { State.reset with pullPending := some (.read, 1) }, rfl, rfl, rfl⟩⟩

/-- The reset state satisfies the receiver's invariant. -/
theorem reset_receiverInv : ReceiverInv State.reset := by
  constructor <;> first | decide | simp [State.reset, RxStatus.reset, Status.reset]

/-- A waiting receiver of a locked configuration satisfies its invariant. -/
theorem seeking_receiverInv : ReceiverInv (rxIn .rx .seeking (locked 3 [])) := by
  constructor <;>
    first
    | decide
    | simp [rxIn, onTurn, locked, configured, State.reset, RxStatus.reset, Status.reset]

/-- A turn of RX in a running receiver and in IDLE, and the turns of CODEC, the SINK and the HOST. -/
theorem witness_RxTransitions :
    (ReceiverInv (rxIn .rx .seeking (locked 3 [])) ∧ (rxIn .rx .seeking (locked 3 [])).turn = .rx)
    ∧ (∀ a : Agent, ∃ s : State, ReceiverInv s ∧ s.turn = a ∧ s.rx.state = .idle
      ∧ ∀ v rest, s.program ≠ .wr 0x200 4 v :: rest) :=
  ⟨⟨seeking_receiverInv, rfl⟩, fun a => ⟨onTurn a State.reset, ⟨(by decide : Config.params.wf), by simp [onTurn, State.reset, Status.reset],
    by simp [onTurn, State.reset, RxStatus.reset, RxState.running], by simp [onTurn, State.reset, RxStatus.reset],
    by simp [onTurn, State.reset, RxStatus.reset], by simp [onTurn, State.reset], by simp [onTurn, State.reset],
    by simp [onTurn, State.reset], by simp [onTurn, State.reset], by simp [onTurn, State.reset],
    by simp [onTurn, State.reset], by simp [onTurn, State.reset, RxStatus.reset],
    by simp [onTurn, State.reset, RxStatus.reset]⟩, rfl, rfl, fun v rest => by simp [onTurn, State.reset]⟩⟩

/-- Operand offsets while BUSY and configuration offsets while locked, at the ends of their ranges. -/
theorem witness_HostWritesIgnored_dropped :
    (∀ off ∈ ([0x00C, 0x018, 0x020, 0x03C, 0x1000, 0x1FFC] : List (BitVec 16)), ∃ s : State, s.turn = .host
      ∧ s.program = [.wr off 4 7] ∧ off.toNat % 4 = 0 ∧ s.status.busy = true)
    ∧ ∀ off ∈ ([0x080, 0x094, 0x100, 0x17C] : List (BitVec 16)), ∃ s : State, s.turn = .host
      ∧ s.program = [.wr off 4 7] ∧ off.toNat % 4 = 0 ∧ s.status.cfgLocked = true := by
  refine ⟨fun off h => ⟨hosting (.wr off 4 7) (State.reset.accept 0), rfl, rfl, ?_, rfl⟩,
    fun off h => ⟨hosting (.wr off 4 7) (locked 3 []), rfl, rfl, ?_, rfl⟩⟩ <;>
    simp only [List.mem_cons, List.not_mem_nil, or_false] at h
  · rcases h with rfl | rfl | rfl | rfl | rfl | rfl <;> decide
  · rcases h with rfl | rfl | rfl | rfl <;> decide

/-- Offsets of the second clause of HostWritesIgnored: read-only registers, both sides of each range, and the last one. -/
theorem witness_HostWritesIgnored_unmapped :
    ∀ off ∈ ([0x000, 0x008, 0x010, 0x014, 0x01C, 0x048, 0x07C, 0x180, 0x1FC, 0x204, 0x20C, 0x210, 0xFFC, 0x2000, 0x37FC,
      0x3800, 0xFFFC] : List (BitVec 16)), ∃ s : State, s.turn = .host ∧ s.program = [.wr off 4 7]
      ∧ off.toNat % 4 = 0
      ∧ ¬ (off.toNat = 0x00C ∨ off.toNat = 0x018 ∨ (0x020 ≤ off.toNat ∧ off.toNat < 0x040)
        ∨ (0x1000 ≤ off.toNat ∧ off.toNat < 0x1000 + s.params.datapathMax))
      ∧ ¬ (0x080 ≤ off.toNat ∧ off.toNat < 0x180)
      ∧ off.toNat ≠ 0x004 ∧ off.toNat ≠ 0x040 ∧ off.toNat ≠ 0x044 ∧ off.toNat ≠ 0x200 := by
  refine fun off h => ⟨hosting (.wr off 4 7) State.reset, rfl, rfl, ?_⟩
  rw [show (hosting (.wr off 4 7) State.reset).params.datapathMax = 0x1000 from rfl]
  simp only [List.mem_cons, List.not_mem_nil, or_false] at h
  rcases h with rfl | rfl | rfl | rfl | rfl | rfl | rfl | rfl | rfl | rfl | rfl | rfl | rfl | rfl | rfl | rfl | rfl <;> decide

/-- Every offset of OperandWritesLand, the HF slots and window words at both ends, and a last word with one lane past the
window. -/
theorem witness_OperandWritesLand :
    (∀ off ∈ ([0x00C, 0x018, 0x020, 0x03C, 0x1000, 0x1FFC, 0x040, 0x044] : List (BitVec 16)), ∃ s : State, s.turn = .host
      ∧ s.program = [.wr off 4 0xFFFFFFFF] ∧ s.status.busy = false ∧ s.params.wf ∧ 4 * 1023 < s.params.datapathMax)
    ∧ ∃ s : State, s.turn = .host ∧ s.program = [.wr 0x1008 4 0xFFFFFFFF] ∧ s.status.busy = false ∧ s.params.wf
      ∧ 4 * 2 < s.params.datapathMax ∧ min 4 (s.params.datapathMax - 4 * 2) = 3 :=
  ⟨fun off _ => ⟨hosting (.wr off 4 0xFFFFFFFF) State.reset, rfl, rfl, rfl, (by decide : Config.params.wf),
    (by decide : 4 * 1023 < Config.params.datapathMax)⟩,
    hosting (.wr 0x1008 4 0xFFFFFFFF) { State.reset with params := smallest }, rfl, rfl, rfl,
    (by decide : smallest.wf), (by decide : 4 * 2 < smallest.datapathMax), rfl⟩

/-- Every offset of ConfigWritesLand, the descriptors at both ends. -/
theorem witness_ConfigWritesLand :
    ∀ off ∈ ([0x080, 0x084, 0x088, 0x08C, 0x090, 0x094, 0x100, 0x104, 0x108, 0x10C, 0x170, 0x174, 0x178, 0x17C] :
      List (BitVec 16)), ∃ s : State, s.turn = .host ∧ s.program = [.wr off 4 0xFFFFFFFF] ∧ s.status.cfgLocked = false :=
  fun off _ => ⟨hosting (.wr off 4 0xFFFFFFFF) State.reset, rfl, rfl, rfl⟩

/-- A read, the window clauses at their first and last byte, and an unmapped offset on each side of every range. -/
theorem witness_HostReads :
    (∃ s : State, s.turn = .host ∧ s.program = [.rd 0xFFFC 4] ∧ (0xFFFC : BitVec 16).toNat % 4 = 0)
    ∧ (∀ w, w = 0 ∨ w = 1023 → ∃ (s : State) (b : Byte), s.params.wf ∧ 4 * w + 3 < s.params.datapathMax
      ∧ 4 * w + 3 < s.outLen.toNat ∧ s.mem.read (0x1000 + 4 * w + 3) = some b ∧ s.mem.read (0x2000 + 4 * w + 3) = some b)
    ∧ (∃ (s : State) (b : Byte), s.params.wf ∧ 4 * 511 + 3 < s.params.frameMax ∧ s.rx.msgValid = true
      ∧ 4 * 511 + 3 < s.msgLen.toNat ∧ s.mem.read (0x3000 + 4 * 511 + 3) = some b)
    ∧ ∀ o ∈ ([0x01C, 0x048, 0x07C, 0x098, 0x0FC, 0x180, 0x1FC, 0x210, 0xFFC, 0x3800, 0x3FFC, 0x4000, 0xFFFC] : List Nat),
      o % 4 = 0 ∧ ¬ (0x020 ≤ o ∧ o < 0x040) ∧ ¬ (0x100 ≤ o ∧ o < 0x180)
      ∧ ¬ (0x1000 ≤ o ∧ o < 0x1000 + Config.params.datapathMax) ∧ ¬ (0x2000 ≤ o ∧ o < 0x2000 + Config.params.datapathMax)
      ∧ ¬ (0x3000 ≤ o ∧ o < 0x3000 + Config.params.frameMax)
      ∧ ¬ (0x2000 ≤ 0x200C ∧ 0x200C < 0x2000 + smallest.datapathMax) := by
  refine ⟨⟨hosting (.rd 0xFFFC 4) State.reset, by decide⟩, fun w hw =>
    ⟨{ State.reset with outLen := 4096, mem := [(0x1000 + 4 * w + 3, 5), (0x2000 + 4 * w + 3, 5)] }, 5,
    (by decide : Config.params.wf), ?_⟩,
    ⟨{ State.reset with msgLen := 2048, mem := [(0x37FF, 5)], rx := { RxStatus.reset with msgValid := true } }, 5, by decide⟩,
    by decide⟩
  rcases hw with rfl | rfl <;> decide

/-- A misaligned write, a read of two bytes, a misaligned poll. -/
theorem witness_MisalignedFaults :
    (∃ s : State, s.turn = .host ∧ s.program = [.wr 0x006 4 0] ∧ (0x006 : BitVec 16).toNat % 4 ≠ 0)
    ∧ (∃ s : State, s.turn = .host ∧ s.program = [.rd 0x008 2] ∧ (2 : Nat) ≠ 4)
    ∧ (∃ s : State, s.turn = .host ∧ s.program = [.poll 0x009 1 0] ∧ (0x009 : BitVec 16).toNat % 4 ≠ 0)
    ∧ isNext (step (hosting (.wr 0x006 4 0) State.reset)) = false :=
  ⟨⟨hosting (.wr 0x006 4 0) State.reset, by decide⟩, ⟨hosting (.rd 0x008 2) State.reset, by decide⟩,
    ⟨hosting (.poll 0x009 1 0) State.reset, by decide⟩, by decide⟩

theorem witness_WellFormedProgramsNeverFault : programWf (hosting (.wr 0x200 4 1) State.reset) := by
  intro stmt h
  have : stmt = .wr 0x200 4 1 := by simpa [hosting, onTurn] using h
  subst this
  decide

/-- A step that keeps the lock and one that ends it. -/
theorem witness_LockedConfigurationKept :
    (∃ s t : State, step s = .next t ∧ lockedAccepted s ∧ s.turn ≠ .rst ∧ s.status.cfgLocked = true ∧ t.status.cfgLocked = true)
    ∧ ∃ s t : State, step s = .next t ∧ lockedAccepted s ∧ s.turn ≠ .rst ∧ s.status.cfgLocked = true ∧ t.status.cfgLocked = false :=
  ⟨⟨inFlight 0 (locked 3 []), _, next_got (by decide), by decide, by decide, by decide, by decide⟩,
    ⟨inFlight 2 (locked 3 []), _, next_got (by decide), by decide, by decide, by decide, by decide⟩⟩

/-- The reset state has the whole invariant. -/
theorem reset_inv : Inv State.reset := by
  refine ⟨State.reset_wf _, ?_, reset_receiverInv, ?_⟩ <;> constructor <;> simp [State.reset, Status.reset, RxStatus.reset]

/-- The invariants hold of the reset state, and steps leave it. -/
theorem witness_InvariantsKept : ∃ s t : State, EngineInv s ∧ ReceiverInv s ∧ Inv s ∧ step s = .next t :=
  ⟨State.reset, _, reset_inv.engine, reset_inv.receiver, reset_inv,
    by unfold step stepBy agentStep; cases State.reset.turn <;> rfl⟩

theorem witness_ResetState : ∃ s : State, s.turn = .rst := ⟨onTurn .rst (locked 3 []), rfl⟩

/-- A run of 70_reset_and_hazards.md R440: the SOURCE answers every pull with no byte, so a launch's SOURCE need not be a
finite list. -/
theorem witness_endless_source : ∀ n : Nat,
    (⟨fun _ => some .zero, fun _ => none⟩ : Ports).source (List.replicate n (.pull .seek 1)) = some .zero := fun _ => rfl

/-- Such a run is stuck under Retry, with a program left and the HOST idle (70_reset_and_hazards.md R440). -/
theorem witness_zero_reads (hz : Config.zeroReadPolicy = .retry) :
    ∃ l : Launch, l.EndsAs sourceRx (.stuck .zeroReads) :=
  ⟨⟨rxIn .rx .seeking { locked 3 [] with pullPending := some (.seek, 4112), program := [.rd 0 4] },
      ⟨fun _ => some .zero, fun _ => none⟩⟩,
    Launch.zero_reads_stuck hz (fun _ => rfl) ⟨rfl, rfl, by decide, rfl, rfl, by decide, rfl⟩⟩

/-- An empty program from reset ends at once; a misaligned one ends in the fault of its statement
(70_reset_and_hazards.md R449). -/
theorem witness_ends :
    (Launch.ofReset Config.params [] ⟨fun _ => none, fun _ => none⟩).EndsAs (fun _ => .host) (.done State.reset)
    ∧ (Launch.ofReset Config.params [.rd 0x006 4] ⟨fun _ => none, fun _ => none⟩).EndsAs (fun _ => .host)
      (.fault (.busError (.rd 0x006 4))) :=
  ⟨⟨0, fun k hk => absurd hk (Nat.not_lt_zero k), rfl, rfl⟩,
    ⟨1, fun k hk => match k, hk with | 0, _ => ⟨_, rfl, rfl⟩, rfl⟩⟩

end Sys2Proof.Tests
end

section
/-! The bus accesses that are not performed (20_memory.md R82). -/

namespace Sys2Proof.Machine

/-- An access that is not performed faults in whatever state it runs; with `runStmt_wf`, exactly the statements that are not
well formed fault. -/
theorem runStmt_of_not_wf {stmt : HostStmt} (s : State) (h : stmt.wf = false) :
    runStmt stmt s = .fault (.busError stmt) := by
  cases stmt with
  | wr off width v => exact if_neg (of_decide_eq_false h)
  | rd off width => exact if_neg (of_decide_eq_false h)
  | poll off mask value => exact if_neg (of_decide_eq_false h)
  | waitRx => cases h

/-- The HOST's turn with such a statement first ends in its bus error. -/
theorem step_of_not_wf {s : State} {stmt : HostStmt} {rest : List HostStmt} (ht : s.turn = .host)
    (hp : s.program = stmt :: rest) (h : stmt.wf = false) : step s = .fault (.busError stmt) := by
  rw [step_host ht, hostStep, State.begin_program, hp]
  exact runStmt_of_not_wf _ h

/-- Settles O54: each of the three statements is not well formed when its access is misaligned or not 32 bits wide. -/
theorem misalignedFaults : Obligations.MisalignedFaults := by
  intro s stmt off width v rest ht hp hstmt hbad
  have hacc : ¬ accessWf off width := fun ⟨ha, hw⟩ => hbad.elim (· ha) (· hw)
  apply step_of_not_wf ht hp
  obtain rfl | rfl | ⟨rfl, mask, rfl⟩ := hstmt <;> exact decide_eq_false hacc

end Sys2Proof.Machine
end

section
/-! The byte orders read back, and the header codec in terms of the wire bytes (00_scope.md R9, 40_header_codecs.md R141,
R143, R146): the layer the adapters' statements stand on. -/

namespace Sys2Proof.Machine

/-! ## Big-endian bytes -/

theorem fromBe_append_byte (v : Bytes) (b : Byte) : fromBe (v ++ [b]) = fromBe v * 256 + b.toNat := by
  simp [fromBe]

/-- be_N ends with the lowest byte, while its recursion takes the highest first. -/
theorem be_succ (n x : Nat) : be (n + 1) x = be n (x >>> 8) ++ [BitVec.ofNat 8 x] := by
  induction n with
  | zero => simp [be]
  | succ n ih =>
    rw [be, ih, be, List.cons_append, ← Nat.shiftRight_add, show 8 + 8 * n = 8 * (n + 1) by omega]

theorem fromBe_be (n x : Nat) : fromBe (be n x) = x % 256 ^ n := by
  induction n generalizing x with
  | zero => simp [be, fromBe, Nat.mod_one]
  | succ n ih =>
    rw [be_succ, fromBe_append_byte, ih, BitVec.toNat_ofNat, Nat.shiftRight_eq_div_pow, pow_succ' 256 n, Nat.mod_mul,
      Nat.add_comm, Nat.mul_comm]

theorem be_fromBe (v : Bytes) : be v.length (fromBe v) = v := by
  induction v using List.reverseRecOn with
  | nil => rfl
  | append_singleton v b ih =>
    have hhigh : (fromBe v * 256 + b.toNat) >>> 8 = fromBe v := by
      have := b.isLt
      rw [Nat.shiftRight_eq_div_pow]; omega
    have hlow : BitVec.ofNat 8 (fromBe v * 256 + b.toNat) = b := by
      apply BitVec.eq_of_toNat_eq
      have := b.isLt
      rw [BitVec.toNat_ofNat]; omega
    rw [List.length_append, List.length_singleton, be_succ, fromBe_append_byte, hhigh, hlow, ih]

/-- Comparing a trailer's value with a number is comparing its bytes with the number's. -/
theorem fromBe_eq_iff {v : Bytes} {n x : Nat} (hv : v.length = n) (hx : x < 256 ^ n) : fromBe v = x ↔ v = be n x := by
  constructor
  · rintro rfl
    rw [← hv, be_fromBe]
  · rintro rfl
    rw [fromBe_be, Nat.mod_eq_of_lt hx]

theorem be_two_toNat (c : Half) : be 2 c.toNat = beHalf c := by rw [be_two, BitVec.ofNat_toNat, BitVec.setWidth_eq]

theorem be_four_toNat (c : Word) : be 4 c.toNat = beWord c := by rw [be_four, BitVec.ofNat_toNat, BitVec.setWidth_eq]

theorem fromBe_eq_half {v : Bytes} (hv : v.length = 2) (c : Half) : fromBe v = c.toNat ↔ v = beHalf c := by
  rw [fromBe_eq_iff hv (show c.toNat < 256 ^ 2 from c.isLt), be_two_toNat]

theorem fromBe_eq_word {v : Bytes} (hv : v.length = 4) (c : Word) : fromBe v = c.toNat ↔ v = beWord c := by
  rw [fromBe_eq_iff hv (show c.toNat < 256 ^ 4 from c.isLt), be_four_toNat]

@[simp] theorem beWord_length (c : Word) : (beWord c).length = 4 := rfl

theorem beWord_injective {c c' : Word} : beWord c = beWord c' ↔ c = c' := by
  rw [← be_four_toNat, ← fromBe_eq_word (by simp), fromBe_be, Nat.mod_eq_of_lt (show c.toNat < 256 ^ 4 from c.isLt),
    BitVec.toNat_inj]

/-! ## The ranges of a header kind -/

theorem finRange_eight : List.finRange 8 = [0, 1, 2, 3, 4, 5, 6, 7] := by decide

theorem headerInRange_cspv1 (h : Vector Half 8) : headerInRange .cspv1 h = true ↔
    h[0].toNat ≤ 3 ∧ h[1].toNat ≤ 31 ∧ h[2].toNat ≤ 31 ∧ h[3].toNat ≤ 63 ∧ h[4].toNat ≤ 63 := by
  simp [headerInRange, finRange_eight, slotInRange, slotMaxima]

theorem headerInRange_cspv2 (h : Vector Half 8) : headerInRange .cspv2 h = true ↔
    h[0].toNat ≤ 3 ∧ h[1].toNat ≤ 16383 ∧ h[2].toNat ≤ 16383 ∧ h[3].toNat ≤ 63 ∧ h[4].toNat ≤ 63 := by
  simp [headerInRange, finRange_eight, slotInRange, slotMaxima]

theorem headerInRange_sfhdr (h : Vector Half 8) : headerInRange .sfhdr h = true ↔
    h[0].toNat = 0 ∧ h[1].toNat ≤ 1024 := by
  simp [headerInRange, finRange_eight, slotInRange, slotMaxima]

theorem headerInRange_olchdr (h : Vector Half 8) : headerInRange .olchdr h = true ↔
    (h[0].toNat ≤ 251 ∧ 6 ≤ h[0].toNat) ∧ h[3].toNat ≤ 255 ∧ h[4].toNat ≤ 255 := by
  simp [headerInRange, finRange_eight, slotInRange, slotMaxima]
  omega

theorem headerInRange_olshdr (h : Vector Half 8) : headerInRange .olshdr h = true ↔
    h[0].toNat ≤ 255 ∧ h[1].toNat ≤ 255 ∧ h[3].toNat ≤ 255 ∧ h[4].toNat ≤ 255 := by
  simp [headerInRange, finRange_eight, slotInRange, slotMaxima]
  omega

theorem validate_isSome_iff (k : HeaderKind) (h : Vector Half 8) :
    (validate k h).isSome = true ↔ ¬ headerInRange k h = true := by
  rw [← validate_eq_none_iff, ← ne_eq, Option.isSome_iff_ne_none]

/-! ## decode_k on the first bytes of a sequence -/

theorem hlen_eq_wireLength (k : HeaderKind) : hlen k = wireLength k := by cases k <;> rfl

theorem take_eq_bytesOf {v : Bytes} {n : Nat} (h : n ≤ v.length) : v.take n = bytesOf (v.getD · 0) n := by
  apply List.ext_getElem
  · simp [bytesOf, h]
  · intro i hi _
    have : i < v.length := by simp at hi; omega
    simp [bytesOf, this]

/-- What decode_k refuses under DECODE_CHECK: a reserved bit that is set, or a field out of its range
(40_header_codecs.md R146). -/
abbrev decodeRefuses (k : HeaderKind) (b : Nat → Byte) : Prop :=
  wireReserved k b ≠ 0 ∨ headerInRange k (wireFields k b) = false

/-- decode_k of the first HLEN_k bytes cannot fail on the length. -/
theorem decodeHeader_take (k : HeaderKind) {v : Bytes} (h : hlen k ≤ v.length) :
    decodeHeader k (v.take (hlen k)) =
      if Config.decodeCheck k = true ∧ decodeRefuses k (v.getD · 0) then .error .headerDecodeError
      else .ok (wireFields k (v.getD · 0)) := by
  obtain ⟨hfields, hrsv⟩ := unpack_eq_wire k (v.getD · 0)
  have hlength : (v.take (hlen k)).length = hlen k := by simp [h]
  have hcond : ((((unpack k (v.take (hlen k))).2 != 0
      || (validate k (unpack k (v.take (hlen k))).1).isSome) && Config.decodeCheck k) = true) ↔
      Config.decodeCheck k = true ∧ decodeRefuses k (v.getD · 0) := by
    rw [take_eq_bytesOf h, hlen_eq_wireLength, hfields, Bool.and_eq_true, Bool.or_eq_true, bne_iff_ne, ne_eq, hrsv,
      validate_isSome_iff, Bool.not_eq_true, and_comm, decodeRefuses]
  unfold decodeHeader
  simp only [hlength, ne_eq, not_true_eq_false, if_false, hcond]
  rw [take_eq_bytesOf h, hlen_eq_wireLength, hfields]

/-- The fields of a CSPv1 header fill their ranges, so only the reserved byte can be refused. -/
theorem decodeRefuses_cspv1 (b : Nat → Byte) : decodeRefuses .cspv1 b ↔ b 3 ≠ 0 := by
  have : headerInRange .cspv1 (wireFields .cspv1 b) = true := by
    rw [headerInRange_cspv1]; simp [wireFields]; omega
  simp [decodeRefuses, this, wireReserved]

theorem decodeRefuses_cspv2 (b : Nat → Byte) : decodeRefuses .cspv2 b ↔ b 5 &&& 0x3F ≠ 0 := by
  have : headerInRange .cspv2 (wireFields .cspv2 b) = true := by
    rw [headerInRange_cspv2]; simp [wireFields]; omega
  simp [decodeRefuses, this, wireReserved]

/-- The header of a space packet has no reserved bit and every value of its fields is in range. -/
theorem decodeRefuses_olshdr (b : Nat → Byte) : ¬ decodeRefuses .olshdr b := by
  have : headerInRange .olshdr (wireFields .olshdr b) = true := by
    rw [headerInRange_olshdr]; simp [wireFields]; omega
  simp [decodeRefuses, this, wireReserved]

/-- A client header is refused for its length byte only. -/
theorem decodeRefuses_olchdr (b : Nat → Byte) : decodeRefuses .olchdr b ↔ (b 0).toNat < 6 ∨ 251 < (b 0).toNat := by
  have : headerInRange .olchdr (wireFields .olchdr b) = true ↔ 6 ≤ (b 0).toNat ∧ (b 0).toNat ≤ 251 := by
    rw [headerInRange_olchdr]; simp [wireFields]; omega
  rw [decodeRefuses, ← Bool.not_eq_true, this]
  simp [wireReserved]
  omega

theorem top_bit_set (x : Byte) : x &&& 0x80 ≠ 0 ↔ x.getLsbD 7 = true := by decide +revert

theorem decodeRefuses_sfhdr (b : Nat → Byte) : decodeRefuses .sfhdr b ↔
    (b 0 ++ b 1).getLsbD 15 = true ∨ (b 0 ++ b 1).extractLsb' 11 4 ≠ 0
      ∨ 1024 < ((b 0 ++ b 1).extractLsb' 0 11).toNat := by
  have hrsv : b 0 &&& 0x80 ≠ 0 ↔ (b 0 ++ b 1).getLsbD 15 = true := by
    rw [top_bit_set, BitVec.getLsbD_append]
    rfl
  have hfields : headerInRange .sfhdr (wireFields .sfhdr b) = true ↔
      (b 0 ++ b 1).extractLsb' 11 4 = 0 ∧ ((b 0 ++ b 1).extractLsb' 0 11).toNat ≤ 1024 := by
    rw [headerInRange_sfhdr, ← BitVec.toNat_inj]
    simp [wireFields]
    omega
  rw [decodeRefuses, ← Bool.not_eq_true, hfields, wireReserved, hrsv, not_and_or, not_le]

end Sys2Proof.Machine
end

section
/-! The CRC adapters (42_adapters.md R232, R233, 41_crc.md R204, R205). -/

namespace Sys2Proof.Machine

theorem trailerLen_eq {d : Desc} (hk : d.kind = 1 ∨ d.kind = 2) : trailerLen d = if d.kind = 1 then 2 else 4 := by
  obtain hk | hk := hk <;> rw [trailerLen, hk] <;> rfl

theorem variant_eq (d : Desc) : d.variant = (d.opts.extractLsb' 0 2).toNat := slice_toNat d.opts 1 0 2 rfl

/-- An accepted CRC descriptor has a CRC, the one of its raw fields. -/
theorem crcAdp_of_accepted {p : Params} {d : Desc} (hd : d.accepted p) (hk : d.kind = 1 ∨ d.kind = 2) (v : Bytes) :
    crcAdp d v = some (d.crcValue v) := by
  obtain ⟨-, -, -, hvariant, -⟩ := hd
  obtain hk | hk := hk
  · have hkind : adapterKindOf d.kind = some .crc16 := by rw [hk]; rfl
    have hwide : (crc (p16 d) v).setWidth 32 = 0#16 ++ crc (p16 d) v := by
      apply BitVec.eq_of_toNat_eq
      rw [BitVec.toNat_append, BitVec.toNat_setWidth_of_le (by decide)]
      simp
    simp only [crcAdp, hkind, hwide]
    rw [Desc.crcValue, if_pos hk]
    rfl
  · have hkind : adapterKindOf d.kind = some .crc32 := by rw [hk]; rfl
    have hne : d.kind ≠ 1 := by rw [hk]; decide
    simp only [crcAdp, hkind]
    rw [variant_eq, Desc.crcValue, if_neg hne]
    obtain h1 | h2 := hvariant hk
    · simp [h1]
    · simp [h2]

/-- The CRC fits its trailer. -/
theorem crcValue_lt {d : Desc} (hk : d.kind = 1 ∨ d.kind = 2) (v : Bytes) :
    (d.crcValue v).toNat < 256 ^ trailerLen d := by
  rw [trailerLen_eq hk]
  by_cases h1 : d.kind = 1
  · rw [if_pos h1, Desc.crcValue, if_pos h1, BitVec.toNat_append]
    simpa using BitVec.isLt _
  · rw [if_neg h1]
    exact BitVec.isLt _

/-- The trailer bytes of a CRC value. -/
theorem be_trailerLen {d : Desc} (hk : d.kind = 1 ∨ d.kind = 2) (c : Word) :
    be (trailerLen d) c.toNat = if d.kind = 1 then beHalf (c.extractLsb' 0 16) else beWord c := by
  rw [trailerLen_eq hk]
  split
  · rw [be_two, BitVec.ofNat_toNat, BitVec.setWidth_eq_extractLsb' (by decide)]
  · exact be_four_toNat c

theorem wrap_crc {d : Desc} (hk : d.kind = 1 ∨ d.kind = 2) (p : Params) (v : Bytes) : wrap p d v = wrapCrc p d v := by
  obtain hk | hk := hk <;> rw [wrap, hk] <;> rfl

theorem unwrap_crc {d : Desc} (hk : d.kind = 1 ∨ d.kind = 2) (v : Bytes) : unwrap d v = unwrapCrc d v := by
  obtain hk | hk := hk <;> rw [unwrap, hk] <;> rfl

theorem wrapCrc_eq {p : Params} {d : Desc} (hd : d.accepted p) (hk : d.kind = 1 ∨ d.kind = 2) (v : Bytes) :
    wrapCrc p d v = if p.datapathMax < v.length + trailerLen d then .error .capacityExceeded
      else .ok (v ++ be (trailerLen d) (d.crcValue v).toNat) := by
  simp only [wrapCrc, crcAdp_of_accepted hd hk, withinDatapath, List.length_append, be_length]

theorem unwrapCrc_eq {p : Params} {d : Desc} (hd : d.accepted p) (hk : d.kind = 1 ∨ d.kind = 2) (v : Bytes) :
    unwrapCrc d v =
      if v.length ≤ trailerLen d then .error .tooShort
      else if v.drop (v.length - trailerLen d)
          = be (trailerLen d) (d.crcValue (v.take (v.length - trailerLen d))).toNat then
        .ok (v.take (v.length - trailerLen d))
      else .error .crcMismatch := by
  simp only [unwrapCrc, crcAdp_of_accepted hd hk]
  refine if_ctx_congr Iff.rfl (fun _ => rfl) fun hlong => ?_
  have htrailer : (v.drop (v.length - trailerLen d)).length = trailerLen d := by
    rw [List.length_drop]; omega
  simp only [ne_eq, ite_not, fromBe_eq_iff htrailer (crcValue_lt hk _)]

/-- Settles O23: both results are those of `wrapCrc` and `unwrapCrc`, whose trailer bytes are the kind's. -/
theorem crcAdapter : Obligations.CrcAdapter := by
  intro p d v hd hk
  dsimp only
  simp only [← trailerLen_eq hk, ← be_trailerLen hk]
  exact ⟨(wrap_crc hk p v).trans (wrapCrc_eq hd hk v), (unwrap_crc hk v).trans (unwrapCrc_eq hd hk v)⟩

end Sys2Proof.Machine
end

section
/-! The CSP adapters (42_adapters.md R248 to R255). -/

namespace Sys2Proof.Machine

theorem wrap_cspv1 {d : Desc} (hk : d.kind = 4) (p : Params) (v : Bytes) :
    wrap p d v = wrapCsp p .cspv1 (cspv1Header d) d.maxData v := by rw [wrap, hk]; rfl

theorem wrap_cspv2 {d : Desc} (hk : d.kind = 5) (p : Params) (v : Bytes) :
    wrap p d v = wrapCsp p .cspv2 (cspv2Header d) d.maxData v := by rw [wrap, hk]; rfl

theorem unwrap_cspv1 {d : Desc} (hk : d.kind = 4) (v : Bytes) : unwrap d v = unwrapCsp .cspv1 d.maxData v := by
  rw [unwrap, hk]; rfl

theorem unwrap_cspv2 {d : Desc} (hk : d.kind = 5) (v : Bytes) : unwrap d v = unwrapCsp .cspv2 d.maxData v := by
  rw [unwrap, hk]; rfl

/-- The header bytes stand in their layout wherever check_csp_header passes. -/
theorem wrapCsp_eq (p : Params) (k : HeaderKind) (hdr : Vector Half 8) (maxData : Nat) (v : Bytes) :
    wrapCsp p k hdr maxData v =
      if maxData < v.length then .error .payloadTooLarge
      else if ¬ headerInRange k hdr = true then .error .headerFieldOutOfRange
      else if p.datapathMax < hlen k + v.length then .error .capacityExceeded
      else .ok (wireHeader k hdr ++ v) := by
  simp only [wrapCsp, validate_isSome_iff, withinDatapath, List.length_append, pack_length]
  refine if_ctx_congr Iff.rfl (fun _ => rfl) fun _ => if_ctx_congr Iff.rfl (fun _ => rfl) fun hr => ?_
  rw [pack_eq_wire k hdr (not_not.1 hr)]

theorem unwrapCsp_eq (k : HeaderKind) (maxData : Nat) (v : Bytes) :
    unwrapCsp k maxData v =
      if hlen k + maxData < v.length then .error .payloadTooLarge
      else if v.length < hlen k then .error .headerDecodeError
      else if Config.decodeCheck k = true ∧ decodeRefuses k (v.getD · 0) then .error .headerDecodeError
      else .ok (v.drop (hlen k)) := by
  unfold unwrapCsp
  refine if_ctx_congr Iff.rfl (fun _ => rfl) fun _ => if_ctx_congr Iff.rfl (fun _ => rfl) fun hlong => ?_
  rw [decodeHeader_take k (Nat.not_lt.1 hlong)]
  by_cases hbad : Config.decodeCheck k = true ∧ decodeRefuses k (v.getD · 0)
  · rw [if_pos hbad, if_pos hbad]
  · rw [if_neg hbad, if_neg hbad]

/-- The low bits of a descriptor field that stands in a header slot. -/
theorem slot_low_bits {w : Nat} (x : BitVec w) (lo len n : Nat) (hlen : n ≤ len) (hslot : n ≤ 16) :
    (BitVec.ofNat 16 (x.extractLsb' lo len).toNat).extractLsb' 0 n = x.extractLsb' lo n := by
  apply BitVec.eq_of_getLsbD_eq
  intro i hi
  have hfield : i < len := by omega
  have hwidth : i < 16 := by omega
  rw [BitVec.ofNat_toNat]
  simp only [BitVec.getLsbD_extractLsb', BitVec.getLsbD_setWidth, Nat.zero_add, hi, hfield, hwidth, decide_true,
    Bool.true_and]

theorem headerInRange_cspv1Header (d : Desc) : headerInRange .cspv1 (cspv1Header d) = true ↔
    d.w3.extractLsb' 0 8 ≤ 3 ∧ d.w2.extractLsb' 16 16 ≤ 31 ∧ d.w2.extractLsb' 0 16 ≤ 31
      ∧ d.w3.extractLsb' 8 8 ≤ 63 ∧ d.w3.extractLsb' 16 8 ≤ 63 := by
  rw [headerInRange_cspv1, cspv1Header, header_five]
  simp [BitVec.le_def, Desc.w3b0, Desc.w2hi, Desc.w2lo, Desc.w3b1, Desc.w3b2, -BitVec.extractLsb'_toNat]
  omega

theorem headerInRange_cspv2Header (d : Desc) : headerInRange .cspv2 (cspv2Header d) = true ↔
    d.w3.extractLsb' 0 8 ≤ 3 ∧ d.w2.extractLsb' 0 16 ≤ 16383 ∧ d.w2.extractLsb' 16 16 ≤ 16383
      ∧ d.w3.extractLsb' 8 8 ≤ 63 ∧ d.w3.extractLsb' 16 8 ≤ 63 := by
  rw [headerInRange_cspv2, cspv2Header, header_five]
  simp [BitVec.le_def, Desc.w3b0, Desc.w2hi, Desc.w2lo, Desc.w3b1, Desc.w3b2, -BitVec.extractLsb'_toNat]
  omega

theorem wireHeader_cspv1Header (d : Desc) : wireHeader .cspv1 (cspv1Header d) =
    beWord (d.w3.extractLsb' 0 2 ++ d.w2.extractLsb' 16 5 ++ d.w2.extractLsb' 0 5 ++ d.w3.extractLsb' 8 6
      ++ d.w3.extractLsb' 16 6 ++ 0#8) := by
  have hprio := slot_low_bits d.w3 0 8 2 (by decide) (by decide)
  have hsrc := slot_low_bits d.w2 16 16 5 (by decide) (by decide)
  have hdst := slot_low_bits d.w2 0 16 5 (by decide) (by decide)
  have hdport := slot_low_bits d.w3 8 8 6 (by decide) (by decide)
  have hsport := slot_low_bits d.w3 16 8 6 (by decide) (by decide)
  rw [cspv1Header, header_five, ← hprio, ← hsrc, ← hdst, ← hdport, ← hsport]
  rfl

theorem wireHeader_cspv2Header (d : Desc) : wireHeader .cspv2 (cspv2Header d) =
    beSix (d.w3.extractLsb' 0 2 ++ d.w2.extractLsb' 0 14 ++ d.w2.extractLsb' 16 14 ++ d.w3.extractLsb' 8 6
      ++ d.w3.extractLsb' 16 6 ++ 0#6) := by
  have hprio := slot_low_bits d.w3 0 8 2 (by decide) (by decide)
  have hdst := slot_low_bits d.w2 0 16 14 (by decide) (by decide)
  have hsrc := slot_low_bits d.w2 16 16 14 (by decide) (by decide)
  have hdport := slot_low_bits d.w3 8 8 6 (by decide) (by decide)
  have hsport := slot_low_bits d.w3 16 8 6 (by decide) (by decide)
  rw [cspv2Header, header_five, ← hprio, ← hdst, ← hsrc, ← hdport, ← hsport]
  rfl

/-- Settles O26: the checks are those of `wrapCsp`, on the header of the descriptor's fields. -/
theorem cspWrap : Obligations.CspWrap := by
  intro p d v
  refine ⟨fun hk => ?_, fun hk => ?_⟩
  · rw [wrap_cspv1 hk, wrapCsp_eq, wireHeader_cspv1Header]
    simp only [headerInRange_cspv1Header]
    rfl
  · rw [wrap_cspv2 hk, wrapCsp_eq, wireHeader_cspv2Header]
    simp only [headerInRange_cspv2Header]
    rfl

/-- Settles O27: the checks are those of `unwrapCsp`, and every field of a CSP header is in its range. -/
theorem cspUnwrap : Obligations.CspUnwrap := by
  intro d v
  refine ⟨fun hk => ?_, fun hk => ?_⟩
  · rw [unwrap_cspv1 hk, unwrapCsp_eq]
    simp only [decodeRefuses_cspv1]
    rfl
  · rw [unwrap_cspv2 hk, unwrapCsp_eq]
    simp only [decodeRefuses_cspv2]
    rfl

end Sys2Proof.Machine
end

section
/-! The SPACEFRAME adapter (42_adapters.md R240 to R242). -/

namespace Sys2Proof.Machine

theorem wrap_spaceframe {d : Desc} (hk : d.kind = 3) (p : Params) (v : Bytes) : wrap p d v = wrapSf d v := by
  rw [wrap, hk]; rfl

theorem unwrap_spaceframe {d : Desc} (hk : d.kind = 3) (v : Bytes) : unwrap d v = unwrapSf d v := by
  rw [unwrap, hk]; rfl

/-- The frame type of an accepted descriptor is 0. -/
theorem sfType_of_accepted {p : Params} {d : Desc} (hd : d.accepted p) (hk : d.kind = 3) : d.sfType = 0 := by
  obtain ⟨-, -, -, -, hsf⟩ := hd
  rw [Desc.sfType, slice_toNat d.opts 7 4 4 rfl, (hsf hk).1]
  rfl

/-! ## Wrap -/

theorem pack_sfhdr_length (n : Nat) : pack .sfhdr (header [0, n]) = beHalf (BitVec.ofNat 16 n) := by
  have hlow : fld (header [0, n]) 1 = n % 65536 := by rw [header_two]; exact BitVec.toNat_ofNat n 16
  have htype : fld (header [0, n]) 0 = 0 := by rw [header_two]; rfl
  rw [pack, htype, hlow, Nat.zero_shiftLeft, Nat.zero_or, be_two]
  exact congrArg beHalf (BitVec.eq_of_toNat_eq (by simp))

/-- The only field of a type 0 header that can leave its range is the length. -/
theorem headerInRange_sfhdr_length {n : Nat} (hn : n < 65536) :
    headerInRange .sfhdr (header [0, n]) = true ↔ n ≤ 1024 := by
  rw [headerInRange_sfhdr, header_two]
  simp
  omega

theorem wrapSf_eq {d : Desc} (htype : d.sfType = 0) (v : Bytes) :
    wrapSf d v =
      let body := beHalf (BitVec.ofNat 16 v.length) ++ v ++ zeros (d.pds - v.length)
      if d.pds < v.length then .error .payloadTooLarge
      else if 1024 < v.length then .error .headerFieldOutOfRange
      else .ok ((if d.withAsm then asm else []) ++ body ++ (if d.withCrc then beWord (crc c32c body) else [])) := by
  simp only [wrapSf, htype, pack_sfhdr_length, validate_isSome_iff, appendCrc32c, be_four_toNat]
  refine if_ctx_congr Iff.rfl (fun _ => rfl) fun hfits => ?_
  have hpds : d.pds < 65536 := d.w1lo.isLt
  simp only [headerInRange_sfhdr_length (show v.length < 65536 by omega), not_le]
  cases d.withAsm <;> cases d.withCrc <;> simp

/-- Settles O24: the result of `wrapSf` with the type 0 of an accepted descriptor. -/
theorem spaceframeWrap : Obligations.SpaceframeWrap := by
  intro p d v hd hk
  exact (wrap_spaceframe hk p v).trans (wrapSf_eq (sfType_of_accepted hd hk) v)

/-! ## Unwrap -/

theorem unwrapSf_of_length_ne {d : Desc} {f : Bytes} (h : f.length ≠ fsize d) :
    unwrapSf d f = .error .lengthMismatch := if_pos h

theorem unwrapSf_of_asm_ne {d : Desc} {f : Bytes} (h : f.length = fsize d) (ha : d.withAsm = true) (hne : f.take 4 ≠ asm) :
    unwrapSf d f = .error .asmMismatch := by
  rw [unwrapSf, if_neg (not_not.2 h), if_pos ha, if_pos hne]

/-- A frame of the right length is taken apart after its marker. -/
theorem unwrapSf_marker_append {d : Desc} {g : Bytes} (h : ((if d.withAsm then asm else []) ++ g).length = fsize d) :
    unwrapSf d ((if d.withAsm then asm else []) ++ g) = unwrapSfCrc d g := by
  rw [unwrapSf, if_neg (not_not.2 h)]
  cases d.withAsm <;> simp [asm]

/-- The CRC step compares the last four bytes with the CRC of what stands before them. -/
theorem unwrapSfCrc_append (d : Desc) (body : Bytes) (c : Word) :
    unwrapSfCrc d (body ++ (if d.withCrc then beWord c else [])) =
      if d.withCrc = true ∧ c ≠ crc c32c body then .error .crcMismatch else unwrapSfBody d body := by
  cases hcrc : d.withCrc with
  | false => simp [unwrapSfCrc, hcrc]
  | true =>
    have hcmp : fromBe (beWord c) = (crc c32c body).toNat ↔ c = crc c32c body := by
      rw [fromBe_eq_word (beWord_length c), beWord_injective]
    simp [unwrapSfCrc, hcrc, hcmp]

theorem fld_sfhdr_type (b : Nat → Byte) :
    fld (wireFields .sfhdr b) 0 = ((b 0 ++ b 1).extractLsb' 11 4).toNat :=
  BitVec.toNat_setWidth_of_le (by decide)

theorem fld_sfhdr_length (b : Nat → Byte) :
    fld (wireFields .sfhdr b) 1 = ((b 0 ++ b 1).extractLsb' 0 11).toNat :=
  BitVec.toNat_setWidth_of_le (by decide)

/-- The last checks, on the two header bytes and what follows them. -/
theorem unwrapSfBody_cons {d : Desc} (htype : d.sfType = 0) (h0 h1 : Byte) (q : Bytes) :
    unwrapSfBody d (h0 :: h1 :: q) =
      if Config.decodeCheck .sfhdr = true ∧ decodeRefuses .sfhdr ((h0 :: h1 :: q).getD · 0) then
        .error .headerDecodeError
      else if (h0 ++ h1).extractLsb' 11 4 ≠ 0 then .error .typeMismatch
      else if d.pds < ((h0 ++ h1).extractLsb' 0 11).toNat then .error .lengthMismatch
      else .ok (q.take ((h0 ++ h1).extractLsb' 0 11).toNat) := by
  have htake : decodeHeader .sfhdr ((h0 :: h1 :: q).take 2) = _ := decodeHeader_take .sfhdr (by simp [hlen])
  rw [unwrapSfBody, htake]
  by_cases hbad : Config.decodeCheck .sfhdr = true ∧ decodeRefuses .sfhdr ((h0 :: h1 :: q).getD · 0)
  · rw [if_pos hbad, if_pos hbad]
  · rw [if_neg hbad, if_neg hbad]
    have hzero : ((h0 ++ h1).extractLsb' 11 4).toNat ≠ 0 ↔ (h0 ++ h1).extractLsb' 11 4 ≠ 0 :=
      not_congr (BitVec.toNat_inj (y := 0))
    simp only [fld_sfhdr_type, fld_sfhdr_length, htype, List.getD_cons_zero, List.getD_cons_succ, hzero, sub,
      List.drop_succ_cons, List.drop_zero, Nat.add_sub_cancel_left]

/-- Settles O25: a frame of the right length goes through the marker, the CRC and the header, in that order. -/
theorem spaceframeUnwrap : Obligations.SpaceframeUnwrap := by
  intro p d hd hk pds size
  have hsize : size = fsize d := by
    show 2 + d.pds + (if d.withAsm then 4 else 0) + (if d.withCrc then 4 else 0) = fsize d
    rw [fsize]; omega
  refine ⟨fun f hf => ?_, fun f hf ha hne => ?_, fun h0 h1 q c (hq : q.length = d.pds) => ?_⟩
  · rw [unwrap_spaceframe hk, unwrapSf_of_length_ne (hsize ▸ hf)]
  · rw [unwrap_spaceframe hk, unwrapSf_of_asm_ne (hsize ▸ hf) ha hne]
  · intro body w
    have hbody : body.length = 2 + d.pds := by
      rw [List.length_cons, List.length_cons, hq]; omega
    have hlength : ((if d.withAsm then asm else []) ++ (body ++ (if d.withCrc then beWord c else []))).length = fsize d := by
      rw [fsize, List.length_append, List.length_append, hbody]
      cases d.withAsm <;> cases d.withCrc <;> simp [asm] <;> omega
    rw [unwrap_spaceframe hk, List.append_assoc]
    refine (unwrapSf_marker_append hlength).trans ((unwrapSfCrc_append d body c).trans ?_)
    rw [unwrapSfBody_cons (sfType_of_accepted hd hk)]
    simp only [decodeRefuses_sfhdr]
    rfl

end Sys2Proof.Machine
end

section
/-! The unwraps of the OpenLST adapters (42_adapters.md R263, R268). -/

namespace Sys2Proof.Machine

theorem unwrap_olstClient {d : Desc} (hk : d.kind = 6) (v : Bytes) : unwrap d v = unwrapOlc v := by
  rw [unwrap, hk]; rfl

theorem unwrap_olstSpace {d : Desc} (hk : d.kind = 7) (v : Bytes) : unwrap d v = unwrapOls v := by
  rw [unwrap, hk]; rfl

/-- Slot 0 of either OpenLST header is the length byte. -/
theorem fld_olchdr_length (b : Nat → Byte) : fld (wireFields .olchdr b) 0 = (b 0).toNat :=
  BitVec.toNat_setWidth_of_le (by decide)

theorem fld_olshdr_length (b : Nat → Byte) : fld (wireFields .olshdr b) 0 = (b 0).toNat :=
  BitVec.toNat_setWidth_of_le (by decide)

/-- The decode of a space header cannot fail, whatever DECODE_CHECK is. -/
theorem decodeHeader_olshdr_take {v : Bytes} (h : 6 ≤ v.length) :
    decodeHeader .olshdr (v.take 6) = .ok (wireFields .olshdr (v.getD · 0)) :=
  (decodeHeader_take .olshdr h).trans (if_neg fun hbad => decodeRefuses_olshdr _ hbad.2)

theorem unwrapOlc_eq (v : Bytes) :
    unwrapOlc v =
      if v.length < 7 then .error .headerDecodeError
      else if Config.decodeCheck .olchdr = true ∧ decodeRefuses .olchdr (v.getD · 0) then .error .headerDecodeError
      else if (v.getD 0 0).toNat ≠ v.length - 1 then .error .lengthMismatch
      else .ok (v.drop 7) := by
  unfold unwrapOlc
  refine if_ctx_congr Iff.rfl (fun _ => rfl) fun hlong => ?_
  have htake : decodeHeader .olchdr (v.take 7) = _ := decodeHeader_take .olchdr (Nat.not_lt.1 hlong)
  rw [htake]
  by_cases hbad : Config.decodeCheck .olchdr = true ∧ decodeRefuses .olchdr (v.getD · 0)
  · rw [if_pos hbad, if_pos hbad]
  · rw [if_neg hbad, if_neg hbad]
    simp only [fld_olchdr_length]

theorem unwrapOls_eq (v : Bytes) :
    unwrapOls v =
      if v.length < 10 then .error .headerDecodeError
      else if v.drop (v.length - 2) ≠ beHalf (cc1110 (v.take (v.length - 2))) then .error .crcMismatch
      else if (v.getD 0 0).toNat ≠ v.length - 1 then .error .lengthMismatch
      else .ok ((v.drop 6).take (v.length - 10)) := by
  unfold unwrapOls
  refine if_ctx_congr Iff.rfl (fun _ => rfl) fun hlong => ?_
  have hfooter : (v.drop (v.length - 2)).length = 2 := by rw [List.length_drop]; omega
  simp only [ne_eq, fromBe_eq_half hfooter, decodeHeader_olshdr_take (show 6 ≤ v.length by omega), fld_olshdr_length,
    sub, Nat.sub_sub]

/-- Settles O29: the two unwraps, with the decode of their headers in terms of the wire bytes. -/
theorem openLstUnwrap : Obligations.OpenLstUnwrap := by
  intro d v
  refine ⟨fun hk => ?_, fun hk => ?_⟩
  · rw [unwrap_olstClient hk, unwrapOlc_eq]
    simp only [decodeRefuses_olchdr]
  · rw [unwrap_olstSpace hk, unwrapOls_eq]

end Sys2Proof.Machine
end

section
/-! The configuration check and CFG.LOCK (43_pipeline_and_control.md R297, R299): the check's adapter kinds in terms of
the KIND codes, and its chain in terms of the eight descriptors. -/

namespace Sys2Proof.Machine

/-! ## One descriptor -/

theorem adapterKindOf_crc16_iff {k : BitVec 4} : adapterKindOf k = some .crc16 ↔ k = 1 := by decide +revert

theorem adapterKindOf_crc32_iff {k : BitVec 4} : adapterKindOf k = some .crc32 ↔ k = 2 := by decide +revert

theorem adapterKindOf_spaceframe_iff {k : BitVec 4} : adapterKindOf k = some .spaceframe ↔ k = 3 := by decide +revert

theorem adapterKindOf_isSome_iff {k : BitVec 4} : (adapterKindOf k).isSome = true ↔ 1 ≤ k.toNat ∧ k.toNat ≤ 7 := by
  decide +revert

/-- Every kind passes the check; three of them have a condition of their own. -/
theorem Desc.valid_iff_of_kind (p : Params) (d : Desc) : d.valid p = true ↔
    (adapterKindOf d.kind).isSome = true
      ∧ (adapterKindOf d.kind = some .crc16 → d.w1lo ≠ 0)
      ∧ (adapterKindOf d.kind = some .crc32 → d.variant = 1 ∨ d.variant = 2)
      ∧ (adapterKindOf d.kind = some .spaceframe → d.sfType = 0 ∧ d.pds ≤ p.frameMax) := by
  unfold Desc.valid
  cases adapterKindOf d.kind with
  | none => simp
  | some a => cases a <;> simp

theorem sfType_eq (d : Desc) : d.sfType = (d.opts.extractLsb' 4 4).toNat := slice_toNat d.opts 7 4 4 rfl

theorem Desc.valid_iff_accepted (p : Params) (d : Desc) : d.valid p = true ↔ d.accepted p := by
  have hone : d.variant = 1 ↔ d.opts.extractLsb' 0 2 = 1 := by rw [variant_eq]; exact BitVec.toNat_inj (y := 1)
  have htwo : d.variant = 2 ↔ d.opts.extractLsb' 0 2 = 2 := by rw [variant_eq]; exact BitVec.toNat_inj (y := 2)
  have htype : d.sfType = 0 ↔ d.opts.extractLsb' 4 4 = 0 := by rw [sfType_eq]; exact BitVec.toNat_inj (y := 0)
  rw [Desc.valid_iff_of_kind, adapterKindOf_isSome_iff, adapterKindOf_crc16_iff, adapterKindOf_crc32_iff,
    adapterKindOf_spaceframe_iff, hone, htwo, htype, and_assoc]
  rfl

/-! ## The chain -/

theorem Cfg.desc_val (c : Cfg) (i : Fin 8) : c.desc i.val = c.adp[i] := by simp [Cfg.desc]

theorem range_eq_filter_finRange {n : Nat} (hn : n ≤ 8) :
    List.range n = ((List.finRange 8).filter fun i => decide (i.val < n)).map Fin.val := by
  decide +revert

/-- The check runs over the descriptors below N, the statement over the eight registers; with N at most 8 they find the
same first failure. -/
theorem chain_find_eq_firstBad (p : Params) {c : Cfg} (hn : c.n ≤ 8) :
    (c.chain.find? fun q => !q.2.valid p).map (·.1) = (c.firstBad p).map Fin.val := by
  have hbad : ∀ i : Fin 8, (!(c.desc i.val).valid p) = decide (¬ c.adp[i].accepted p) := fun i => by
    rw [Cfg.desc_val, Bool.eq_iff_iff, Bool.not_eq_true', decide_eq_true_iff, ← Desc.valid_iff_accepted,
      Bool.not_eq_true]
  rw [Cfg.chain, range_eq_filter_finRange hn, List.find?_map, List.find?_map, List.find?_filter, Cfg.firstBad]
  simp only [Option.map_map, Function.comp_def, hbad, Cfg.n, Bool.decide_and, Bool.decide_eq_true]
  rfl

/-! ## The check -/

theorem globalsAccepted_iff (p : Params) (c : Cfg) : c.globalsAccepted p ↔
    1 ≤ c.m ∧ c.m ≤ p.syncMax ∧ 1 ≤ c.fs ∧ c.fs ≤ p.frameMax ∧ c.n ≤ p.adpMax := Iff.rfl

theorem cfgCheck_of_globals_refused {p : Params} {c : Cfg} (h : ¬ c.globalsAccepted p) : cfgCheck p c = some 0xF := by
  unfold cfgCheck
  split_ifs with hsync hframe hadp
  · rfl
  · rfl
  · rfl
  · rw [globalsAccepted_iff] at h
    omega

/-- Lawful sizes are needed here: with ADP_MAX above 8 the chain could run past the last descriptor. -/
theorem cfgCheck_of_globals_accepted {p : Params} {c : Cfg} (hp : p.wf) (h : c.globalsAccepted p) :
    cfgCheck p c = (c.firstBad p).map Fin.val := by
  obtain ⟨-, -, -, ⟨-, hadp⟩, -⟩ := hp
  rw [globalsAccepted_iff] at h
  have hsync : ¬ (c.m < 1 ∨ p.syncMax < c.m) := by omega
  have hframe : ¬ (c.fs < 1 ∨ p.frameMax < c.fs) := by omega
  have hn : ¬ p.adpMax < c.n := by omega
  rw [cfgCheck, if_neg hsync, if_neg hframe, if_neg hn, chain_find_eq_firstBad p (by omega)]

/-! ## CFG.LOCK -/

/-- CFG.LOCK needs no lock, names no adapter and reads no input, so no common check stops it. -/
theorem commonChecks_cfgLock (s : State) : commonChecks .cfgLock s = none := rfl

theorem exec_cfgLock_of_passed {s : State} (h : cfgCheck s.params s.cfg = none) :
    exec .cfgLock s = .next { s.doneOk with status := { s.status.ok with cfgLocked := true } } := by
  have hbody : cfgLockBody s = .ok (s.setLocked true) := by rw [cfgLockBody, h]
  exact congrArg Host.Outcome.next (runCommand_of_ok (commonChecks_cfgLock s) hbody)

theorem exec_cfgLock_of_failed {s : State} {j : Nat} (h : cfgCheck s.params s.cfg = some j) :
    exec .cfgLock s = .next (s.doneErr 0x01 (BitVec.ofNat 4 j)) := by
  have hbody : cfgLockBody s = .error ⟨.configInvalid, j⟩ := by rw [cfgLockBody, h]
  exact congrArg Host.Outcome.next (runCommand_of_error (commonChecks_cfgLock s) hbody)

/-- Settles O9: the check stops at the global fields, or gives what `firstBad` finds in the chain. -/
theorem cfgLockResult : Obligations.CfgLockResult := by
  intro s hp
  by_cases hglobals : s.cfg.globalsAccepted s.params
  · have hcheck := cfgCheck_of_globals_accepted hp hglobals
    rw [if_pos hglobals]
    cases hbad : s.cfg.firstBad s.params with
    | none => exact exec_cfgLock_of_passed (by rw [hcheck, hbad]; rfl)
    | some i => exact exec_cfgLock_of_failed (by rw [hcheck, hbad]; rfl)
  · rw [if_neg hglobals]
    exact exec_cfgLock_of_failed (cfgCheck_of_globals_refused hglobals)

end Sys2Proof.Machine
end

section
/-! The actions of one RX_CTRL write, in their order (44_frame_receiver.md R360). -/

namespace Sys2Proof.Machine

theorem runActions_actionOf (a : Word) (bit : Nat) (i : Instr) (s : State) :
    runActions (actionOf a bit i) s = if a.getLsbD bit then exec i s else .next s := by
  unfold actionOf
  split_ifs
  · obtain ⟨t, ht⟩ := exec_next i s
    simp only [runActions, ht]
  · rfl

/-- Actions that follow others see the state those left. -/
theorem runActions_append_of_next {is : List Instr} {s t : State} (js : List Instr) (h : runActions is s = .next t) :
    runActions (is ++ js) s = runActions js t := by
  induction is generalizing s with
  | nil => cases h; rfl
  | cons i is ih =>
    obtain ⟨u, hu⟩ := exec_next i s
    simp only [runActions, hu] at h
    simp only [List.cons_append, runActions, hu]
    exact ih h

/-- The HOST's turn with an RX_CTRL write first runs the actions of the word. -/
theorem step_rxCtrl_write {s : State} {a : Word} {rest : List HostStmt} (h : s.turn = .host)
    (hp : s.program = .wr 0x200 4 a :: rest) :
    step s = runActions (decodeRxctrl a) { s.begin with program := rest } := by
  rw [step_write h hp rfl, busWrite_of_reg a _ (regAt_rxCtrl _)]
  rfl

/-- Settles O40: the list of a write's actions is cut after each bit, from START back to CANCEL. -/
theorem rxActionOrder : Obligations.RxActionOrder := by
  intro s s1 s2 s3 s4 s5 a rest ht hp hcancel hmsgPop herrPop hreset hstart
  rw [← runActions_actionOf] at hcancel hmsgPop herrPop hreset hstart
  have toMsgPop := (runActions_append_of_next _ hcancel).trans hmsgPop
  have toErrPop := (runActions_append_of_next _ toMsgPop).trans herrPop
  have toReset := (runActions_append_of_next _ toErrPop).trans hreset
  rw [step_rxCtrl_write ht hp, decodeRxctrl, runActions_append_of_next _ toReset, hstart]

end Sys2Proof.Machine
end

section
/-! The position of the sync marker (44_frame_receiver.md R333). -/

namespace Sys2Proof.Machine

/-- A search by position among the suffixes of the buffer, the library's `findIdx?`. -/
theorem findMarker_eq_findIdx? (sync b : Bytes) : findMarker sync b = b.tails.findIdx? sync.isPrefixOf := by
  induction b with
  | nil => rfl
  | cons x b ih => rw [List.tails_cons, List.findIdx?_cons, ← ih, findMarker]

theorem isPrefixOf_drop_iff (sync b : Bytes) (j : Nat) :
    sync.isPrefixOf (b.drop j) = true ↔ (b.drop j).take sync.length = sync := by
  rw [List.isPrefixOf_iff_prefix, List.prefix_iff_eq_take, eq_comm]

/-- A marker that stands at a position ends within the buffer. -/
theorem add_length_le_of_take_drop {sync b : Bytes} {j : Nat} (hj : j ≤ b.length)
    (h : (b.drop j).take sync.length = sync) : j + sync.length ≤ b.length := by
  have hlen := congrArg List.length h
  rw [List.length_take, List.length_drop] at hlen
  omega

theorem findMarker_eq_some_iff (sync b : Bytes) (j : Nat) : findMarker sync b = some j ↔
    j ≤ b.length ∧ (b.drop j).take sync.length = sync ∧ ∀ i, i < j → (b.drop i).take sync.length ≠ sync := by
  simp only [findMarker_eq_findIdx?, List.findIdx?_eq_some_iff_getElem, List.length_tails, List.getElem_tails,
    isPrefixOf_drop_iff, Nat.lt_succ_iff, exists_prop, ne_eq]

theorem findMarker_eq_none_iff (sync b : Bytes) : findMarker sync b = none ↔
    ∀ j, j ≤ b.length → (b.drop j).take sync.length ≠ sync := by
  simp only [findMarker_eq_findIdx?, List.findIdx?_eq_none_iff, List.forall_mem_iff_getElem, List.length_tails,
    List.getElem_tails, ← Bool.not_eq_true, isPrefixOf_drop_iff, Nat.lt_succ_iff, ne_eq]

/-- Settles O41: a position in the buffer at which the marker stands leaves room for the whole marker. -/
theorem findIsLeast : Obligations.FindIsLeast := by
  intro sync b
  refine ⟨fun j => ?_, ?_⟩
  · rw [findMarker_eq_some_iff]
    constructor
    · rintro ⟨hj, hat, hleast⟩
      exact ⟨add_length_le_of_take_drop hj hat, hat, hleast⟩
    · rintro ⟨hroom, hat, hleast⟩
      exact ⟨by omega, hat, hleast⟩
  · rw [findMarker_eq_none_iff]
    constructor
    · intro hnone j hroom
      exact hnone j (by omega)
    · intro hnone j hj hat
      exact hnone j (add_length_le_of_take_drop hj hat) hat

end Sys2Proof.Machine
end

section
/-! The seek step and the read step, one equation per case (44_frame_receiver.md R334, R337). -/

namespace Sys2Proof.Machine

/-! ## Seeking -/

theorem step_of_seeking {s : State} (ht : s.turn = .rx) (hp : s.pullPending = none) (hs : s.rx.state = .seeking) :
    step s = .next (seekStep s.begin) := by
  simp [step_rx ht, rxStep, rxStep?, hp, hs]

theorem seekStep_of_found {s : State} {j : Nat} (h : findMarker s.cfg.sync s.rdbuf = some j) :
    seekStep s = State.setRxState .reading { s with rdbuf := s.rdbuf.drop j, frame := [] } := by
  obtain ⟨i, hi, hstep⟩ | ⟨hnone, -⟩ := seekStep_cases s
  · cases h.symm.trans hi
    exact hstep
  · cases h.symm.trans hnone

theorem seekStep_of_missed {s : State} (h : findMarker s.cfg.sync s.rdbuf = none) :
    seekStep s = State.issuePull .seek (s.params.rdbufCap - (keepTail s.cfg.m s.rdbuf).length)
      { s with rdbuf := keepTail s.cfg.m s.rdbuf } := by
  obtain ⟨i, hi, -⟩ | ⟨-, hstep⟩ := seekStep_cases s
  · cases h.symm.trans hi
  · exact hstep

/-! ## Reading -/

theorem step_of_reading {s : State} (ht : s.turn = .rx) (hp : s.pullPending = none) (hs : s.rx.state = .reading) :
    step s = .next (readStep s.begin) := by
  simp [step_rx ht, rxStep, rxStep?, hp, hs]

theorem readStep_of_complete {s : State} (h : s.cfg.l - s.frame.length = 0) : readStep s = s.setRxState .decoding := by
  obtain ⟨-, hstep⟩ | ⟨hneed, -⟩ | ⟨hneed, -⟩ := readStep_cases s
  · exact hstep
  · exact absurd h hneed
  · exact absurd h hneed

theorem readStep_of_empty {s : State} (h : s.cfg.l - s.frame.length ≠ 0) (hb : s.rdbuf = []) :
    readStep s = s.issuePull .read (s.cfg.l - s.frame.length) := by
  obtain ⟨hdone, -⟩ | ⟨-, -, hstep⟩ | ⟨-, hsome, -⟩ := readStep_cases s
  · exact absurd hdone h
  · exact hstep
  · exact absurd hb hsome

/-- The number of bytes moved, t of R337, is the smaller of the need and the bytes there. -/
theorem readStep_of_buffered {s : State} (h : s.cfg.l - s.frame.length ≠ 0) (hb : s.rdbuf ≠ []) :
    readStep s = { s with
      frame := s.frame ++ s.rdbuf.take (min (s.cfg.l - s.frame.length) s.rdbuf.length)
      rdbuf := s.rdbuf.drop (min (s.cfg.l - s.frame.length) s.rdbuf.length) } := by
  obtain ⟨hdone, -⟩ | ⟨-, hempty, -⟩ | ⟨-, -, hstep⟩ := readStep_cases s
  · exact absurd hdone h
  · exact absurd hempty hb
  · rw [hstep, ← List.take_eq_take_min, ← List.drop_eq_drop_min]

/-- Settles O44: the five cases are those of `seekStep` and `readStep`, taken in the state whose schedule has moved on. -/
theorem seekAndReadSteps : Obligations.SeekAndReadSteps := by
  intro s ht hp m need
  refine ⟨fun j hs hfound => ?_, fun hs hmiss => ?_, fun hs hneed => ?_, fun hs hneed hb => ?_, fun hs hneed hb => ?_⟩
  · rw [step_of_seeking ht hp hs, seekStep_of_found (s := s.begin) hfound]
    rfl
  · rw [step_of_seeking ht hp hs, seekStep_of_missed (s := s.begin) hmiss]
    rfl
  · rw [step_of_reading ht hp hs, readStep_of_complete (s := s.begin) hneed]
    rfl
  · rw [step_of_reading ht hp hs, readStep_of_buffered (s := s.begin) hneed hb]
    rfl
  · rw [step_of_reading ht hp hs, readStep_of_empty (s := s.begin) hneed hb]
    rfl

end Sys2Proof.Machine
end

section
/-! Command words and action words (30_encoding.md R110 to R117, R121): the decoder against the encoder, and the legal
words. -/

namespace Sys2Proof

/-! ## Decoding an encoded instruction -/

/-- The four indexed rows: the words of the sixteen indices. -/
theorem decode_encode_of_lt {f : Nat → Instr}
    (h : ∀ n : Fin 16, decode (f n.val).format (encode (f n.val)) = .ok [f n.val]) {n : Nat} (hn : n < 16) :
    decode (f n).format (encode (f n)) = .ok [f n] := h ⟨n, hn⟩

/-- Settles O2: a word per row, and sixteen for each indexed row. -/
theorem decodeOfEncode : Obligations.DecodeOfEncode := by
  intro i hwf
  cases i with
  | crcAdp n => exact decode_encode_of_lt (f := .crcAdp) (by decide) (of_decide_eq_true hwf)
  | adpWrap n => exact decode_encode_of_lt (f := .adpWrap) (by decide) (of_decide_eq_true hwf)
  | adpUnwrap n => exact decode_encode_of_lt (f := .adpUnwrap) (by decide) (of_decide_eq_true hwf)
  | adpWsize n => exact decode_encode_of_lt (f := .adpWsize) (by decide) (of_decide_eq_true hwf)
  | _ => rfl

/-- Settles O1: the decoder run on each word. -/
theorem specWordsDecode : Obligations.SpecWordsDecode := by
  unfold Obligations.SpecWordsDecode
  decide

/-! ## The fields of a legal word -/

theorem idxOf_lt (c : Word) : idxOf c < 16 := (c.extractLsb' 8 4).isLt

/-- A word without reserved bits is its OPC and its IDX. -/
theorem eq_ofNat_fields {c : Word} (h : rsvOf c = 0) : c = BitVec.ofNat 32 (opcOf c ||| idxOf c <<< 8) := by
  have hopc : opcOf c = c.toNat % 256 := by simp [opcOf, BitVec.extractLsb'_toNat]
  have hidx : idxOf c = c.toNat / 256 % 16 := by simp [idxOf, BitVec.extractLsb'_toNat, Nat.shiftRight_eq_div_pow]
  have hrsv : c.toNat / 4096 % 1048576 = 0 := by
    simpa [rsvOf, BitVec.extractLsb'_toNat, Nat.shiftRight_eq_div_pow] using h
  have hadd : opcOf c ||| idxOf c <<< 8 = idxOf c <<< 8 + opcOf c := by
    rw [Nat.or_comm, Nat.shiftLeft_add_eq_or_of_lt (show opcOf c < 2 ^ 8 from (c.extractLsb' 0 8).isLt)]
  apply BitVec.eq_of_toNat_eq
  rw [hadd, hopc, hidx, Nat.shiftLeft_eq, BitVec.toNat_ofNat]
  have := c.isLt
  omega

theorem indexedOfOpc_fields {opc idx : Nat} {i : Instr} (h : indexedOfOpc opc idx = some i) (hidx : idx < 16) :
    i.opc = opc ∧ i.index = idx ∧ i.wf = true := by
  unfold indexedOfOpc at h
  split at h
  case h_5 => cases h
  all_goals
    cases h
    exact ⟨rfl, rfl, decide_eq_true hidx⟩

theorem plainOfOpc_fields {opc : Nat} {i : Instr} (h : plainOfOpc opc = some i) :
    i.opc = opc ∧ i.index = 0 ∧ i.wf = true := by
  unfold plainOfOpc at h
  split at h <;> cases h <;> exact ⟨rfl, rfl, rfl⟩

theorem kindOfCode_code {n : Nat} {k : HeaderKind} (h : kindOfCode n = some k) : (Instr.validateOf k).opc = 0x10 + n := by
  unfold kindOfCode at h
  split at h <;> cases h <;> rfl

/-- A header operation's OPC is its nibble over the kind's code. -/
theorem headerOpOf_opc {hi : Nat} {op : HeaderKind → Instr} (h : headerOpOf hi = some op) (k : HeaderKind) :
    (op k).opc + 0x10 = 16 * hi + (Instr.validateOf k).opc := by
  unfold headerOpOf at h
  split at h <;> cases h <;> cases k <;> rfl

theorem headerOpOf_index_wf {hi : Nat} {op : HeaderKind → Instr} (h : headerOpOf hi = some op) (k : HeaderKind) :
    (op k).index = 0 ∧ (op k).wf = true := by
  unfold headerOpOf at h
  split at h <;> cases h <;> cases k <;> exact ⟨rfl, rfl⟩

/-- The word of a decoded command, field by field. -/
theorem decodeCmd_fields {c : Word} {i : Instr} (h : decodeCmd c = .ok i) :
    rsvOf c = 0 ∧ i.opc = opcOf c ∧ i.index = idxOf c ∧ i.wf = true := by
  unfold decodeCmd at h
  split at h
  · cases h
  rename_i hrsv
  refine ⟨not_not.1 hrsv, ?_⟩
  split at h
  · rename_i j hj
    cases h
    exact indexedOfOpc_fields hj (idxOf_lt c)
  split at h
  · cases h
  rename_i hidx
  rw [not_not.1 hidx]
  split at h
  · rename_i j hj
    cases h
    exact plainOfOpc_fields hj
  split at h
  · cases h
  rename_i op hop
  split at h
  · cases h
  · rename_i k hk
    cases h
    have hcode := kindOfCode_code hk
    have hopc := headerOpOf_opc hop k
    exact ⟨by omega, headerOpOf_index_wf hop k⟩

theorem encode_of_decodeCmd {c : Word} {i : Instr} (h : decodeCmd c = .ok i) : encode i = c := by
  obtain ⟨hrsv, hopc, hidx, -⟩ := decodeCmd_fields h
  rw [encode, hopc, hidx, ← eq_ofNat_fields hrsv]

/-! ## The legal words -/

/-- What the decoder asks of a word, table by table. -/
theorem decodeCmd_ok_iff (c : Word) : (∃ i, decodeCmd c = .ok i) ↔
    rsvOf c = 0 ∧ ((indexedOfOpc (opcOf c) (idxOf c)).isSome = true
      ∨ idxOf c = 0 ∧ ((plainOfOpc (opcOf c)).isSome = true
        ∨ (headerOpOf (opcOf c / 16)).isSome = true ∧ (kindOfCode (opcOf c % 16)).isSome = true)) := by
  unfold decodeCmd
  by_cases hrsv : rsvOf c = 0
  swap
  · simp [hrsv]
  cases hindexed : indexedOfOpc (opcOf c) (idxOf c) with
  | some i => simp [hrsv]
  | none =>
    by_cases hidx : idxOf c = 0
    swap
    · simp [hrsv, hidx]
    cases hplain : plainOfOpc (opcOf c) with
    | some i => simp [hrsv, hidx]
    | none =>
      cases headerOpOf (opcOf c / 16) with
      | none => simp [hrsv, hidx]
      | some op => cases kindOfCode (opcOf c % 16) <;> simp [hrsv, hidx]

theorem indexedOfOpc_isSome_iff (o : BitVec 8) (idx : Nat) : (indexedOfOpc o.toNat idx).isSome = true ↔
    o ∈ ([0x40, 0x50, 0x51, 0x52] : List (BitVec 8)) := by
  have hfree : (indexedOfOpc o.toNat idx).isSome = (indexedOfOpc o.toNat 0).isSome := by
    unfold indexedOfOpc
    split <;> rfl
  rw [hfree]
  clear hfree
  decide +revert

/-- The OPC map as the decoder's tables have it. -/
theorem mem_opcMap_iff (o : BitVec 8) :
    o ∈ ([0x00, 0x01, 0x02, 0x10, 0x11, 0x12, 0x13, 0x14, 0x15, 0x20, 0x21, 0x22, 0x23, 0x24, 0x25, 0x30, 0x31, 0x32,
        0x33, 0x34, 0x35, 0x40, 0x41, 0x42, 0x43, 0x50, 0x51, 0x52, 0x60, 0x61, 0x62, 0x63] : List (BitVec 8)) ↔
      o ∈ ([0x40, 0x50, 0x51, 0x52] : List (BitVec 8)) ∨ (plainOfOpc o.toNat).isSome = true
        ∨ (headerOpOf (o.toNat / 16)).isSome = true ∧ (kindOfCode (o.toNat % 16)).isSome = true := by
  decide +revert

theorem decodeCmd_error_iff (c : Word) : (∃ e, decodeCmd c = .error e) ↔ ¬ ∃ i, decodeCmd c = .ok i := by
  cases decodeCmd c <;> simp

/-- Settles O3: the fields of a decoded word are the instruction's, and the decoder's tables name exactly the OPC map. -/
theorem legalWordsExactly : Obligations.LegalWordsExactly := by
  refine ⟨fun c i h => ?_, fun c => ?_⟩
  · obtain ⟨-, -, -, hwf⟩ := decodeCmd_fields h
    exact ⟨hwf, Machine.decodeCmd_format h, encode_of_decodeCmd h⟩
  · have hrsv : rsvOf c = 0 ↔ c.extractLsb' 12 20 = 0 := BitVec.toNat_inj (y := 0)
    have hidx : idxOf c = 0 ↔ c.extractLsb' 8 4 = 0 := BitVec.toNat_inj (y := 0)
    rw [decodeCmd_error_iff, decodeCmd_ok_iff, mem_opcMap_iff, hrsv, hidx, opcOf, indexedOfOpc_isSome_iff]
    tauto

end Sys2Proof
end

section
/-! What one turn of each agent can do, once: the invariants and the frame statements are case analyses on these
(60_exceptions.md R408). -/

namespace Sys2Proof.Machine

/-! ## The HOST -/

/-- What a write of v to register r can do to the state. -/
inductive WriteEffect (v : Word) (r : Reg) (s : State) : State → Prop
  | ignored : WriteEffect v r s s
  | dropped : WriteEffect v r s s.drop
  | accepted (hb : s.status.busy = false) : WriteEffect v r s (s.accept v)
  | operand (hb : s.status.busy = false) (n m : Half) (h : Vector Half 8) :
      WriteEffect v r s { s with inLen := n, arg := m, hf := h }
  | inWord (hb : s.status.busy = false) (a : Nat) : WriteEffect v r s (s.writeInWord a v)
  | irq (en st : BitVec 4) : WriteEffect v r s { s with irqEn := en, irqStatus := st }
  | config (hl : s.status.cfgLocked = false) (c : Cfg) : WriteEffect v r s { s with cfg := c }
  | actions (hr : r = .rxCtrl) (t : State) (h : runActions (decodeRxctrl v) s = .next t) : WriteEffect v r s t

theorem operandWrite_effect {v : Word} {r : Reg} {s t : State}
    (h : s.status.busy = false → WriteEffect v r s t) : WriteEffect v r s (operandWrite s t) := by
  obtain ⟨-, he⟩ | ⟨hb, he⟩ := operandWrite_cases s t <;> rw [he]
  · exact .dropped
  · exact h hb

theorem configWrite_effect (v : Word) (r : Reg) (s : State) (c : Cfg) : WriteEffect v r s (configWrite s c) := by
  obtain ⟨-, he⟩ | ⟨hl, he⟩ := configWrite_cases s c <;> rw [he]
  · exact .dropped
  · exact .config hl c

theorem cmdWrite_effect (v : Word) (r : Reg) (s : State) : WriteEffect v r s (cmdWrite v s) := by
  obtain ⟨-, he⟩ | ⟨hb, he⟩ := cmdWrite_cases v s <;> rw [he]
  · exact .dropped
  · exact .accepted hb

theorem writeReg_effect {v : Word} {r : Reg} {s t : State} (h : writeReg v s r = .next t) : WriteEffect v r s t := by
  cases r with
  | cmd => cases h; exact cmdWrite_effect ..
  | rxCtrl => exact .actions rfl t h
  | inLen => cases h; exact operandWrite_effect fun hb => .operand hb ..
  | arg => cases h; exact operandWrite_effect fun hb => .operand hb ..
  | hf j => cases h; exact operandWrite_effect fun hb => .operand hb ..
  | inBuf a => cases h; exact operandWrite_effect fun hb => .inWord hb a
  | irqEn => cases h; exact .irq ..
  | irqStatus => cases h; exact .irq ..
  | syncLen => cases h; exact configWrite_effect ..
  | sync0 => cases h; exact configWrite_effect ..
  | sync1 => cases h; exact configWrite_effect ..
  | frameSize => cases h; exact configWrite_effect ..
  | nAdp => cases h; exact configWrite_effect ..
  | flags => cases h; exact configWrite_effect ..
  | adp i w => cases h; exact configWrite_effect ..
  | id => cases h; exact .ignored
  | status => cases h; exact .ignored
  | outLen => cases h; exact .ignored
  | result => cases h; exact .ignored
  | rxStatus => cases h; exact .ignored
  | msgLen => cases h; exact .ignored
  | errInfo => cases h; exact .ignored
  | outBuf a => cases h; exact .ignored
  | msgBuf a => cases h; exact .ignored

/-- What a turn of the HOST can do: a statement that only its own records show, or a write to a register. -/
inductive HostEffect (s : State) : State → Prop
  | noted (p : List HostStmt) (rs : List (BitVec 16 × Word)) (hsub : p ⊆ s.program) :
      HostEffect s { s with program := p, hostReads := rs }
  | wrote (off : BitVec 16) (v : Word) (rest : List HostStmt) (r : Reg) (t : State)
      (hp : s.program = .wr off 4 v :: rest) (hr : regAt s.params off.toNat = some r)
      (he : WriteEffect v r { s with program := rest } t) : HostEffect s t

theorem hostStep_effect {s t : State} (h : hostStep s = .next t) : HostEffect s t := by
  unfold hostStep at h
  split at h
  · cases h; exact .noted s.program s.hostReads (List.Subset.refl _)
  rename_i stmt rest hp
  have hrest : rest ⊆ s.program := by rw [hp]; exact List.subset_cons_self ..
  have hall : stmt :: rest ⊆ s.program := by rw [hp]; exact List.Subset.refl _
  cases stmt with
  | wr off width v =>
    simp only [runStmt] at h
    split at h
    · rename_i hacc
      obtain ⟨-, rfl⟩ := hacc
      unfold busWrite at h
      split at h
      · rename_i r hr
        exact .wrote off v rest r t hp hr (writeReg_effect h)
      · cases h; exact .noted rest s.hostReads hrest
    · cases h
  | rd off width =>
    simp only [runStmt] at h
    split at h
    · cases h; exact .noted rest _ hrest
    · cases h
  | poll off mask value =>
    simp only [runStmt] at h
    split at h
    · split at h
      · cases h; exact .noted rest s.hostReads hrest
      · cases h; exact .noted _ s.hostReads hall
    · cases h
  | waitRx =>
    simp only [runStmt] at h
    split at h
    · cases h; exact .noted rest s.hostReads hrest
    · cases h; exact .noted _ s.hostReads hall

/-- What one RX_CTRL action can do. -/
inductive ActionEffect (s : State) : State → Prop
  | rejected : ActionEffect s s.rejectCtrl
  | started (hs : s.rx.state = .idle) (hl : s.status.cfgLocked = true) :
      ActionEffect s (State.setRxState .seeking { s with rx := { s.rx with cancelPending := false } })
  | reset (hs : s.rx.state.running = false) : ActionEffect s s.resetReceiver
  | canceling : ActionEffect s { s with rx := { s.rx with cancelPending := true } }
  | nothing : ActionEffect s s
  | msgTaken (hv : s.rx.msgValid = true) :
      ActionEffect s (State.enterTop { s with rx := { s.rx with msgValid := false } })
  | errTaken (hv : s.rx.errValid = true) :
      ActionEffect s (State.enterTop { s with rx := { s.rx with errValid := false } })

theorem exec_action {i : Instr} {s t : State} (hf : i.format = .rxctrl) (h : exec i s = .next t) : ActionEffect s t := by
  cases i with
  | rxStart =>
    simp only [exec, execRxStart] at h
    split at h
    · rename_i hgo
      cases h
      exact .started hgo.1 hgo.2
    · cases h; exact .rejected
  | rxReset =>
    simp only [exec, execRxReset] at h
    split at h
    · cases h; exact .rejected
    · rename_i hs
      cases h
      exact .reset (Bool.not_eq_true _ ▸ hs)
  | rxCancel => cases h; exact .canceling
  | rxMsgPop =>
    simp only [exec, execRxMsgPop] at h
    split at h
    · rename_i hv
      cases h
      exact .msgTaken hv
    · cases h; exact .nothing
  | rxErrPop =>
    simp only [exec, execRxErrPop] at h
    split at h
    · rename_i hv
      cases h
      exact .errTaken hv
    · cases h; exact .nothing
  | _ => cases hf

/-- What every action keeps, an RX_CTRL write keeps. -/
theorem runActions_keeps {P : State → Prop} {v : Word} {s t : State}
    (hP : ∀ s t, P s → ActionEffect s t → P t) (hs : P s) (h : runActions (decodeRxctrl v) s = .next t) : P t :=
  runActions_induct P _ (fun i hi s _ hs he => hP s _ hs (exec_action (decodeRxctrl_format v i hi) he)) s t hs h

/-! ## The command engine -/

/-- What a turn of CODEC can do. -/
inductive CodecEffect (s : State) : State → Prop
  | waiting : CodecEffect s s
  | sent (c : Word) (f : Bytes) (a : SinkAnswer) (hc : s.cmd = some c) (ha : s.sinkAnswer = some (f, a)) :
      CodecEffect s (sendComplete f a s)
  | illegal (c : Word) (hc : s.cmd = some c) (ha : s.sinkAnswer = none) (hp : s.sinkPending = none) :
      CodecEffect s (s.completeErr ⟨.cmdInvalid, 0⟩)
  | command (c : Word) (i : Instr) (t : State) (hc : s.cmd = some c) (ha : s.sinkAnswer = none)
      (hp : s.sinkPending = none) (hi : decodeCmd c = .ok i) (he : CommandEffect i s t) : CodecEffect s t

theorem codecStep_effect {s t : State} (h : codecStep s = .next t) : CodecEffect s t := by
  unfold codecStep at h
  split at h
  · cases h; exact .waiting
  rename_i c hc
  split at h
  · rename_i f a ha
    cases h
    exact .sent c f a hc ha
  rename_i ha
  split at h
  · cases h; exact .waiting
  rename_i hp
  have hp : s.sinkPending = none := by simpa using hp
  split at h
  · cases h; exact .illegal c hc ha hp
  · rename_i i hi
    exact .command c i t hc ha hp hi (exec_command (decodeCmd_format hi) h)

/-- SEND ends with or without an error once its answer is consumed. -/
theorem sendComplete_cases (f : Bytes) (a : SinkAnswer) (s : State) :
    sendComplete f a s = s.endSend.completeOk ∨ ∃ e, sendComplete f a s = s.endSend.completeErr e := by
  cases a with
  | error => exact .inr ⟨_, rfl⟩
  | accepted n =>
    by_cases hn : n < f.length
    · exact .inr ⟨⟨.writeShort, 0⟩, if_pos hn⟩
    · exact .inl (if_neg hn)

/-! ## The receiver -/

/-- What a turn of RX can do. -/
inductive RxEffect (s : State) : State → Prop
  | waiting : RxEffect s s
  | found (j : Nat) (hp : s.pullPending = none) (hs : s.rx.state = .seeking)
      (hj : findMarker s.cfg.sync s.rdbuf = some j) :
      RxEffect s (State.setRxState .reading { s with rdbuf := s.rdbuf.drop j, frame := [] })
  | missed (hp : s.pullPending = none) (hs : s.rx.state = .seeking) (hj : findMarker s.cfg.sync s.rdbuf = none) :
      RxEffect s (State.issuePull .seek (s.params.rdbufCap - (keepTail s.cfg.m s.rdbuf).length)
        { s with rdbuf := keepTail s.cfg.m s.rdbuf })
  | complete (hp : s.pullPending = none) (hs : s.rx.state = .reading) (hn : s.cfg.l - s.frame.length = 0) :
      RxEffect s (s.setRxState .decoding)
  | drained (hp : s.pullPending = none) (hs : s.rx.state = .reading) (hn : s.cfg.l - s.frame.length ≠ 0)
      (hb : s.rdbuf = []) : RxEffect s (s.issuePull .read (s.cfg.l - s.frame.length))
  | moved (hp : s.pullPending = none) (hs : s.rx.state = .reading) (hn : s.cfg.l - s.frame.length ≠ 0)
      (hb : s.rdbuf ≠ []) :
      RxEffect s { s with
        frame := s.frame ++ s.rdbuf.take (s.cfg.l - s.frame.length)
        rdbuf := s.rdbuf.drop (s.cfg.l - s.frame.length) }
  | decoded (hp : s.pullPending = none) (hs : s.rx.state = .decoding) (hi : s.rxItem = none) :
      RxEffect s { s with rxItem := some (decodeFrame s.cfg s.frame), frame := [] }
  | withdrawn (it : RxItem) (hp : s.pullPending = none) (hs : s.rx.state = .decoding) (hi : s.rxItem = some it) :
      RxEffect s (s.clearItem.rxEnd .canceled)
  | offeredMsg (x : Bytes) (hp : s.pullPending = none) (hs : s.rx.state = .decoding) (hi : s.rxItem = some (.msg x)) :
      RxEffect s (offerMsg x s.clearItem)
  | offeredErr (it : RxItem) (info : ErrInfo) (hp : s.pullPending = none) (hs : s.rx.state = .decoding)
      (hi : s.rxItem = some it) :
      RxEffect s { s.clearItem with
        errInfo := info, rx := { s.rx with errValid := true, state := .reporting }, irqStatus := s.irqStatus ||| irqErr }
  | droppedErr (it : RxItem) (hp : s.pullPending = none) (hs : s.rx.state = .decoding) (hi : s.rxItem = some it) :
      RxEffect s (s.clearItem.setRxState .seeking)
  | canceled (hp : s.pullPending = none) (hs : s.rx.state = .delivering ∨ s.rx.state = .reporting) :
      RxEffect s (cancelOfferStep s)

/-- A pull outstanding, no step of RX is enabled. -/
theorem rxStep_of_pull {s : State} (h : s.pullPending.isSome = true) : rxStep s = s := by simp [rxStep, rxStep?, h]

theorem rxStep_of_stopped {s : State} (h : s.rx.state.running = false) : rxStep s = s := by
  cases hs : s.rx.state <;> simp_all [rxStep, rxStep?, RxState.running]

theorem rxStep_of_seeking {s : State} (hp : s.pullPending = none) (h : s.rx.state = .seeking) :
    rxStep s = seekStep s := by simp [rxStep, rxStep?, hp, h]

theorem rxStep_of_reading {s : State} (hp : s.pullPending = none) (h : s.rx.state = .reading) :
    rxStep s = readStep s := by simp [rxStep, rxStep?, hp, h]

theorem rxStep_of_undecoded {s : State} (hp : s.pullPending = none) (h : s.rx.state = .decoding)
    (hi : s.rxItem = none) : rxStep s = decodeStep s := by simp [rxStep, rxStep?, hp, h, hi]

theorem rxStep_of_item {s : State} {it : RxItem} (hp : s.pullPending = none) (h : s.rx.state = .decoding)
    (hi : s.rxItem = some it) : rxStep s = offerStep it s := by simp [rxStep, rxStep?, hp, h, hi]

theorem rxStep_of_offered {s : State} (hp : s.pullPending = none)
    (h : s.rx.state = .delivering ∨ s.rx.state = .reporting) :
    rxStep s = if s.rx.cancelPending then cancelOfferStep s else s := by
  obtain h | h := h <;> cases hc : s.rx.cancelPending <;> simp [rxStep, rxStep?, hp, h, hc]

theorem offerStep_effect {s : State} {it : RxItem} (hp : s.pullPending = none) (hs : s.rx.state = .decoding)
    (hi : s.rxItem = some it) : RxEffect s (offerStep it s) := by
  obtain ⟨-, he⟩ | ⟨x, -, rfl, he⟩ | ⟨e, st, i, -, -, -, he⟩ | ⟨e, st, i, -, -, -, he⟩ := offerStep_cases it s <;>
    rw [he]
  · exact .withdrawn it hp hs hi
  · exact .offeredMsg x hp hs hi
  · exact .offeredErr it _ hp hs hi
  · exact .droppedErr it hp hs hi

theorem rxStep_effect (s : State) : RxEffect s (rxStep s) := by
  cases hp : s.pullPending with
  | some q => rw [rxStep_of_pull (by rw [hp]; rfl)]; exact .waiting
  | none =>
    cases hs : s.rx.state with
    | idle => rw [rxStep_of_stopped (by rw [hs]; rfl)]; exact .waiting
    | canceled => rw [rxStep_of_stopped (by rw [hs]; rfl)]; exact .waiting
    | eos => rw [rxStep_of_stopped (by rw [hs]; rfl)]; exact .waiting
    | seeking =>
      rw [rxStep_of_seeking hp hs]
      obtain ⟨j, hj, he⟩ | ⟨hj, he⟩ := seekStep_cases s <;> rw [he]
      · exact .found j hp hs hj
      · exact .missed hp hs hj
    | reading =>
      rw [rxStep_of_reading hp hs]
      obtain ⟨hn, he⟩ | ⟨hn, hb, he⟩ | ⟨hn, hb, he⟩ := readStep_cases s <;> rw [he]
      · exact .complete hp hs hn
      · exact .drained hp hs hn hb
      · exact .moved hp hs hn hb
    | decoding =>
      cases hi : s.rxItem with
      | none => rw [rxStep_of_undecoded hp hs hi]; exact .decoded hp hs hi
      | some it => rw [rxStep_of_item hp hs hi]; exact offerStep_effect hp hs hi
    | delivering =>
      rw [rxStep_of_offered hp (.inl hs)]
      split
      · exact .canceled hp (.inl hs)
      · exact .waiting
    | reporting =>
      rw [rxStep_of_offered hp (.inr hs)]
      split
      · exact .canceled hp (.inr hs)
      · exact .waiting

/-! ## The ports -/

/-- The state in which the answer a of the SOURCE is handled. -/
def State.pulled (a : SourceAnswer) (rest : List SourceAnswer) (s : State) : State :=
  { s with pullPending := none, sourcePlan := rest, portLog := s.portLog ++ [.pulled a] }

/-- What a turn of the SOURCE can do: an answer never brings more bytes than were asked for (20_memory.md R90). -/
inductive SourceEffect (s : State) : State → Prop
  | waiting : SourceEffect s s
  | answered (stage : PullStage) (k : Nat) (a : SourceAnswer) (rest : List SourceAnswer)
      (hp : s.pullPending = some (stage, k)) (hk : ∀ v, a = .data v → v.length ≤ k) :
      SourceEffect s (handleSource stage a (s.pulled a rest))

theorem presentSource_data_le {k : Nat} {a : SourceAnswer} {v : Bytes} (h : (presentSource k a).1 = .data v) :
    v.length ≤ k := by
  cases a with
  | data w =>
    by_cases hw : w = []
    · simp [presentSource, hw] at h
    · have : w.take k = v := by simpa [presentSource, hw] using h
      rw [← this, List.length_take]
      exact Nat.min_le_left ..
  | zero => cases h
  | eof => cases h
  | error => cases h

theorem sourceStep_effect (o : Ports) (s : State) : SourceEffect s (sourceStep o s) := by
  unfold sourceStep
  split
  · rename_i stage k a rest hp _
    exact .answered stage k _ _ hp fun v hv => presentSource_data_le hv
  · exact .waiting

/-- What a turn of the SINK can do: it accepts no more than it was offered (20_memory.md R92). -/
inductive SinkEffect (s : State) : State → Prop
  | waiting : SinkEffect s s
  | answered (f : Bytes) (a : SinkAnswer) (rest : List SinkAnswer) (hp : s.sinkPending = some f)
      (ha : ∀ n, a = .accepted n → n ≤ f.length) :
      SinkEffect s { s with
        sinkPending := none, sinkAnswer := some (f, a), sinkPlan := rest, portLog := s.portLog ++ [.pushed a] }

theorem presentSink_accepted_le {n m : Nat} {a : SinkAnswer} (h : presentSink n a = .accepted m) : m ≤ n := by
  cases a with
  | accepted k => cases h; exact Nat.min_le_right ..
  | error => cases h

theorem sinkStep_effect (o : Ports) (s : State) : SinkEffect s (sinkStep o s) := by
  unfold sinkStep
  split
  · rename_i f a rest hp _
    exact .answered f _ rest hp fun n hn => presentSink_accepted_le hn
  · exact .waiting

/-! ## Any agent -/

/-- What every agent's turn keeps, a step keeps. -/
theorem step_keeps {P : State → Prop} (hbegin : ∀ s, P s → P s.begin)
    (hhost : ∀ s t, P s → HostEffect s t → P t) (hcodec : ∀ s t, P s → CodecEffect s t → P t)
    (hrx : ∀ s t, P s → RxEffect s t → P t) (hsource : ∀ s t, P s → SourceEffect s t → P t)
    (hsink : ∀ s t, P s → SinkEffect s t → P t) (hrst : ∀ s, P s → P (hwReset s)) {s t : State} (hs : P s)
    (h : step s = .next t) : P t := by
  have hs' := hbegin s hs
  cases ha : s.turn with
  | host => rw [step_host ha] at h; exact hhost _ _ hs' (hostStep_effect h)
  | codec => rw [step_codec ha] at h; exact hcodec _ _ hs' (codecStep_effect h)
  | rx => rw [step_rx ha] at h; cases h; exact hrx _ _ hs' (rxStep_effect _)
  | source => rw [step_source ha] at h; cases h; exact hsource _ _ hs' (sourceStep_effect _ _)
  | sink => rw [step_sink ha] at h; cases h; exact hsink _ _ hs' (sinkStep_effect _ _)
  | rst => rw [step_rst ha] at h; cases h; exact hrst _ hs'

end Sys2Proof.Machine
end

section
/-! Every step keeps the invariant of the command engine (10_state.md R35, 43_pipeline_and_control.md R290 to R294). -/

namespace Sys2Proof.Machine

/-- The invariant speaks of STATUS, the held word, the push and its answer, and pipe_i. -/
theorem EngineInv.of_eq {s t : State} (h : EngineInv s) (hstatus : t.status = s.status) (hcmd : t.cmd = s.cmd)
    (hpending : t.sinkPending = s.sinkPending) (hanswer : t.sinkAnswer = s.sinkAnswer) (hpipe : t.pipeI = s.pipeI) :
    EngineInv t where
  busy_iff := by rw [hstatus, hcmd]; exact h.busy_iff
  busy_excludes := by rw [hstatus]; exact h.busy_excludes
  err_done := by rw [hstatus]; exact h.err_done
  no_code := by rw [hstatus]; exact h.no_code
  push_send := by rw [hpending, hanswer, hcmd]; exact h.push_send
  push_once := by rw [hpending, hanswer]; exact h.push_once
  accepted_le := by rw [hanswer]; exact h.accepted_le
  pipe_idle := by rw [hpending, hanswer, hpipe]; exact h.pipe_idle

theorem EngineInv.drop {s : State} (h : EngineInv s) : EngineInv s.drop :=
  ⟨h.busy_iff, h.busy_excludes, h.err_done, h.no_code, h.push_send, h.push_once, h.accepted_le, h.pipe_idle⟩

/-- No command in flight, no push and no answer waits. -/
theorem EngineInv.unpushed_of_idle {s : State} (h : EngineInv s) (hb : s.status.busy = false) :
    s.sinkPending = none ∧ s.sinkAnswer = none := by
  have hcmd : s.cmd = none := by simpa [hb] using h.busy_iff
  have hsend := h.push_send
  rw [hcmd] at hsend
  cases hp : s.sinkPending <;> cases ha : s.sinkAnswer <;> simp_all

theorem EngineInv.accept {s : State} (h : EngineInv s) (hb : s.status.busy = false) (c : Word) :
    EngineInv (s.accept c) := by
  obtain ⟨hp, ha⟩ := h.unpushed_of_idle hb
  exact {
    busy_iff := rfl
    busy_excludes := fun _ => ⟨rfl, rfl⟩
    err_done := fun he => by cases he
    no_code := fun _ => ⟨rfl, rfl⟩
    push_send := by simp [hp, ha]
    push_once := fun _ => ha
    accepted_le := h.accepted_le
    pipe_idle := h.pipe_idle }

/-- The engine right after a completion: nothing in flight. -/
structure EngineIdle (s : State) : Prop where
  cmd : s.cmd = none
  busy : s.status.busy = false
  done : s.status.done = true
  no_code : s.status.err = false → s.status.errCode = 0 ∧ s.status.errIdx = 0
  unpushed : s.sinkPending = none
  unanswered : s.sinkAnswer = none
  pipe : s.pipeI = 0

theorem EngineIdle.inv {s : State} (h : EngineIdle s) : EngineInv s where
  busy_iff := by rw [h.busy, h.cmd]; rfl
  busy_excludes := by rw [h.busy]; exact fun hb => by cases hb
  err_done := fun _ => h.done
  no_code := h.no_code
  push_send := by rw [h.unpushed, h.unanswered]; exact fun hs => by cases hs
  push_once := fun _ => h.unanswered
  accepted_le := by rw [h.unanswered]; exact fun _ _ ha => by cases ha
  pipe_idle := fun _ _ => h.pipe

section Completion
variable {s : State} (hp : s.sinkPending = none) (ha : s.sinkAnswer = none) (hi : s.pipeI = 0)
include hp ha hi

theorem EngineInv.completeOk : EngineInv s.completeOk :=
  EngineIdle.inv ⟨rfl, rfl, rfl, fun _ => ⟨rfl, rfl⟩, hp, ha, hi⟩

theorem EngineInv.completeErr (e : Raised) : EngineInv (s.completeErr e) :=
  EngineIdle.inv ⟨rfl, rfl, rfl, (nomatch ·), hp, ha, hi⟩

end Completion

/-- SEND's push: the command stays in flight. -/
theorem EngineInv.issuePush {s : State} {c : Word} (h : EngineInv s) (hc : s.cmd = some c)
    (hi : decodeCmd c = .ok .send) (ha : s.sinkAnswer = none) (f : Bytes) : EngineInv (s.issuePush f) where
  busy_iff := h.busy_iff
  busy_excludes := h.busy_excludes
  err_done := h.err_done
  no_code := h.no_code
  push_send := fun _ => by rw [State.issuePush_cmd, hc, Option.map_some, hi]
  push_once := fun _ => ha
  accepted_le := h.accepted_le
  pipe_idle := fun hp => by cases hp

theorem EngineInv.host {s t : State} (h : EngineInv s) (he : HostEffect s t) : EngineInv t := by
  cases he with
  | noted p rs => exact h.of_eq rfl rfl rfl rfl rfl
  | wrote off v rest r t hp hr he =>
    have hpopped : EngineInv { s with program := rest } := h.of_eq rfl rfl rfl rfl rfl
    cases he with
    | ignored => exact hpopped
    | dropped => exact hpopped.drop
    | accepted hb => exact hpopped.accept hb v
    | operand hb n m hf => exact hpopped.of_eq rfl rfl rfl rfl rfl
    | inWord hb a => exact hpopped.of_eq rfl rfl rfl rfl rfl
    | irq en st => exact hpopped.of_eq rfl rfl rfl rfl rfl
    | config hl c => exact hpopped.of_eq rfl rfl rfl rfl rfl
    | actions hr t hrun =>
      refine runActions_keeps (fun s t h he => ?_) hpopped hrun
      cases he with
      | msgTaken hv => exact h.of_eq (by simp) (by simp) (by simp) (by simp) (by simp)
      | errTaken hv => exact h.of_eq (by simp) (by simp) (by simp) (by simp) (by simp)
      | _ => exact h.of_eq rfl rfl rfl rfl rfl

theorem EngineInv.codec {s t : State} (h : EngineInv s) (he : CodecEffect s t) : EngineInv t := by
  cases he with
  | waiting => exact h
  | sent c f a hc ha =>
    have hp : s.sinkPending = none := by
      have honce := h.push_once
      rw [ha] at honce
      cases hp : s.sinkPending with
      | none => rfl
      | some g => rw [hp] at honce; cases honce rfl
    obtain hend | ⟨e, hend⟩ := sendComplete_cases f a s <;> rw [hend]
    · exact EngineInv.completeOk (s := s.endSend) hp rfl rfl
    · exact EngineInv.completeErr (s := s.endSend) hp rfl rfl e
  | illegal c hc ha hp => exact EngineInv.completeErr hp ha (h.pipe_idle hp ha) _
  | command c i t hc ha hp hi he =>
    have hidle := h.pipe_idle hp ha
    cases he with
    | failed e => exact EngineInv.completeErr hp ha hidle e
    | push hs hl f => subst hs; exact h.issuePush hc hi ha f
    | plain => exact EngineInv.completeOk hp ha hidle
    | out v hv => exact EngineInv.completeOk (s := s.writeOut v) hp ha hidle
    | result v => exact EngineInv.completeOk (s := s.writeResult v) hp ha hidle
    | fields hf => exact EngineInv.completeOk (s := s.writeHf hf) hp ha hidle
    | lock hi hc => exact EngineInv.completeOk (s := s.setLocked true) hp ha hidle
    | unlock hi hr => exact EngineInv.completeOk (s := s.setLocked false) hp ha hidle

/-- The receiver holds none of the engine's registers. -/
theorem EngineInv.rx {s t : State} (h : EngineInv s) (he : RxEffect s t) : EngineInv t := by
  cases he <;> exact h.of_eq rfl rfl rfl rfl rfl

theorem handleSource_engine (stage : PullStage) (a : SourceAnswer) (s : State) :
    (handleSource stage a s).status = s.status ∧ (handleSource stage a s).cmd = s.cmd
      ∧ (handleSource stage a s).sinkPending = s.sinkPending ∧ (handleSource stage a s).sinkAnswer = s.sinkAnswer
      ∧ (handleSource stage a s).pipeI = s.pipeI := by
  cases a with
  | zero =>
    simp only [handleSource]
    cases Config.zeroReadPolicy <;> cases stage <;> exact ⟨rfl, rfl, rfl, rfl, rfl⟩
  | data v => cases stage <;> exact ⟨rfl, rfl, rfl, rfl, rfl⟩
  | eof => cases stage <;> exact ⟨rfl, rfl, rfl, rfl, rfl⟩
  | error => cases stage <;> exact ⟨rfl, rfl, rfl, rfl, rfl⟩

theorem EngineInv.source {s t : State} (h : EngineInv s) (he : SourceEffect s t) : EngineInv t := by
  cases he with
  | waiting => exact h
  | answered stage k a rest hp hk =>
    obtain ⟨hstatus, hcmd, hpending, hanswer, hpipe⟩ := handleSource_engine stage a (s.pulled a rest)
    exact h.of_eq hstatus hcmd hpending hanswer hpipe

theorem EngineInv.sink {s t : State} (h : EngineInv s) (he : SinkEffect s t) : EngineInv t := by
  cases he with
  | waiting => exact h
  | answered f a rest hp ha =>
    exact {
      busy_iff := h.busy_iff
      busy_excludes := h.busy_excludes
      err_done := h.err_done
      no_code := h.no_code
      push_send := fun _ => h.push_send (by rw [hp]; rfl)
      push_once := fun hnone => by cases hnone
      accepted_le := fun g n hg => by cases hg; exact ha n rfl
      pipe_idle := fun _ hnone => by cases hnone }

theorem EngineInv.reset (s : State) : EngineInv (hwReset s) where
  busy_iff := rfl
  busy_excludes := fun hb => by cases hb
  err_done := fun he => by cases he
  no_code := fun _ => ⟨rfl, rfl⟩
  push_send := fun hs => by cases hs
  push_once := fun _ => rfl
  accepted_le := fun _ _ ha => by cases ha
  pipe_idle := fun _ _ => rfl

/-- Settles O57: each agent's turn keeps the invariant. -/
theorem engineInvariantKept : Obligations.EngineInvariantKept := fun _ _ hs h =>
  step_keeps (fun _ hs => hs.of_eq rfl rfl rfl rfl rfl) (fun _ _ hs he => hs.host he) (fun _ _ hs he => hs.codec he)
    (fun _ _ hs he => hs.rx he) (fun _ _ hs he => hs.source he) (fun _ _ hs he => hs.sink he)
    (fun s _ => EngineInv.reset s) hs h

end Sys2Proof.Machine
end

section
/-! Every step keeps the invariant of the receiver and the configuration lock (44_frame_receiver.md R330 to R351,
20_memory.md R100). -/

namespace Sys2Proof.Machine

/-! ## The sync marker of a checked configuration -/

@[simp] theorem laneBytes_length (w : Word) : (laneBytes w).length = 4 := by simp [laneBytes]

theorem sync_length (c : Cfg) : c.sync.length = min c.m 8 := by simp [Cfg.sync, Cfg.m]

theorem sync_length_le (c : Cfg) : c.sync.length ≤ c.m := by rw [sync_length]; exact Nat.min_le_left ..

theorem sync_ne_nil {p : Params} {c : Cfg} (h : cfgCheck p c = none) : c.sync ≠ [] := by
  obtain ⟨hm, -⟩ := cfgCheck_none h
  rw [← List.length_pos_iff, sync_length]
  omega

theorem keepTail_length_le (m : Nat) (b : Bytes) :
    (keepTail m b).length ≤ b.length ∧ (keepTail m b).length ≤ m - 1 := by
  rw [keepTail, List.length_drop]
  omega

/-! ## What the invariant gives in each phase -/

/-- The invariant speaks of the sizes, the configuration, the lock, and the receiver's registers but CANCEL_PENDING and
CTRL_REJECTED. -/
theorem ReceiverInv.of_eq {s t : State} (h : ReceiverInv s) (hparams : t.params = s.params) (hcfg : t.cfg = s.cfg)
    (hlocked : t.status.cfgLocked = s.status.cfgLocked) (hstate : t.rx.state = s.rx.state)
    (hmsg : t.rx.msgValid = s.rx.msgValid) (herr : t.rx.errValid = s.rx.errValid) (hitem : t.rxItem = s.rxItem)
    (hpull : t.pullPending = s.pullPending) (hrdbuf : t.rdbuf = s.rdbuf) (hframe : t.frame = s.frame) :
    ReceiverInv t where
  sizes := by rw [hparams]; exact h.sizes
  locked_checked := by rw [hparams, hcfg, hlocked]; exact h.locked_checked
  running_locked := by rw [hlocked, hstate]; exact h.running_locked
  msg_valid := by rw [hmsg, hstate]; exact h.msg_valid
  err_valid := by rw [herr, hstate]; exact h.err_valid
  item_decoding := by rw [hitem, hstate]; exact h.item_decoding
  pull_seek := by rw [hpull, hstate, hrdbuf, hparams]; exact h.pull_seek
  pull_read := by rw [hpull, hstate, hrdbuf, hframe, hcfg]; exact h.pull_read
  rdbuf_le := by rw [hrdbuf, hparams]; exact h.rdbuf_le
  frame_le := by rw [hframe, hcfg]; exact h.frame_le
  frame_state := by rw [hframe, hstate, hitem]; exact h.frame_state
  reading_sync := by rw [hframe, hstate, hcfg, hrdbuf]; exact h.reading_sync
  decoding_frame := by rw [hframe, hstate, hitem, hcfg]; exact h.decoding_frame

theorem ReceiverInv.checked_of_running {s : State} (h : ReceiverInv s) (hr : s.rx.state.running = true) :
    cfgCheck s.params s.cfg = none := h.locked_checked (h.running_locked hr)

theorem ReceiverInv.item_none {s : State} (h : ReceiverInv s) (hs : s.rx.state ≠ .decoding) : s.rxItem = none := by
  cases hi : s.rxItem with
  | none => rfl
  | some it => exact absurd (h.item_decoding (by rw [hi]; rfl)) hs

theorem ReceiverInv.pull_none {s : State} (h : ReceiverInv s) (hseek : s.rx.state ≠ .seeking)
    (hread : s.rx.state ≠ .reading) : s.pullPending = none := by
  cases hp : s.pullPending with
  | none => rfl
  | some q =>
    obtain ⟨stage, k⟩ := q
    cases stage with
    | seek => exact absurd (h.pull_seek k hp).1 hseek
    | read => exact absurd (h.pull_read k hp).1 hread

theorem ReceiverInv.frame_nil {s : State} (h : ReceiverInv s) (hread : s.rx.state ≠ .reading)
    (hdec : s.rx.state = .decoding → s.rxItem ≠ none) : s.frame = [] := by
  by_contra hne
  obtain hs | ⟨hs, hi⟩ := h.frame_state hne
  · exact hread hs
  · exact hdec hs hi

theorem ReceiverInv.frame_nil_of_item {s : State} {it : RxItem} (h : ReceiverInv s) (hi : s.rxItem = some it) :
    s.frame = [] := by
  have hs := h.item_decoding (by rw [hi]; rfl)
  exact h.frame_nil (by rw [hs]; decide) (fun _ => by rw [hi]; exact Option.some_ne_none it)

theorem ReceiverInv.msg_off {s : State} (h : ReceiverInv s) (hs : s.rx.state ≠ .delivering) : s.rx.msgValid = false := by
  rw [← Bool.not_eq_true, h.msg_valid]; exact hs

theorem ReceiverInv.err_off {s : State} (h : ReceiverInv s) (hs : s.rx.state ≠ .reporting) : s.rx.errValid = false := by
  rw [← Bool.not_eq_true, h.err_valid]; exact hs

/-! ## Moving to another phase -/

/-- A move of the receiver from s to t that leaves the sizes, the configuration and the lock, and offers an item exactly in
the state for it. -/
structure RxMove (s t : State) : Prop where
  params : t.params = s.params
  cfg : t.cfg = s.cfg
  locked : t.status.cfgLocked = s.status.cfgLocked
  running : t.rx.state.running = true → s.status.cfgLocked = true
  msg : t.rx.msgValid = true ↔ t.rx.state = .delivering
  err : t.rx.errValid = true ↔ t.rx.state = .reporting
  rdbuf : t.rdbuf.length ≤ s.params.rdbufCap

/-- Into a phase without a frame, an item or a pull. -/
theorem ReceiverInv.away {s t : State} (h : ReceiverInv s) (hm : RxMove s t) (hread : t.rx.state ≠ .reading)
    (hdec : t.rx.state ≠ .decoding) (hitem : t.rxItem = none) (hpull : t.pullPending = none) (hframe : t.frame = []) :
    ReceiverInv t where
  sizes := by rw [hm.params]; exact h.sizes
  locked_checked := by rw [hm.params, hm.cfg, hm.locked]; exact h.locked_checked
  running_locked := by rw [hm.locked]; exact hm.running
  msg_valid := hm.msg
  err_valid := hm.err
  item_decoding := by rw [hitem]; exact fun hi => by cases hi
  pull_seek := by rw [hpull]; exact fun _ hp => by cases hp
  pull_read := by rw [hpull]; exact fun _ hp => by cases hp
  rdbuf_le := by rw [hm.params]; exact hm.rdbuf
  frame_le := by rw [hframe]; exact Nat.zero_le _
  frame_state := fun hne => absurd hframe hne
  reading_sync := fun hs => absurd hs hread
  decoding_frame := fun hs => absurd hs hdec

/-- Into DECODING with an item. -/
theorem ReceiverInv.toItem {s t : State} {it : RxItem} (h : ReceiverInv s) (hm : RxMove s t)
    (hs : t.rx.state = .decoding) (hitem : t.rxItem = some it) (hpull : t.pullPending = none) (hframe : t.frame = []) :
    ReceiverInv t where
  sizes := by rw [hm.params]; exact h.sizes
  locked_checked := by rw [hm.params, hm.cfg, hm.locked]; exact h.locked_checked
  running_locked := by rw [hm.locked]; exact hm.running
  msg_valid := hm.msg
  err_valid := hm.err
  item_decoding := fun _ => hs
  pull_seek := by rw [hpull]; exact fun _ hp => by cases hp
  pull_read := by rw [hpull]; exact fun _ hp => by cases hp
  rdbuf_le := by rw [hm.params]; exact hm.rdbuf
  frame_le := by rw [hframe]; exact Nat.zero_le _
  frame_state := fun hne => absurd hframe hne
  reading_sync := by rw [hs]; exact fun hr => by cases hr
  decoding_frame := by rw [hitem]; exact fun _ hi => by cases hi

/-- Within READING, or into it, with a frame and a buffer that hold the marker as R342 asks. -/
theorem ReceiverInv.toReading {s t : State} (h : ReceiverInv s) (hm : RxMove s t) (hs : t.rx.state = .reading)
    (hitem : t.rxItem = none) (hpull : t.pullPending = none) (hframe : t.frame.length ≤ s.cfg.l)
    (hsync : (t.frame = [] → s.cfg.sync <+: t.rdbuf) ∧ (t.frame ≠ [] → s.cfg.sync <+: t.frame)) : ReceiverInv t where
  sizes := by rw [hm.params]; exact h.sizes
  locked_checked := by rw [hm.params, hm.cfg, hm.locked]; exact h.locked_checked
  running_locked := by rw [hm.locked]; exact hm.running
  msg_valid := hm.msg
  err_valid := hm.err
  item_decoding := by rw [hitem]; exact fun hi => by cases hi
  pull_seek := by rw [hpull]; exact fun _ hp => by cases hp
  pull_read := by rw [hpull]; exact fun _ hp => by cases hp
  rdbuf_le := by rw [hm.params]; exact hm.rdbuf
  frame_le := by rw [hm.cfg]; exact hframe
  frame_state := fun _ => .inl hs
  reading_sync := fun _ => by rw [hm.cfg]; exact hsync
  decoding_frame := by rw [hs]; exact fun hd => by cases hd

/-! ## The HOST -/

/-- A configuration write lands only while the receiver is stopped, so nothing of the receiver rests on the old one. -/
theorem ReceiverInv.config {s : State} (h : ReceiverInv s) (hl : s.status.cfgLocked = false) (c : Cfg) :
    ReceiverInv { s with cfg := c } := by
  have hrun : ¬ s.rx.state.running = true := fun hr => by rw [h.running_locked hr] at hl; cases hl
  have hstopped : ∀ st : RxState, st.running = true → s.rx.state ≠ st := fun st hst hs => hrun (by rw [hs]; exact hst)
  have hseek := hstopped .seeking rfl
  have hread := hstopped .reading rfl
  have hdec := hstopped .decoding rfl
  have hframe := h.frame_nil hread fun hs => absurd hs hdec
  have hpull := h.pull_none hseek hread
  exact { h with
    locked_checked := fun hlock => by rw [hl] at hlock; cases hlock
    pull_read := fun k hp => by rw [hpull] at hp; cases hp
    frame_le := by rw [hframe]; exact Nat.zero_le _
    reading_sync := fun hs => absurd hs hread
    decoding_frame := fun hs => absurd hs hdec }

/-- An item offered in state st is taken: the receiver goes to the iteration top. -/
theorem ReceiverInv.taken {s t : State} (h : ReceiverInv s) (hs : s.rx.state = .delivering ∨ s.rx.state = .reporting)
    (hparams : t.params = s.params) (hcfg : t.cfg = s.cfg) (hlocked : t.status = s.status)
    (hmsg : t.rx.msgValid = false) (herr : t.rx.errValid = false) (hitem : t.rxItem = s.rxItem)
    (hpull : t.pullPending = s.pullPending) (hrdbuf : t.rdbuf = s.rdbuf) (hframe : t.frame = s.frame) :
    ReceiverInv t.enterTop := by
  have hrun : s.rx.state.running = true := by obtain hs | hs := hs <;> rw [hs] <;> rfl
  have hseek : s.rx.state ≠ .seeking := by obtain hs | hs := hs <;> rw [hs] <;> decide
  have hread : s.rx.state ≠ .reading := by obtain hs | hs := hs <;> rw [hs] <;> decide
  have hdec : s.rx.state ≠ .decoding := by obtain hs | hs := hs <;> rw [hs] <;> decide
  have hnext : t.enterTop.rx.state = .canceled ∨ t.enterTop.rx.state = .seeking := by
    rw [State.enterTop_rx]; cases t.rx.cancelPending <;> simp
  have hslots : t.enterTop.rx.msgValid = false ∧ t.enterTop.rx.errValid = false := by
    rw [State.enterTop_rx]; exact ⟨hmsg, herr⟩
  refine h.away ⟨by simp [hparams], by simp [hcfg], by simp [hlocked], fun _ => h.running_locked hrun, ?_, ?_, ?_⟩ ?_ ?_
    ?_ ?_ ?_
  · rw [hslots.1]; obtain hn | hn := hnext <;> rw [hn] <;> decide
  · rw [hslots.2]; obtain hn | hn := hnext <;> rw [hn] <;> decide
  · rw [State.enterTop_rdbuf, hrdbuf]; exact h.rdbuf_le
  · obtain hn | hn := hnext <;> rw [hn] <;> decide
  · obtain hn | hn := hnext <;> rw [hn] <;> decide
  · rw [State.enterTop_rxItem, hitem]; exact h.item_none hdec
  · rw [State.enterTop_pullPending, hpull]; exact h.pull_none hseek hread
  · rw [State.enterTop_frame, hframe]; exact h.frame_nil hread fun hs => absurd hs hdec

theorem ReceiverInv.action {s t : State} (h : ReceiverInv s) (he : ActionEffect s t) : ReceiverInv t := by
  cases he with
  | rejected => exact h.of_eq rfl rfl rfl rfl rfl rfl rfl rfl rfl rfl
  | nothing => exact h
  | canceling => exact h.of_eq rfl rfl rfl rfl rfl rfl rfl rfl rfl rfl
  | started hs hl =>
    have hmsg := h.msg_off (by rw [hs]; decide)
    have herr := h.err_off (by rw [hs]; decide)
    refine h.away ⟨rfl, rfl, rfl, fun _ => hl, ?_, ?_, h.rdbuf_le⟩ (by simp) (by simp)
      (h.item_none (by rw [hs]; decide)) (h.pull_none (by rw [hs]; decide) (by rw [hs]; decide))
      (h.frame_nil (by rw [hs]; decide) (by rw [hs]; exact fun hd => by cases hd))
    · simp [hmsg]
    · simp [herr]
  | reset hs =>
    have hpull : s.pullPending = none := h.pull_none (by intro h'; rw [h'] at hs; cases hs)
      (by intro h'; rw [h'] at hs; cases hs)
    have hrx : s.resetReceiver.rx = RxStatus.reset := rfl
    exact h.away ⟨rfl, rfl, rfl, (fun hr => by cases hr), by rw [hrx]; decide, by rw [hrx]; decide, Nat.zero_le _⟩
      (by rw [hrx]; decide) (by rw [hrx]; decide) rfl hpull rfl
  | msgTaken hv =>
    have hs := h.msg_valid.1 hv
    exact h.taken (.inl hs) rfl rfl rfl rfl (h.err_off (by rw [hs]; decide)) rfl rfl rfl rfl
  | errTaken hv =>
    have hs := h.err_valid.1 hv
    exact h.taken (.inr hs) rfl rfl rfl (h.msg_off (by rw [hs]; decide)) rfl rfl rfl rfl rfl

theorem ReceiverInv.host {s t : State} (h : ReceiverInv s) (he : HostEffect s t) : ReceiverInv t := by
  cases he with
  | noted p rs => exact h.of_eq rfl rfl rfl rfl rfl rfl rfl rfl rfl rfl
  | wrote off v rest r t hp hr he =>
    have hpopped : ReceiverInv { s with program := rest } := h.of_eq rfl rfl rfl rfl rfl rfl rfl rfl rfl rfl
    cases he with
    | config hl c => exact hpopped.config hl c
    | actions hr t hrun => exact runActions_keeps (fun _ _ h he => h.action he) hpopped hrun
    | _ => exact h.of_eq rfl rfl rfl rfl rfl rfl rfl rfl rfl rfl

/-! ## The command engine -/

theorem ReceiverInv.lock {s : State} (h : ReceiverInv s) (hc : cfgCheck s.params s.cfg = none) :
    ReceiverInv (s.setLocked true) :=
  { h with locked_checked := fun _ => hc, running_locked := fun _ => rfl }

theorem ReceiverInv.unlock {s : State} (h : ReceiverInv s) (hr : s.rx.state.running = false) :
    ReceiverInv (s.setLocked false) :=
  { h with
    locked_checked := fun hl => by cases hl
    running_locked := fun hrun => by rw [State.setLocked_rx, hr] at hrun; cases hrun }

theorem ReceiverInv.codec {s t : State} (h : ReceiverInv s) (he : CodecEffect s t) : ReceiverInv t := by
  cases he with
  | waiting => exact h
  | sent c f a hc ha =>
    obtain hend | ⟨e, hend⟩ := sendComplete_cases f a s <;> rw [hend] <;>
      exact h.of_eq rfl rfl rfl rfl rfl rfl rfl rfl rfl rfl
  | illegal c hc ha hp => exact h.of_eq rfl rfl rfl rfl rfl rfl rfl rfl rfl rfl
  | command c i t hc ha hp hi he =>
    cases he with
    | lock hi hc => exact (h.lock hc).of_eq rfl rfl rfl rfl rfl rfl rfl rfl rfl rfl
    | unlock hi hr => exact (h.unlock hr).of_eq rfl rfl rfl rfl rfl rfl rfl rfl rfl rfl
    | _ => exact h.of_eq rfl rfl rfl rfl rfl rfl rfl rfl rfl rfl

/-! ## The receiver -/

/-- A running receiver moves within the running states or stops, its slots set by the new state. -/
theorem ReceiverInv.move {s t : State} (h : ReceiverInv s) (hr : s.rx.state.running = true) (hparams : t.params = s.params)
    (hcfg : t.cfg = s.cfg) (hlocked : t.status = s.status) (hmsg : t.rx.msgValid = true ↔ t.rx.state = .delivering)
    (herr : t.rx.errValid = true ↔ t.rx.state = .reporting) (hrdbuf : t.rdbuf.length ≤ s.params.rdbufCap) : RxMove s t :=
  ⟨hparams, hcfg, by rw [hlocked], fun _ => h.running_locked hr, hmsg, herr, hrdbuf⟩

/-- A seek that misses pulls as much as the buffer holds beside the kept tail, at least one byte. -/
theorem ReceiverInv.missed {s : State} (h : ReceiverInv s) (hs : s.rx.state = .seeking) :
    ReceiverInv (State.issuePull .seek (s.params.rdbufCap - (keepTail s.cfg.m s.rdbuf).length)
      { s with rdbuf := keepTail s.cfg.m s.rdbuf }) := by
  obtain ⟨hkept, hshort⟩ := keepTail_length_le s.cfg.m s.rdbuf
  obtain ⟨-, hm, -⟩ := cfgCheck_none (h.checked_of_running (by rw [hs]; rfl))
  have hsizes := h.sizes
  have hrdbuf := h.rdbuf_le
  have hframe := h.frame_nil (by rw [hs]; decide) (by rw [hs]; exact fun hd => by cases hd)
  exact { h with
    pull_seek := fun k hp => by
      simp only [State.issuePull_pullPending, Option.some.injEq, Prod.mk.injEq, true_and] at hp
      subst hp
      have hroom : s.params.rdbufCap - (keepTail s.cfg.m s.rdbuf).length + (keepTail s.cfg.m s.rdbuf).length
          ≤ s.params.rdbufCap := by omega
      exact ⟨hs, by omega, hroom⟩
    pull_read := fun k hp => by cases hp
    rdbuf_le := hkept.trans hrdbuf
    reading_sync := fun hr => by rw [State.issuePull_rx, hs] at hr; cases hr }

theorem ReceiverInv.frame_sync_of_complete {s : State} (h : ReceiverInv s) (hs : s.rx.state = .reading)
    (hn : s.cfg.l - s.frame.length = 0) : s.frame.length = s.cfg.l ∧ s.cfg.sync <+: s.frame := by
  obtain ⟨hm, -⟩ := cfgCheck_none (h.checked_of_running (by rw [hs]; rfl))
  have hle := h.frame_le
  have hl : s.cfg.l = s.cfg.m + s.cfg.fs := rfl
  have hlen : s.frame.length = s.cfg.l := by omega
  refine ⟨hlen, (h.reading_sync hs).2 fun hnil => ?_⟩
  rw [hnil, List.length_nil] at hlen
  omega

theorem ReceiverInv.complete {s : State} (h : ReceiverInv s) (hp : s.pullPending = none) (hs : s.rx.state = .reading)
    (hn : s.cfg.l - s.frame.length = 0) : ReceiverInv (s.setRxState .decoding) := by
  have hitem := h.item_none (by rw [hs]; decide)
  exact { h with
    running_locked := fun _ => h.running_locked (by rw [hs]; rfl)
    msg_valid := by simp [h.msg_off (show s.rx.state ≠ .delivering by rw [hs]; decide)]
    err_valid := by simp [h.err_off (show s.rx.state ≠ .reporting by rw [hs]; decide)]
    item_decoding := fun _ => rfl
    pull_seek := fun k hk => by rw [State.setRxState_pullPending, hp] at hk; cases hk
    pull_read := fun k hk => by rw [State.setRxState_pullPending, hp] at hk; cases hk
    frame_state := fun _ => .inr ⟨rfl, hitem⟩
    reading_sync := fun hr => by cases hr
    decoding_frame := fun _ _ => h.frame_sync_of_complete hs hn }

theorem ReceiverInv.drained {s : State} (h : ReceiverInv s) (hs : s.rx.state = .reading)
    (hn : s.cfg.l - s.frame.length ≠ 0) (hb : s.rdbuf = []) :
    ReceiverInv (s.issuePull .read (s.cfg.l - s.frame.length)) :=
  { h with
    pull_seek := fun k hp => by cases hp
    pull_read := fun k hp => by
      simp only [State.issuePull_pullPending, Option.some.injEq, Prod.mk.injEq, true_and] at hp
      subst hp
      have hfull : s.frame.length + (s.cfg.l - s.frame.length) = s.cfg.l := Nat.add_sub_cancel' h.frame_le
      exact ⟨hs, Nat.one_le_iff_ne_zero.2 hn, hb, hfull⟩ }

/-- The bytes a read moves put the marker first in the frame, from the buffer or from the frame so far. -/
theorem ReceiverInv.moved {s : State} (h : ReceiverInv s) (hp : s.pullPending = none) (hs : s.rx.state = .reading)
    (hn : s.cfg.l - s.frame.length ≠ 0) (hb : s.rdbuf ≠ []) :
    ReceiverInv { s with
      frame := s.frame ++ s.rdbuf.take (s.cfg.l - s.frame.length)
      rdbuf := s.rdbuf.drop (s.cfg.l - s.frame.length) } := by
  have hrdbuf := h.rdbuf_le
  have hne : s.frame ++ s.rdbuf.take (s.cfg.l - s.frame.length) ≠ [] := by
    simp only [ne_eq, List.append_eq_nil_iff, List.take_eq_nil_iff, not_and, not_or]
    exact fun _ => ⟨hn, hb⟩
  have hsync : s.cfg.sync <+: s.frame ++ s.rdbuf.take (s.cfg.l - s.frame.length) := by
    obtain ⟨hfirst, hlater⟩ := h.reading_sync hs
    by_cases hf : s.frame = []
    · have hroom : s.cfg.sync.length ≤ s.cfg.l - s.frame.length := by
        have := sync_length_le s.cfg
        rw [hf, List.length_nil, Cfg.l]
        omega
      rw [hf, List.nil_append, ← hf, List.prefix_take_iff]
      exact ⟨hfirst hf, hroom⟩
    · exact (hlater hf).trans (List.prefix_append ..)
  refine h.toReading (h.move (by rw [hs]; rfl) rfl rfl rfl h.msg_valid h.err_valid ?_) hs
    (h.item_none (by rw [hs]; decide)) hp ?_ ⟨fun hnil => absurd hnil hne, fun _ => hsync⟩
  · rw [List.length_drop]; omega
  · rw [List.length_append, List.length_take]; omega

/-- The turns of RX that leave DECODING with its item. -/
theorem ReceiverInv.leaveDecoding {s t : State} {it : RxItem} (h : ReceiverInv s) (hs : s.rx.state = .decoding)
    (hi : s.rxItem = some it) (hm : RxMove s t) (hread : t.rx.state ≠ .reading) (hdec : t.rx.state ≠ .decoding)
    (hitem : t.rxItem = none) (hpull : t.pullPending = s.pullPending) (hframe : t.frame = s.frame) : ReceiverInv t :=
  h.away hm hread hdec hitem (by rw [hpull]; exact h.pull_none (by rw [hs]; decide) (by rw [hs]; decide))
    (by rw [hframe]; exact h.frame_nil_of_item hi)

theorem ReceiverInv.rx {s t : State} (h : ReceiverInv s) (he : RxEffect s t) : ReceiverInv t := by
  have hmove : s.rx.state.running = true → ∀ u : State, _ := fun hr u => h.move (t := u) hr
  cases he with
  | waiting => exact h
  | found j hp hs hj =>
    have hmsg := h.msg_off (by rw [hs]; decide)
    have herr := h.err_off (by rw [hs]; decide)
    obtain ⟨-, hat, -⟩ := (findMarker_eq_some_iff _ _ _).1 hj
    have hrdbuf := h.rdbuf_le
    refine h.toReading (hmove (by rw [hs]; rfl) _ rfl rfl rfl (by simp [hmsg]) (by simp [herr]) ?_) rfl
      (h.item_none (by rw [hs]; decide)) hp (Nat.zero_le _) ⟨fun _ => ?_, fun hne => absurd rfl hne⟩
    · rw [State.setRxState_rdbuf, List.length_drop]; omega
    · exact (List.prefix_iff_eq_take.2 hat.symm)
  | missed hp hs hj => exact h.missed hs
  | complete hp hs hn => exact h.complete hp hs hn
  | drained hp hs hn hb => exact h.drained hs hn hb
  | moved hp hs hn hb => exact h.moved hp hs hn hb
  | decoded hp hs hi =>
    exact h.toItem (hmove (by rw [hs]; rfl) _ rfl rfl rfl h.msg_valid h.err_valid h.rdbuf_le) hs rfl hp rfl
  | withdrawn it hp hs hi =>
    have hmsg := h.msg_off (by rw [hs]; decide)
    have herr := h.err_off (by rw [hs]; decide)
    exact h.leaveDecoding hs hi (hmove (by rw [hs]; rfl) _ rfl rfl rfl (by simp [hmsg]) (by simp [herr]) h.rdbuf_le)
      (by simp) (by simp) rfl rfl rfl
  | offeredMsg x hp hs hi =>
    have herr := h.err_off (by rw [hs]; decide)
    exact h.leaveDecoding hs hi (hmove (by rw [hs]; rfl) _ rfl rfl rfl (by simp) (by simp [herr]) h.rdbuf_le)
      (by simp) (by simp) rfl rfl rfl
  | offeredErr it info hp hs hi =>
    have hmsg := h.msg_off (by rw [hs]; decide)
    exact h.leaveDecoding hs hi (hmove (by rw [hs]; rfl) _ rfl rfl rfl (by simp [hmsg]) (by simp) h.rdbuf_le)
      (by simp) (by simp) rfl rfl rfl
  | droppedErr it hp hs hi =>
    have hmsg := h.msg_off (by rw [hs]; decide)
    have herr := h.err_off (by rw [hs]; decide)
    exact h.leaveDecoding hs hi (hmove (by rw [hs]; rfl) _ rfl rfl rfl (by simp [hmsg]) (by simp [herr]) h.rdbuf_le)
      (by simp) (by simp) rfl rfl rfl
  | canceled hp hs =>
    have hrun : s.rx.state.running = true := by obtain hs | hs := hs <;> rw [hs] <;> rfl
    have hread : s.rx.state ≠ .reading := by obtain hs | hs := hs <;> rw [hs] <;> decide
    have hdec : s.rx.state ≠ .decoding := by obtain hs | hs := hs <;> rw [hs] <;> decide
    exact h.away (hmove hrun _ rfl rfl rfl (by simp [cancelOfferStep]) (by simp [cancelOfferStep]) h.rdbuf_le)
      (by simp [cancelOfferStep]) (by simp [cancelOfferStep]) (h.item_none hdec) hp
      (h.frame_nil hread fun hs => absurd hs hdec)

/-! ## The ports -/

/-- The state in which a pull of the stage is outstanding (44_frame_receiver.md R331). -/
def pullState : PullStage → RxState
  | .seek => .seeking
  | .read => .reading

/-- An answered pull is no longer outstanding. -/
theorem ReceiverInv.pulled {s : State} (h : ReceiverInv s) (a : SourceAnswer) (rest : List SourceAnswer) :
    ReceiverInv (s.pulled a rest) :=
  { h with
    pull_seek := fun k hp => by cases hp
    pull_read := fun k hp => by cases hp }

/-- The SOURCE ends or fails in a running state: the frame of a read is discarded, a seek has none. -/
theorem ReceiverInv.sourceEof {s : State} (h : ReceiverInv s) {stage : PullStage}
    (hs : s.rx.state = pullState stage) (hp : s.pullPending = none) :
    ReceiverInv (sourceEof stage s) := by
  cases stage with
  | seek =>
    have hmsg := h.msg_off (by rw [hs]; decide)
    have herr := h.err_off (by rw [hs]; decide)
    exact h.away (h.move (by rw [hs]; rfl) rfl rfl rfl (by simp [Machine.sourceEof, hmsg]) (by simp [Machine.sourceEof, herr])
      h.rdbuf_le) (by simp [Machine.sourceEof]) (by simp [Machine.sourceEof]) (h.item_none (by rw [hs]; decide)) hp
      (h.frame_nil (by rw [hs]; decide) (by rw [hs]; exact fun hd => by cases hd))
  | read =>
    have hmsg := h.msg_off (by rw [hs]; decide)
    have herr := h.err_off (by rw [hs]; decide)
    exact h.away (h.move (by rw [hs]; rfl) rfl rfl rfl (by simp [Machine.sourceEof, hmsg]) (by simp [Machine.sourceEof, herr])
      h.rdbuf_le) (by simp [Machine.sourceEof]) (by simp [Machine.sourceEof]) (h.item_none (by rw [hs]; decide)) hp rfl

theorem ReceiverInv.sourceError {s : State} (h : ReceiverInv s) {stage : PullStage}
    (hs : s.rx.state = pullState stage) (hp : s.pullPending = none) :
    ReceiverInv (sourceError stage s) := by
  cases stage with
  | seek =>
    have hmsg := h.msg_off (by rw [hs]; decide)
    have herr := h.err_off (by rw [hs]; decide)
    exact h.toItem (h.move (by rw [hs]; rfl) rfl rfl rfl (by simp [Machine.sourceError, hmsg])
      (by simp [Machine.sourceError, herr]) h.rdbuf_le) rfl rfl hp
      (h.frame_nil (by rw [hs]; decide) (by rw [hs]; exact fun hd => by cases hd))
  | read =>
    have hmsg := h.msg_off (by rw [hs]; decide)
    have herr := h.err_off (by rw [hs]; decide)
    exact h.toItem (h.move (by rw [hs]; rfl) rfl rfl rfl (by simp [Machine.sourceError, hmsg])
      (by simp [Machine.sourceError, herr]) h.rdbuf_le) rfl rfl hp rfl

theorem ReceiverInv.seekData {s : State} (h : ReceiverInv s) (hs : s.rx.state = .seeking) (hp : s.pullPending = none)
    {v : Bytes} (hv : s.rdbuf.length + v.length ≤ s.params.rdbufCap) : ReceiverInv { s with rdbuf := s.rdbuf ++ v } :=
  h.away (h.move (by rw [hs]; rfl) rfl rfl rfl h.msg_valid h.err_valid (by rw [List.length_append]; exact hv))
    (by rw [hs]; decide) (by rw [hs]; decide) (h.item_none (by rw [hs]; decide)) hp
    (h.frame_nil (by rw [hs]; decide) (by rw [hs]; exact fun hd => by cases hd))

/-- A read pulls only when the buffer is empty, so the marker is in the frame already. -/
theorem ReceiverInv.readData {s : State} (h : ReceiverInv s) (hs : s.rx.state = .reading) (hp : s.pullPending = none)
    (hb : s.rdbuf = []) {v : Bytes} (hv : s.frame.length + v.length ≤ s.cfg.l) :
    ReceiverInv { s with frame := s.frame ++ v } := by
  obtain ⟨hfirst, hlater⟩ := h.reading_sync hs
  have hf : s.frame ≠ [] := fun hnil => by
    have hnone := hfirst hnil
    rw [hb, List.prefix_nil] at hnone
    exact sync_ne_nil (h.checked_of_running (by rw [hs]; rfl)) hnone
  refine h.toReading (h.move (by rw [hs]; rfl) rfl rfl rfl h.msg_valid h.err_valid h.rdbuf_le) hs
    (h.item_none (by rw [hs]; decide)) hp (by rw [List.length_append]; exact hv) ⟨fun hnil => ?_, fun _ => ?_⟩
  · exact absurd (List.append_eq_nil_iff.1 hnil).1 hf
  · exact (hlater hf).trans (List.prefix_append ..)

/-- An outstanding pull is the one of its stage's state, with room for its bytes. -/
theorem ReceiverInv.pull_state {s : State} (h : ReceiverInv s) {stage : PullStage} {k : Nat}
    (hp : s.pullPending = some (stage, k)) :
    s.rx.state = pullState stage := by
  cases stage with
  | seek => exact (h.pull_seek k hp).1
  | read => exact (h.pull_read k hp).1

theorem ReceiverInv.answered {s : State} (h : ReceiverInv s) {stage : PullStage} {k : Nat} {a : SourceAnswer}
    (rest : List SourceAnswer) (hp : s.pullPending = some (stage, k)) (hk : ∀ v, a = .data v → v.length ≤ k) :
    ReceiverInv (handleSource stage a (s.pulled a rest)) := by
  have hpulled := h.pulled a rest
  have hs : (s.pulled a rest).rx.state = pullState stage := h.pull_state hp
  cases a with
  | zero =>
    simp only [handleSource]
    cases Config.zeroReadPolicy with
    | retry => exact hpulled
    | endOfStream => exact hpulled.sourceEof hs rfl
  | eof => exact hpulled.sourceEof hs rfl
  | error => exact hpulled.sourceError hs rfl
  | data v =>
    have hv := hk v rfl
    cases stage with
    | seek =>
      obtain ⟨-, -, hroom⟩ := h.pull_seek k hp
      exact hpulled.seekData hs rfl (show s.rdbuf.length + v.length ≤ s.params.rdbufCap by omega)
    | read =>
      obtain ⟨-, -, hb, hroom⟩ := h.pull_read k hp
      exact hpulled.readData hs rfl hb (show s.frame.length + v.length ≤ s.cfg.l by omega)

theorem ReceiverInv.source {s t : State} (h : ReceiverInv s) (he : SourceEffect s t) : ReceiverInv t := by
  cases he with
  | waiting => exact h
  | answered stage k a rest hp hk => exact h.answered rest hp hk

theorem ReceiverInv.sink {s t : State} (h : ReceiverInv s) (he : SinkEffect s t) : ReceiverInv t := by
  cases he <;> exact h.of_eq rfl rfl rfl rfl rfl rfl rfl rfl rfl rfl

/-- The reset state of any lawful sizes. -/
theorem receiverInv_of_reset {t : State} (hp : t.params.wf) (hl : t.status.cfgLocked = false) (hrx : t.rx = RxStatus.reset)
    (hitem : t.rxItem = none) (hpull : t.pullPending = none) (hrdbuf : t.rdbuf = []) (hframe : t.frame = []) :
    ReceiverInv t where
  sizes := hp
  locked_checked := by rw [hl]; exact fun h => by cases h
  running_locked := by rw [hrx]; exact fun h => by cases h
  msg_valid := by rw [hrx]; decide
  err_valid := by rw [hrx]; decide
  item_decoding := by rw [hitem]; exact fun h => by cases h
  pull_seek := by rw [hpull]; exact fun _ h => by cases h
  pull_read := by rw [hpull]; exact fun _ h => by cases h
  rdbuf_le := by rw [hrdbuf]; exact Nat.zero_le _
  frame_le := by rw [hframe]; exact Nat.zero_le _
  frame_state := fun h => absurd hframe h
  reading_sync := by rw [hrx]; exact fun h => by cases h
  decoding_frame := by rw [hrx]; exact fun h => by cases h

theorem ReceiverInv.reset {s : State} (h : ReceiverInv s) : ReceiverInv (hwReset s) :=
  receiverInv_of_reset h.sizes rfl rfl rfl rfl rfl rfl

theorem ReceiverInv.begin {s : State} (h : ReceiverInv s) : ReceiverInv s.begin :=
  h.of_eq rfl rfl rfl rfl rfl rfl rfl rfl rfl rfl

/-- Settles O58: each agent's turn keeps the invariant. -/
theorem receiverInvariantKept : Obligations.ReceiverInvariantKept := fun _ _ hs h =>
  step_keeps (fun _ hs => hs.begin) (fun _ _ hs he => hs.host he) (fun _ _ hs he => hs.codec he)
    (fun _ _ hs he => hs.rx he) (fun _ _ hs he => hs.source he) (fun _ _ hs he => hs.sink he) (fun _ hs => hs.reset) hs h

end Sys2Proof.Machine
end

section
/-! Every step keeps the output windows specified and the memory canonical (10_state.md R62 to R64, 44_frame_receiver.md
R345; assumption 17). -/

namespace Sys2Proof.Machine

/-- The part of the invariant about the windows. -/
structure WindowInv (s : State) : Prop where
  memory : s.mem.wf s.params
  buffers : BufferInv s

/-- A step that writes no window keeps them, whether or not it withdraws the item or the offer. -/
theorem WindowInv.of_eq {s t : State} (h : WindowInv s) (hparams : t.params = s.params) (hmem : t.mem = s.mem)
    (hout : t.outLen = s.outLen) (hlen : t.msgLen = s.msgLen)
    (hitem : ∀ x, t.rxItem = some (.msg x) → s.rxItem = some (.msg x))
    (hvalid : t.rx.msgValid = true → s.rx.msgValid = true) : WindowInv t where
  memory := by rw [hparams, hmem]; exact h.memory
  buffers := {
    out_le := by rw [hparams, hout]; exact h.buffers.out_le
    out_specified := by rw [hmem, hout]; exact h.buffers.out_specified
    item_fits := fun x hx => by rw [hparams]; exact h.buffers.item_fits x (hitem x hx)
    msg_le := fun hv => by rw [hparams, hlen]; exact h.buffers.msg_le (hvalid hv)
    msg_specified := fun hv => by rw [hmem, hlen]; exact h.buffers.msg_specified (hvalid hv) }

/-! ## A write of one window leaves the others -/

theorem writeInWord_read_above (a : Nat) (v : Word) (s : State) {b : Nat} (hb : inBase + s.params.datapathMax ≤ b) :
    (s.writeInWord a v).mem.read b = s.mem.read b := by
  apply Memory.read_splice_outside
  simp only [List.length_take, List.length_cons, List.length_nil]
  omega

theorem writeOut_read_above (v : Bytes) (s : State) {b : Nat} (hb : outBase + s.params.datapathMax ≤ b) :
    (s.writeOut v).mem.read b = s.mem.read b := by
  apply Memory.read_splice_outside
  rw [List.length_take]
  omega

theorem offerMsg_read_below (x : Bytes) (s : State) {b : Nat} (hb : b < msgBase) :
    (offerMsg x s).mem.read b = s.mem.read b := Memory.read_splice_outside _ _ _ _ (.inl hb)

theorem WindowInv.inWord {s : State} (h : WindowInv s) (hp : s.params.wf) (a : Nat) (v : Word) :
    WindowInv (s.writeInWord a v) := by
  obtain ⟨hin, hout, hmsg⟩ := window_bases
  obtain ⟨hsize, -⟩ := Params.windows_apart hp
  exact {
    memory := State.writeInWord_wf a v s h.memory
    buffers := { h.buffers with
      out_specified := fun b hb => by
        rw [writeInWord_read_above a v s (by omega)]; exact h.buffers.out_specified b hb
      msg_specified := fun hv b hb => by
        rw [writeInWord_read_above a v s (by omega)]; exact h.buffers.msg_specified hv b hb } }

theorem writeOut_outLen_toNat {v : Bytes} {s : State} (hp : s.params.wf) (hv : v.length ≤ s.params.datapathMax) :
    (s.writeOut v).outLen.toNat = v.length := by
  obtain ⟨hsize, -⟩ := Params.windows_apart hp
  rw [State.writeOut_outLen, BitVec.toNat_ofNat]
  omega

theorem WindowInv.writeOut {s : State} (h : WindowInv s) (hp : s.params.wf) {v : Bytes}
    (hv : v.length ≤ s.params.datapathMax) : WindowInv (s.writeOut v) := by
  obtain ⟨hin, hout, hmsg⟩ := window_bases
  obtain ⟨hsize, -⟩ := Params.windows_apart hp
  have hlen := writeOut_outLen_toNat hp hv
  exact {
    memory := State.writeOut_wf v s h.memory
    buffers := { h.buffers with
      out_le := hlen.trans_le hv
      out_specified := fun b hb => by
        rw [hlen] at hb
        rw [State.writeOut_read v s hv, if_pos (by omega), Nat.add_sub_cancel_left, List.getElem?_eq_getElem hb]
        rfl
      msg_specified := fun hv b hb => by
        rw [writeOut_read_above v s (by omega)]; exact h.buffers.msg_specified hv b hb } }

theorem offerMsg_msgLen_toNat {x : Bytes} {s : State} (hp : s.params.wf) (hx : x.length ≤ s.params.msgbufSize) :
    (offerMsg x s).msgLen.toNat = x.length := by
  obtain ⟨hsize, hframe⟩ := Params.windows_apart hp
  rw [offerMsg_msgLen, BitVec.toNat_ofNat]
  omega

theorem WindowInv.offerMsg {s : State} (h : WindowInv s) (hp : s.params.wf) {x : Bytes}
    (hx : x.length ≤ s.params.msgbufSize) : WindowInv (offerMsg x s) := by
  obtain ⟨hin, hout, hmsg⟩ := window_bases
  obtain ⟨hsize, -⟩ := Params.windows_apart hp
  have hlen := offerMsg_msgLen_toNat hp hx
  have hle := h.buffers.out_le
  exact {
    memory := offerMsg_wf x s h.memory
    buffers := { h.buffers with
      out_specified := fun b hb => by
        rw [offerMsg_outLen] at hb
        rw [offerMsg_read_below x s (by omega)]; exact h.buffers.out_specified b hb
      msg_le := fun _ => hlen.trans_le hx
      msg_specified := fun _ b hb => by
        rw [hlen] at hb
        rw [offerMsg_read x s hx, if_pos (by omega), Nat.add_sub_cancel_left, List.getElem?_eq_getElem hb]
        rfl } }

/-! ## Each agent -/

theorem WindowInv.action {s t : State} (h : WindowInv s) (he : ActionEffect s t) : WindowInv t := by
  cases he with
  | reset hs => exact h.of_eq rfl rfl rfl rfl (fun x hx => by cases hx) (fun hv => by cases hv)
  | msgTaken hv =>
    exact h.of_eq (by simp) (by simp) (by simp) (by simp) (fun x hx => by simpa using hx)
      (fun hv => by rw [State.enterTop_rx] at hv; cases hv)
  | errTaken hv =>
    exact h.of_eq (by simp) (by simp) (by simp) (by simp) (fun x hx => by simpa using hx)
      (fun hv => by rw [State.enterTop_rx] at hv; exact hv)
  | _ => exact h.of_eq rfl rfl rfl rfl (fun _ hx => hx) (fun hv => hv)

theorem WindowInv.host {s t : State} (h : WindowInv s) (hp : s.params.wf) (he : HostEffect s t) : WindowInv t := by
  cases he with
  | noted p rs => exact h.of_eq rfl rfl rfl rfl (fun _ hx => hx) (fun hv => hv)
  | wrote off v rest r t _ hr he =>
    have hpopped : WindowInv { s with program := rest } := h.of_eq rfl rfl rfl rfl (fun _ hx => hx) (fun hv => hv)
    cases he with
    | inWord hb a => exact hpopped.inWord hp a v
    | actions hr t hrun => exact runActions_keeps (fun _ _ h he => h.action he) hpopped hrun
    | _ => exact h.of_eq rfl rfl rfl rfl (fun _ hx => hx) (fun hv => hv)

theorem WindowInv.codec {s t : State} (h : WindowInv s) (hr : ReceiverInv s) (he : CodecEffect s t) : WindowInv t := by
  cases he with
  | waiting => exact h
  | sent c f a hc ha =>
    obtain hend | ⟨e, hend⟩ := sendComplete_cases f a s <;> rw [hend] <;>
      exact h.of_eq rfl rfl rfl rfl (fun _ hx => hx) (fun hv => hv)
  | illegal c hc ha hp => exact h.of_eq rfl rfl rfl rfl (fun _ hx => hx) (fun hv => hv)
  | command c i t hc ha hp hi he =>
    cases he with
    | out v hv =>
      exact (h.writeOut hr.sizes (hv hr.sizes hr.locked_checked)).of_eq rfl rfl rfl rfl (fun _ hx => hx) (fun hv => hv)
    | _ => exact h.of_eq rfl rfl rfl rfl (fun _ hx => hx) (fun hv => hv)

/-- A decoded message is no longer than the frame's payload (44_frame_receiver.md R345). -/
theorem ReceiverInv.decoded_fits {s : State} (h : ReceiverInv s) (hs : s.rx.state = .decoding) (hi : s.rxItem = none)
    {x : Bytes} (hx : decodeFrame s.cfg s.frame = .msg x) : x.length ≤ s.params.msgbufSize := by
  obtain ⟨-, -, -, hfs, -⟩ := cfgCheck_none (h.checked_of_running (by rw [hs]; rfl))
  obtain ⟨hlen, -⟩ := h.decoding_frame hs hi
  unfold decodeFrame at hx
  split at hx
  · rename_i y hy
    cases hx
    have hle := pipeUnwrap_length_le hy
    rw [List.length_drop, hlen, Cfg.l] at hle
    exact show x.length ≤ s.params.frameMax by omega
  · cases hx

theorem WindowInv.rx {s t : State} (h : WindowInv s) (hr : ReceiverInv s) (he : RxEffect s t) : WindowInv t := by
  cases he with
  | decoded hp hs hi =>
    have hfits : ∀ x, some (decodeFrame s.cfg s.frame) = some (RxItem.msg x) → x.length ≤ s.params.msgbufSize :=
      fun x hx => hr.decoded_fits hs hi (Option.some.inj hx)
    exact ⟨h.memory, { h.buffers with item_fits := hfits }⟩
  | offeredMsg x hp hs hi =>
    have hcleared : WindowInv s.clearItem := h.of_eq rfl rfl rfl rfl (fun x hx => by cases hx) (fun hv => hv)
    exact hcleared.offerMsg hr.sizes (h.buffers.item_fits x hi)
  | withdrawn it hp hs hi => exact h.of_eq rfl rfl rfl rfl (fun x hx => by cases hx) (fun hv => hv)
  | offeredErr it info hp hs hi => exact h.of_eq rfl rfl rfl rfl (fun x hx => by cases hx) (fun hv => hv)
  | droppedErr it hp hs hi => exact h.of_eq rfl rfl rfl rfl (fun x hx => by cases hx) (fun hv => hv)
  | canceled hp hs => exact h.of_eq rfl rfl rfl rfl (fun _ hx => hx) (fun hv => by cases hv)
  | _ => exact h.of_eq rfl rfl rfl rfl (fun _ hx => hx) (fun hv => hv)

/-- The SOURCE's answers bring no message and no offer. -/
theorem WindowInv.handleSource {s : State} (h : WindowInv s) (stage : PullStage) (a : SourceAnswer) :
    WindowInv (handleSource stage a s) := by
  have heof : WindowInv (sourceEof stage s) := by
    cases stage <;> exact h.of_eq rfl rfl rfl rfl (fun _ hx => hx) (fun hv => hv)
  cases a with
  | zero =>
    simp only [Machine.handleSource]
    cases Config.zeroReadPolicy with
    | retry => exact h
    | endOfStream => exact heof
  | eof => exact heof
  | data v => cases stage <;> exact h.of_eq rfl rfl rfl rfl (fun _ hx => hx) (fun hv => hv)
  | error => cases stage <;> exact h.of_eq rfl rfl rfl rfl (fun x hx => by cases hx) (fun hv => hv)

theorem WindowInv.source {s t : State} (h : WindowInv s) (he : SourceEffect s t) : WindowInv t := by
  cases he with
  | waiting => exact h
  | answered stage k a rest hp hk =>
    have hpulled : WindowInv (s.pulled a rest) := h.of_eq rfl rfl rfl rfl (fun _ hx => hx) (fun hv => hv)
    exact hpulled.handleSource stage a

theorem WindowInv.sink {s t : State} (h : WindowInv s) (he : SinkEffect s t) : WindowInv t := by
  cases he <;> exact h.of_eq rfl rfl rfl rfl (fun _ hx => hx) (fun hv => hv)

/-- No byte is specified and nothing is offered after reset. -/
theorem windowInv_of_reset {t : State} (hmem : t.mem = []) (hout : t.outLen = 0) (hitem : t.rxItem = none)
    (hvalid : t.rx.msgValid = false) : WindowInv t where
  memory := by rw [hmem]; exact State.reset_wf _
  buffers := {
    out_le := by rw [hout]; exact Nat.zero_le _
    out_specified := by rw [hout]; exact fun _ ha => absurd ha (Nat.not_lt_zero _)
    item_fits := by rw [hitem]; exact fun _ hx => by cases hx
    msg_le := by rw [hvalid]; exact fun hv => by cases hv
    msg_specified := by rw [hvalid]; exact fun hv => by cases hv }

/-- The receiver's invariant and the windows together are kept: an output fits because a locked configuration is a checked
one, a message because the frame has its size. -/
theorem step_keeps_windows {s t : State} (hs : ReceiverInv s ∧ WindowInv s) (h : step s = .next t) :
    ReceiverInv t ∧ WindowInv t :=
  step_keeps (P := fun s => ReceiverInv s ∧ WindowInv s)
    (fun _ hs => ⟨hs.1.begin, hs.2.of_eq rfl rfl rfl rfl (fun _ hx => hx) (fun hv => hv)⟩)
    (fun _ _ hs he => ⟨hs.1.host he, hs.2.host hs.1.sizes he⟩)
    (fun _ _ hs he => ⟨hs.1.codec he, hs.2.codec hs.1 he⟩)
    (fun _ _ hs he => ⟨hs.1.rx he, hs.2.rx hs.1 he⟩)
    (fun _ _ hs he => ⟨hs.1.source he, hs.2.source he⟩)
    (fun _ _ hs he => ⟨hs.1.sink he, hs.2.sink he⟩)
    (fun _ hs => ⟨hs.1.reset, windowInv_of_reset rfl rfl rfl rfl⟩) hs h

/-- Settles O59: each agent's turn keeps the windows, given the receiver's invariant. -/
theorem bufferInvariantKept : Obligations.BufferInvariantKept := fun _ _ hs h =>
  have ⟨_, hmemory, hbuffers⟩ := step_keeps_windows ⟨hs.receiver, hs.memory, hs.buffers⟩ h
  ⟨hmemory, hbuffers⟩

/-! ## Reset -/

/-- Settles O60: the reset state has the invariant for every lawful sizes, and the reset input gives it. -/
theorem resetState : Obligations.ResetState := by
  refine ⟨fun p hp => ⟨?_, hp, fun hl => by cases hl⟩, by decide, fun s ht => step_rst ht⟩
  have hwindows : WindowInv { State.reset with params := p } := windowInv_of_reset rfl rfl rfl rfl
  exact {
    memory := hwindows.memory
    engine := EngineInv.reset { State.reset with params := p }
    receiver := receiverInv_of_reset hp rfl rfl rfl rfl rfl rfl
    buffers := hwindows.buffers }

end Sys2Proof.Machine
end

section
/-! The host program under a step, and the configuration lock (20_memory.md R82, R100, 43_pipeline_and_control.md R296,
R298). -/

namespace Sys2Proof.Machine

/-! ## The host program -/

theorem programWf.of_subset {s t : State} (h : programWf s) (hsub : t.program ⊆ s.program) : programWf t :=
  fun stmt hm => h stmt (hsub hm)

theorem programWf.of_eq {s t : State} (h : programWf s) (he : t.program = s.program) : programWf t :=
  h.of_subset (by rw [he]; exact List.Subset.refl _)

theorem ActionEffect.program {s t : State} (he : ActionEffect s t) : t.program = s.program := by
  cases he with
  | msgTaken hv => simp
  | errTaken hv => simp
  | _ => rfl

theorem HostEffect.program_subset {s t : State} (he : HostEffect s t) : t.program ⊆ s.program := by
  cases he with
  | noted p rs hsub => exact hsub
  | wrote off v rest r t hp hr he =>
    have hrest : rest ⊆ s.program := by rw [hp]; exact List.subset_cons_self ..
    cases he with
    | actions hr t hrun =>
      have heq : t.program = rest := runActions_keeps (P := fun u => u.program = rest)
        (fun _ _ hu he => he.program.trans hu) rfl hrun
      rw [heq]
      exact hrest
    | _ => exact hrest

theorem CodecEffect.program {s t : State} (he : CodecEffect s t) : t.program = s.program := by
  cases he with
  | sent c f a hc ha => obtain hend | ⟨e, hend⟩ := sendComplete_cases f a s <;> rw [hend] <;> rfl
  | command c i t hc ha hp hi he => cases he <;> rfl
  | _ => rfl

theorem handleSource_program (stage : PullStage) (a : SourceAnswer) (s : State) :
    (handleSource stage a s).program = s.program := by
  cases a with
  | zero => simp only [handleSource]; cases Config.zeroReadPolicy <;> cases stage <;> rfl
  | _ => cases stage <;> rfl

theorem SourceEffect.program {s t : State} (he : SourceEffect s t) : t.program = s.program := by
  cases he with
  | waiting => rfl
  | answered stage k a rest hp hk => exact handleSource_program stage a _

theorem hostStep_next_of_wf {s : State} (h : programWf s) : ∃ t, hostStep s = .next t := by
  unfold hostStep
  split
  · exact ⟨s, rfl⟩
  · rename_i stmt rest hp
    exact runStmt_wf _ (h stmt (by rw [hp]; exact List.mem_cons_self ..))

theorem step_next_of_programWf {s : State} (h : programWf s) : ∃ t, step s = .next t := by
  have hbegin : programWf s.begin := h
  cases ha : s.turn with
  | host => rw [step_host ha]; exact hostStep_next_of_wf hbegin
  | codec => rw [step_codec ha]; exact codecStep_next _
  | rx => exact ⟨_, step_rx ha⟩
  | source => exact ⟨_, step_source ha⟩
  | sink => exact ⟨_, step_sink ha⟩
  | rst => exact ⟨_, step_rst ha⟩

/-- Settles O55: only the HOST's statements can fault, and no turn adds a statement. -/
theorem wellFormedProgramsNeverFault : Obligations.WellFormedProgramsNeverFault := by
  intro s hs
  obtain ⟨t, ht⟩ := step_next_of_programWf hs
  refine ⟨t, ht, ?_⟩
  exact step_keeps (P := programWf) (fun _ hs => hs.of_eq rfl) (fun _ _ hs he => hs.of_subset he.program_subset)
    (fun _ _ hs he => hs.of_eq he.program) (fun _ _ hs he => hs.of_eq (by cases he <;> rfl))
    (fun _ _ hs he => hs.of_eq he.program) (fun _ _ hs he => hs.of_eq (by cases he <;> rfl))
    (fun _ hs => hs.of_eq rfl) hs ht

/-! ## The lock -/

/-- The sizes, the configuration and the lock are as before. -/
structure SameLock (s t : State) : Prop where
  params : t.params = s.params
  cfg : t.cfg = s.cfg
  locked : t.status.cfgLocked = s.status.cfgLocked

theorem SameLock.trans {s t u : State} (h : SameLock s t) (h' : SameLock t u) : SameLock s u :=
  ⟨h'.params.trans h.params, h'.cfg.trans h.cfg, h'.locked.trans h.locked⟩

theorem ActionEffect.sameLock {s t : State} (he : ActionEffect s t) : SameLock s t := by
  cases he with
  | msgTaken hv => exact ⟨by simp, by simp, by simp⟩
  | errTaken hv => exact ⟨by simp, by simp, by simp⟩
  | _ => exact ⟨rfl, rfl, rfl⟩

/-- The HOST changes the configuration only while it is unlocked. -/
theorem HostEffect.lock {s t : State} (he : HostEffect s t) :
    SameLock s t ∨ (t.params = s.params ∧ s.status.cfgLocked = false ∧ t.status.cfgLocked = false) := by
  cases he with
  | noted p rs => exact .inl ⟨rfl, rfl, rfl⟩
  | wrote off v rest r t hp hr he =>
    cases he with
    | config hl c => exact .inr ⟨rfl, hl, hl⟩
    | actions hr t hrun =>
      exact .inl (runActions_keeps (P := SameLock s) (fun _ _ hu he => hu.trans he.sameLock)
        (⟨rfl, rfl, rfl⟩ : SameLock s { s with program := rest }) hrun)
    | _ => exact .inl ⟨rfl, rfl, rfl⟩

/-- The command engine moves the lock only by CFG.LOCK, after the check, and CFG.UNLOCK, with the receiver stopped. -/
theorem CodecEffect.lock {s t : State} (he : CodecEffect s t) :
    SameLock s t ∨ (t.params = s.params ∧ t.cfg = s.cfg
      ∧ (t.status.cfgLocked = true ∧ cfgCheck s.params s.cfg = none
        ∨ t.status.cfgLocked = false ∧ s.cmd.map decodeCmd = some (.ok .cfgUnlock)
          ∧ s.rx.state.running = false)) := by
  cases he with
  | sent c f a hc ha =>
    obtain hend | ⟨e, hend⟩ := sendComplete_cases f a s <;> rw [hend] <;> exact .inl ⟨rfl, rfl, rfl⟩
  | command c i t hc ha hp hi he =>
    cases he with
    | lock h hcheck => exact .inr ⟨rfl, rfl, .inl ⟨rfl, hcheck⟩⟩
    | unlock h hr =>
      subst h
      exact .inr ⟨rfl, rfl, .inr ⟨rfl, by rw [hc, Option.map_some, hi], hr⟩⟩
    | _ => exact .inl ⟨rfl, rfl, rfl⟩
  | _ => exact .inl ⟨rfl, rfl, rfl⟩

theorem handleSource_sameLock (stage : PullStage) (a : SourceAnswer) (s : State) : SameLock s (handleSource stage a s) := by
  cases a with
  | zero => simp only [handleSource]; cases Config.zeroReadPolicy <;> cases stage <;> exact ⟨rfl, rfl, rfl⟩
  | _ => cases stage <;> exact ⟨rfl, rfl, rfl⟩

theorem RxEffect.sameLock {s t : State} (he : RxEffect s t) : SameLock s t := by cases he <;> exact ⟨rfl, rfl, rfl⟩

theorem SourceEffect.sameLock {s t : State} (he : SourceEffect s t) : SameLock s t := by
  cases he with
  | waiting => exact ⟨rfl, rfl, rfl⟩
  | answered stage k a rest hp hk =>
    exact SameLock.trans (t := s.pulled a rest) ⟨rfl, rfl, rfl⟩ (handleSource_sameLock stage a _)

theorem SinkEffect.sameLock {s t : State} (he : SinkEffect s t) : SameLock s t := by cases he <;> exact ⟨rfl, rfl, rfl⟩

/-- A configuration passes the check exactly when its global fields and each descriptor of the chain are accepted. -/
theorem cfgCheck_eq_none_iff {p : Params} (hp : p.wf) (c : Cfg) :
    cfgCheck p c = none ↔ c.globalsAccepted p ∧ c.firstBad p = none := by
  by_cases hg : c.globalsAccepted p
  · rw [cfgCheck_of_globals_accepted hp hg, Option.map_eq_none_iff]
    exact ⟨fun h => ⟨hg, h⟩, fun h => h.2⟩
  · rw [cfgCheck_of_globals_refused hg]
    exact ⟨fun h => (by cases h), fun h => absurd h.1 hg⟩

theorem lockedAccepted_iff (s : State) : lockedAccepted s ↔
    s.params.wf ∧ (s.status.cfgLocked = true → cfgCheck s.params s.cfg = none) :=
  and_congr_right fun hp => imp_congr_right fun _ => (cfgCheck_eq_none_iff hp s.cfg).symm

theorem SameLock.accepted {s t : State} (h : SameLock s t) (hs : lockedAccepted s) : lockedAccepted t := by
  unfold lockedAccepted
  rw [h.params, h.cfg, h.locked]
  exact hs

theorem lockedAccepted_of_unlocked {s t : State} (hs : lockedAccepted s) (hp : t.params = s.params)
    (hl : t.status.cfgLocked = false) : lockedAccepted t :=
  ⟨hp ▸ hs.1, fun h => by rw [hl] at h; cases h⟩

theorem lockedAccepted.host {s t : State} (hs : lockedAccepted s) (he : HostEffect s t) : lockedAccepted t := by
  obtain hsame | ⟨hp, -, hl⟩ := he.lock
  · exact hsame.accepted hs
  · exact lockedAccepted_of_unlocked hs hp hl

theorem lockedAccepted.codec {s t : State} (hs : lockedAccepted s) (he : CodecEffect s t) : lockedAccepted t := by
  obtain hsame | ⟨hp, hcfg, ⟨-, hcheck⟩ | ⟨hl, -⟩⟩ := he.lock
  · exact hsame.accepted hs
  · rw [lockedAccepted_iff, hp, hcfg]
    exact ⟨hs.1, fun _ => hcheck⟩
  · exact lockedAccepted_of_unlocked hs hp hl

theorem step_keeps_lockedAccepted {s t : State} (hs : lockedAccepted s) (h : step s = .next t) : lockedAccepted t :=
  step_keeps (P := lockedAccepted) (fun _ hs => hs) (fun _ _ hs he => lockedAccepted.host hs he)
    (fun _ _ hs he => lockedAccepted.codec hs he) (fun _ _ hs he => he.sameLock.accepted hs)
    (fun _ _ hs he => he.sameLock.accepted hs) (fun _ _ hs he => he.sameLock.accepted hs)
    (fun _ hs => lockedAccepted_of_unlocked hs rfl rfl) hs h

theorem step_keeps_params {s t : State} (h : step s = .next t) : t.params = s.params :=
  step_keeps (P := fun u => u.params = s.params) (fun _ hu => hu)
    (fun _ _ hu he => (he.lock.elim (·.params) (·.1)).trans hu) (fun _ _ hu he => (he.lock.elim (·.params) (·.1)).trans hu)
    (fun _ _ hu he => he.sameLock.params.trans hu) (fun _ _ hu he => he.sameLock.params.trans hu)
    (fun _ _ hu he => he.sameLock.params.trans hu) (fun _ hu => hu) rfl h

/-- What a step other than a reset does to a locked configuration. -/
theorem step_of_locked {s t : State} (h : step s = .next t) (hrst : s.turn ≠ .rst) (hl : s.status.cfgLocked = true) :
    SameLock s t ∨ (t.cfg = s.cfg ∧ (t.status.cfgLocked = false →
      s.turn = .codec ∧ s.cmd.map decodeCmd = some (.ok .cfgUnlock) ∧ s.rx.state.running = false)) := by
  have hbegin : SameLock s s.begin := ⟨rfl, rfl, rfl⟩
  cases ha : s.turn with
  | rst => exact absurd ha hrst
  | host =>
    rw [step_host ha] at h
    obtain hsame | ⟨-, hunlocked, -⟩ := (hostStep_effect h).lock
    · exact .inl (hbegin.trans hsame)
    · rw [State.begin_status, hl] at hunlocked
      cases hunlocked
  | codec =>
    rw [step_codec ha] at h
    obtain hsame | ⟨-, hcfg, ⟨hlocked, -⟩ | ⟨-, hcmd, hstopped⟩⟩ := (codecStep_effect h).lock
    · exact .inl (hbegin.trans hsame)
    · exact .inr ⟨hcfg, fun hu => by rw [hlocked] at hu; cases hu⟩
    · exact .inr ⟨hcfg, fun _ => ⟨rfl, hcmd, hstopped⟩⟩
  | rx => rw [step_rx ha] at h; cases h; exact .inl (hbegin.trans (rxStep_effect _).sameLock)
  | source => rw [step_source ha] at h; cases h; exact .inl (hbegin.trans (sourceStep_effect _ _).sameLock)
  | sink => rw [step_sink ha] at h; cases h; exact .inl (hbegin.trans (sinkStep_effect _ _).sameLock)

/-- Settles O56: the HOST cannot write a locked configuration, and CODEC ends the lock by CFG.UNLOCK alone. -/
theorem lockedConfigurationKept : Obligations.LockedConfigurationKept := by
  intro s t h
  refine ⟨fun hs => step_keeps_lockedAccepted hs h, step_keeps_params h, fun hrst hl => ?_⟩
  obtain hsame | hkept := step_of_locked h hrst hl
  · exact ⟨hsame.cfg, fun hu => by rw [hsame.locked, hl] at hu; cases hu⟩
  · exact hkept

end Sys2Proof.Machine
end

section
/-! The sync marker and the seek's kept tail (10_state.md R45, 44_frame_receiver.md R334, R353). -/

namespace Sys2Proof.Machine

/-! ## The marker's bytes -/

theorem laneBytes_eq (w : Word) :
    laneBytes w = [w.extractLsb' 0 8, w.extractLsb' 8 8, w.extractLsb' 16 8, w.extractLsb' 24 8] := by
  simp only [laneBytes, le, ← Nat.shiftRight_add, List.cons.injEq, and_true]
  refine ⟨?_, ?_, ?_, ?_⟩ <;> exact BitVec.eq_of_toNat_eq (by simp [BitVec.extractLsb'_toNat])

theorem laneBytes_getElem? (w : Word) {k : Nat} (hk : k < 4) : (laneBytes w)[k]? = some (w.extractLsb' (8 * k) 8) := by
  rw [laneBytes_eq]
  interval_cases k <;> rfl

/-- Settles O43: the marker is cut from the eight lanes, so byte k is lane k of the first word or lane k - 4 of the second. -/
theorem syncMarkerBytes : Obligations.SyncMarkerBytes := by
  intro c hm
  refine ⟨by rw [sync_length]; exact Nat.min_eq_left hm, fun k hk => ?_⟩
  rw [Cfg.sync, List.getElem?_take_of_lt hk]
  split_ifs with hfirst
  · rw [List.getElem?_append_left (by simpa using hfirst), laneBytes_getElem? _ hfirst]
  · rw [List.getElem?_append_right (by simpa using hfirst), laneBytes_length, laneBytes_getElem? _ (by omega)]

/-! ## The kept tail -/

/-- A part in front at whose positions no marker stands moves the first marker by its length. -/
theorem findMarker_append_of_missing (sync a b : Bytes)
    (h : ∀ j, j < a.length → ((a ++ b).drop j).take sync.length ≠ sync) :
    findMarker sync (a ++ b) = (findMarker sync b).map (· + a.length) := by
  induction a with
  | nil => simp
  | cons x a ih =>
    have hhead : ¬ sync.isPrefixOf (x :: (a ++ b)) = true := by
      have := h 0 (by simp)
      rwa [ne_eq, ← isPrefixOf_drop_iff] at this
    rw [List.cons_append, findMarker, if_neg hhead, ih fun j hj => by simpa using h (j + 1) (by simpa using hj),
      Option.map_map]
    congr 1

/-- Settles O42: a marker at a dropped position would end within the buffer, where none stands. -/
theorem seekMissLosesNoMarker : Obligations.SeekMissLosesNoMarker := by
  intro sync b v hsync hmiss
  have hpos : 0 < sync.length := List.length_pos_iff.2 hsync
  have hsplit : b = b.take (b.length - (sync.length - 1)) ++ keepTail sync.length b := (List.take_append_drop ..).symm
  have hdropped : (b.take (b.length - (sync.length - 1))).length = b.length - (keepTail sync.length b).length := by
    rw [List.length_take, keepTail, List.length_drop]; omega
  have happ : b ++ v = b.take (b.length - (sync.length - 1)) ++ (keepTail sync.length b ++ v) := by
    rw [← List.append_assoc, ← hsplit]
  rw [happ, findMarker_append_of_missing sync _ _ fun j hj => ?_, hdropped]
  rw [List.length_take] at hj
  have hnone := (findMarker_eq_none_iff sync b).1 hmiss j (by omega)
  have hroom : sync.length ≤ (b.drop j).length := by rw [List.length_drop]; omega
  rwa [← happ, List.drop_append_of_le_length (by omega), List.take_append_of_le_length hroom]

end Sys2Proof.Machine
end

section
/-! The receiver's decode and offer steps, the answers of the SOURCE, the RX_CTRL actions and the transition table
(44_frame_receiver.md R335 to R351, R361 to R365). -/

namespace Sys2Proof.Machine

/-! ## Decoding and offering -/

theorem step_of_item {s : State} {it : RxItem} (ht : s.turn = .rx) (hp : s.pullPending = none)
    (hs : s.rx.state = .decoding) (hi : s.rxItem = some it) : step s = .next (offerStep it s.begin) := by
  rw [step_rx ht, rxStep_of_item (s := s.begin) hp hs hi]

theorem offerStep_of_cancel {s : State} (it : RxItem) (hc : s.rx.cancelPending = true) :
    offerStep it s = s.clearItem.rxEnd .canceled := if_pos hc

theorem offerStep_of_msg {s : State} (x : Bytes) (hc : s.rx.cancelPending = false) :
    offerStep (.msg x) s = offerMsg x s.clearItem := by rw [offerStep, hc]; rfl

theorem offerStep_of_err {s : State} (e : ErrCode) (st : ErrStage) (i : Nat) (hc : s.rx.cancelPending = false) :
    offerStep (.err e st i) s = offerErr e st i s.clearItem := by rw [offerStep, hc]; rfl

theorem offerErr_of_dropped {s : State} (e : ErrCode) (st : ErrStage) (i : Nat) (hq : s.cfg.errqEn = false)
    (hc : s.rx.cancelPending = false) : offerErr e st i s = s.setRxState .seeking := by
  rw [offerErr, hq, State.enterTop, hc]; rfl

theorem offerMsg_holds (x : Bytes) (s : State) (hx : x.length ≤ s.params.msgbufSize) :
    msgHolds (offerMsg x s).mem x ∧ sameOutside msgBase x.length s.mem (offerMsg x s).mem := by
  refine ⟨fun a b hab => ?_, fun a ha => ?_⟩
  · have hl := (List.getElem?_eq_some_iff.1 hab).1
    rw [offerMsg_read x s hx, if_pos (by omega), Nat.add_sub_cancel_left, hab]
  · rw [offerMsg_read x s hx, if_neg (by omega)]

/-- Settles O45: the cases of `decodeStep` and `offerStep`, in the state whose schedule has moved on. -/
theorem decodeAndOfferSteps : Obligations.DecodeAndOfferSteps := by
  refine ⟨fun e => by cases e <;> rfl, rfl, rfl, rfl, fun s ht hp hs => ⟨fun hi => ?_, fun it hi hc => ?_,
    fun x hi hc hx => ?_, fun e st i hi hc hq => ?_, fun e st i hi hc hq => ?_⟩⟩
  · rw [step_rx ht, rxStep_of_undecoded (s := s.begin) hp hs hi]
    rfl
  · rw [step_of_item ht hp hs hi, offerStep_of_cancel (s := s.begin) it hc]
    rfl
  · rw [step_of_item ht hp hs hi, offerStep_of_msg (s := s.begin) x hc]
    exact ⟨_, rfl, rfl, offerMsg_holds x s.begin.clearItem hx⟩
  · rw [step_of_item ht hp hs hi, offerStep_of_err (s := s.begin) e st i hc]
    exact congrArg Host.Outcome.next (if_pos hq)
  · rw [step_of_item ht hp hs hi, offerStep_of_err (s := s.begin) e st i hc,
      offerErr_of_dropped (s := s.begin.clearItem) e st i hq hc]
    rfl

/-! ## The SOURCE's answers -/

/-- An agent answers by its plan, and past its end by its oracle. -/
theorem nextAnswer_of {α : Type} {plan rest : List α} {oracle : Option α} {a : α}
    (h : plan = a :: rest ∨ (plan = [] ∧ rest = [] ∧ oracle = some a)) : nextAnswer plan oracle = some (a, rest) := by
  obtain rfl | ⟨rfl, rfl, rfl⟩ := h <;> rfl

/-- A lawful answer is presented as it is. -/
theorem presentSource_of_lawful {k : Nat} {a : SourceAnswer} (h : ∀ v, a = .data v → 1 ≤ v.length ∧ v.length ≤ k) :
    presentSource k a = (a, []) := by
  cases a with
  | data v =>
    obtain ⟨hpos, hle⟩ := h v rfl
    have hne : v ≠ [] := List.length_pos_iff.1 hpos
    rw [presentSource, if_neg hne, if_neg (Nat.not_lt.2 hle), List.take_of_length_le hle]
  | _ => rfl

theorem sourceStep_of_answer {o : Ports} {s : State} {stage : PullStage} {k : Nat} {a : SourceAnswer}
    {rest : List SourceAnswer} (hp : s.pullPending = some (stage, k)) (hnext : s.sourceNext o = some (a, rest))
    (hlawful : ∀ v, a = .data v → 1 ≤ v.length ∧ v.length ≤ k) :
    sourceStep o s = handleSource stage a (s.pulled a rest) := by
  simp only [sourceStep, hp, hnext, presentSource_of_lawful hlawful, List.nil_append]
  rfl

theorem sourceStep_of_silence {o : Ports} {s : State} (hnext : s.sourceNext o = none) : sourceStep o s = s := by
  rw [sourceStep, hnext]
  cases s.pullPending <;> rfl

theorem stepBy_source (o : Ports) (s : State) : stepBy o .source s = .next (sourceStep o s.begin) := rfl

/-- Settles O47: the answer is taken as it is, and handled by its stage. -/
theorem sourceAnswers : Obligations.SourceAnswers := by
  refine ⟨step_eq_stepBy, ?_⟩
  intro o s stage k a rest hp hnext hlawful u ended
  have hended : sourceEof stage u = ended := by cases stage <;> rfl
  rw [stepBy_source, sourceStep_of_answer (s := s.begin) hp (nextAnswer_of hnext) hlawful]
  change Host.Outcome.next (handleSource stage a u) = _
  cases a with
  | data v => cases stage <;> rfl
  | zero =>
    simp only [handleSource, hended]
    cases Config.zeroReadPolicy <;> rfl
  | eof => exact congrArg Host.Outcome.next hended
  | error => cases stage <;> rfl

/-- Settles O48: neither RX nor a silent SOURCE moves. -/
theorem unansweredPullWaits : Obligations.UnansweredPullWaits := by
  refine fun s hp => ⟨fun ht => ?_, fun o hplan horacle => ?_⟩
  · rw [step_rx ht, rxStep_of_pull (s := s.begin) hp]
  · have hsilent : s.begin.sourceNext o = none := by
      show nextAnswer s.sourcePlan (o.source s.pulls) = none
      rw [hplan, horacle]
      rfl
    rw [stepBy_source, sourceStep_of_silence hsilent]

/-! ## The RX_CTRL actions -/

theorem exec_rxStart_eq (s : State) : exec .rxStart s = .next
    (if s.rx.state = .idle ∧ s.status.cfgLocked = true then
      { s with rx := { s.rx with cancelPending := false, state := .seeking } }
    else { s with rx := { s.rx with ctrlRejected := true } }) := by
  simp only [exec, execRxStart]
  split <;> rfl

theorem RxState.running_eq_false_iff (st : RxState) : st.running = false ↔ st = .idle ∨ st = .canceled ∨ st = .eos := by
  cases st <;> decide

theorem exec_rxReset_eq (s : State) : exec .rxReset s = .next
    (if s.rx.state = .idle ∨ s.rx.state = .canceled ∨ s.rx.state = .eos then
      { s with
        rdbuf := [], frame := [], rxItem := none
        rx := { state := .idle, msgValid := false, errValid := false, cancelPending := false, ctrlRejected := false } }
    else { s with rx := { s.rx with ctrlRejected := true } }) := by
  simp only [exec, execRxReset, ← RxState.running_eq_false_iff]
  cases s.rx.state.running <;> rfl

theorem exec_rxMsgPop_eq (s : State) : exec .rxMsgPop s = .next
    (if s.rx.msgValid = false then s
     else if s.rx.cancelPending then
       { s with rx := { s.rx with msgValid := false, state := .canceled }, irqStatus := s.irqStatus ||| 8 }
     else { s with rx := { s.rx with msgValid := false, state := .seeking } }) := by
  simp only [exec, execRxMsgPop, State.enterTop]
  cases s.rx.msgValid <;> cases s.rx.cancelPending <;> rfl

theorem exec_rxErrPop_eq (s : State) : exec .rxErrPop s = .next
    (if s.rx.errValid = false then s
     else if s.rx.cancelPending then
       { s with rx := { s.rx with errValid := false, state := .canceled }, irqStatus := s.irqStatus ||| 8 }
     else { s with rx := { s.rx with errValid := false, state := .seeking } }) := by
  simp only [exec, execRxErrPop, State.enterTop]
  cases s.rx.errValid <;> cases s.rx.cancelPending <;> rfl

/-- Settles O37. -/
theorem rxStartResult : Obligations.RxStartResult := exec_rxStart_eq

/-- Settles O38. -/
theorem rxResetResult : Obligations.RxResetResult := exec_rxReset_eq

/-- Settles O39. -/
theorem rxCancelAndPops : Obligations.RxCancelAndPops := fun s => ⟨rfl, exec_rxMsgPop_eq s, exec_rxErrPop_eq s⟩

/-! ## The transition table -/

/-- The receiver's own turn follows the RX rows (44_frame_receiver.md R351). -/
theorem rxStep_state {s : State} (h : ReceiverInv s) : (rxStep s).rx.state = rxRow s := by
  cases hs : s.rx.state with
  | idle => rw [rxStep_of_stopped (by rw [hs]; rfl), rxRow, hs]
  | canceled => rw [rxStep_of_stopped (by rw [hs]; rfl), rxRow, hs]
  | eos => rw [rxStep_of_stopped (by rw [hs]; rfl), rxRow, hs]
  | seeking =>
    simp only [rxRow, hs]
    cases hp : s.pullPending with
    | some q => rw [rxStep_of_pull (by rw [hp]; rfl), hs]; simp
    | none =>
      rw [rxStep_of_seeking hp hs]
      obtain ⟨j, hj, he⟩ | ⟨hj, he⟩ := seekStep_cases s <;> simp [he, hj, hs]
  | reading =>
    simp only [rxRow, hs]
    cases hp : s.pullPending with
    | some q => rw [rxStep_of_pull (by rw [hp]; rfl), hs]; simp
    | none =>
      have hle := h.frame_le
      have hfull : s.frame.length = s.cfg.l ↔ s.cfg.l - s.frame.length = 0 := by omega
      rw [rxStep_of_reading hp hs]
      obtain ⟨hn, he⟩ | ⟨hn, -, he⟩ | ⟨hn, -, he⟩ := readStep_cases s <;> simp [he, hfull, hn, hs]
  | decoding =>
    have hp := h.pull_none (by rw [hs]; decide) (by rw [hs]; decide)
    simp only [rxRow, hs]
    cases hi : s.rxItem with
    | none => rw [rxStep_of_undecoded hp hs hi]; exact hs
    | some it =>
      rw [rxStep_of_item hp hs hi]
      obtain ⟨hc, he⟩ | ⟨x, hc, rfl, he⟩ | ⟨e, st, i, hc, rfl, hq, he⟩ | ⟨e, st, i, hc, rfl, hq, he⟩ :=
        offerStep_cases it s
      · cases it <;> simp [he, hc]
      · simp [he, hc]
      · simp [he, hc, hq]
      · simp [he, hc, hq]
  | delivering =>
    have hp := h.pull_none (by rw [hs]; decide) (by rw [hs]; decide)
    simp only [rxRow, hs, rxStep_of_offered hp (.inl hs)]
    split <;> simp_all [cancelOfferStep]
  | reporting =>
    have hp := h.pull_none (by rw [hs]; decide) (by rw [hs]; decide)
    simp only [rxRow, hs, rxStep_of_offered hp (.inr hs)]
    split <;> simp_all [cancelOfferStep]

/-- The SOURCE's answer follows the SRC rows. -/
theorem handleSource_state (stage : PullStage) (a : SourceAnswer) (s : State) :
    (handleSource stage a s).rx.state = srcRow a s.rx.state := by
  cases a with
  | zero => simp only [handleSource, srcRow]; cases Config.zeroReadPolicy <;> cases stage <;> rfl
  | _ => cases stage <;> rfl

theorem handleSource_portLog (stage : PullStage) (a : SourceAnswer) (s : State) :
    (handleSource stage a s).portLog = s.portLog := by
  cases a with
  | zero => simp only [handleSource]; cases Config.zeroReadPolicy <;> cases stage <;> rfl
  | _ => cases stage <;> rfl

theorem SourceEffect.row {s t : State} (h : ReceiverInv s) (he : SourceEffect s t) :
    t = s ∨ (s.rx.state = .seeking ∨ s.rx.state = .reading)
      ∧ ∃ a, t.portLog = s.portLog ++ [.pulled a] ∧ t.rx.state = srcRow a s.rx.state := by
  cases he with
  | waiting => exact .inl rfl
  | answered stage k a rest hp hk =>
    have hs := h.pull_state hp
    exact .inr ⟨by cases stage <;> simp [hs, pullState], a, handleSource_portLog .., handleSource_state ..⟩

theorem CommandEffect.rx_eq {i : Instr} {s t : State} (he : CommandEffect i s t) : t.rx = s.rx := by cases he <;> rfl

theorem CodecEffect.rx_eq {s t : State} (he : CodecEffect s t) : t.rx = s.rx := by
  cases he with
  | waiting => rfl
  | sent c f a hc ha => obtain hend | ⟨e, hend⟩ := sendComplete_cases f a s <;> rw [hend] <;> rfl
  | illegal c hc ha hp => rfl
  | command c i t hc ha hp hi he => exact he.rx_eq

theorem SinkEffect.rx_eq {s t : State} (he : SinkEffect s t) : t.rx = s.rx := by cases he <;> rfl

/-- A pop moves the STATE exactly when its slot is offered, which is in one state only. -/
theorem taken_state {s t u : State} {valid : Bool} {st : RxState} (hvalid : valid = true ↔ s.rx.state = st)
    (ht : t.rx.state = .canceled) (hu : u.rx.state = .seeking) :
    (if valid = false then s else if s.rx.cancelPending then t else u).rx.state =
      if s.rx.state ≠ st then s.rx.state else if s.rx.cancelPending then .canceled else .seeking := by
  cases valid with
  | false =>
    have hs : s.rx.state ≠ st := fun hs => by cases hvalid.2 hs
    simp [hs]
  | true =>
    have hs : s.rx.state = st := hvalid.1 rfl
    cases s.rx.cancelPending <;> simp [hs, ht, hu]

theorem scalarReg_eq_rxCtrl {off : Nat} (h : scalarReg off = some .rxCtrl) : off = 0x200 := by
  unfold scalarReg at h
  split at h <;> cases h
  rfl

/-- RX_CTRL stands at one offset only. -/
theorem regAt_eq_rxCtrl {p : Params} {off : Nat} (h : regAt p off = some .rxCtrl) : off = 0x200 := by
  unfold regAt at h
  split at h
  · cases h
  split at h
  · cases h
  split at h
  · cases h
  split at h
  · cases h
  split at h
  · cases h
  exact scalarReg_eq_rxCtrl h

/-- No statement of the HOST but a write to RX_CTRL changes RX_STATUS. -/
theorem HostEffect.rx_eq {s t : State} (he : HostEffect s t) (h : ∀ v rest, s.program ≠ .wr 0x200 4 v :: rest) :
    t.rx = s.rx := by
  cases he with
  | noted p rs => rfl
  | wrote off v rest r t hp hr he =>
    cases he with
    | actions hctrl t hrun =>
      subst hctrl
      have hoff : off = 0x200 := BitVec.eq_of_toNat_eq (regAt_eq_rxCtrl hr)
      exact absurd (hoff ▸ hp) (h v rest)
    | _ => rfl

/-- Settles O49: the RX rows, the SRC rows, the HOST rows, and the agents that leave RX_STATUS. -/
theorem rxTransitions : Obligations.RxTransitions := by
  intro s h
  refine ⟨fun ht => ⟨_, step_rx ht, rxStep_state h.begin, fun hs => ?_⟩, fun o => ⟨_, stepBy_source o s, ?_⟩,
    ⟨_, exec_rxStart_eq s, ?_⟩, ⟨_, exec_rxReset_eq s, ?_⟩, ⟨_, rfl, rfl⟩, ⟨_, exec_rxMsgPop_eq s, ?_⟩,
    ⟨_, exec_rxErrPop_eq s, ?_⟩, fun i t hf he => (exec_command hf he).rx_eq, fun t ht hstep => ?_,
    fun t ht hother hstep => ?_⟩
  · exact rxStep_of_stopped ((RxState.running_eq_false_iff _).2 hs)
  · exact (sourceStep_effect o s.begin).row h.begin
  · split <;> rfl
  · cases hs : s.rx.state <;> simp [hs]
  · exact taken_state h.msg_valid rfl rfl
  · exact taken_state h.err_valid rfl rfl
  · obtain ht | ht := ht
    · rw [step_codec ht] at hstep
      exact (codecStep_effect hstep).rx_eq
    · rw [step_sink ht] at hstep
      cases hstep
      exact (sinkStep_effect Config.ports s.begin).rx_eq
  · rw [step_host ht] at hstep
    exact (hostStep_effect hstep).rx_eq hother

end Sys2Proof.Machine

namespace Sys2Proof

open Machine in
/-- Settles O46: the withdrawal of an offer, or no move. -/
theorem cancelOfferStep : Obligations.CancelOfferStep := by
  intro s ht hp hs
  rw [step_rx ht, rxStep_of_offered (s := s.begin) hp hs]
  rfl

end Sys2Proof
end

section
/-! Issuing and evaluating a command (43_pipeline_and_control.md R290 to R298, 60_exceptions.md R392, R396). -/

namespace Sys2Proof.Machine

/-! ## A turn of CODEC -/

theorem codecStep_idle {s : State} (hc : s.cmd = none) : codecStep s = .next s := by rw [codecStep, hc]

theorem codecStep_unanswered {s : State} {c : Word} {f : Bytes} (hc : s.cmd = some c) (ha : s.sinkAnswer = none)
    (hp : s.sinkPending = some f) : codecStep s = .next s := by
  simp only [codecStep, hc, ha, hp, Option.isSome_some, if_true]

theorem codecStep_command {s : State} {c : Word} {i : Instr} (hc : s.cmd = some c) (ha : s.sinkAnswer = none)
    (hp : s.sinkPending = none) (hi : decodeCmd c = .ok i) : codecStep s = exec i s := by
  simp only [codecStep, hc, ha, hp, hi, Option.isSome_none, Bool.false_eq_true, if_false]

theorem codecStep_illegal {s : State} {c : Word} {e : Illegal} (hc : s.cmd = some c) (ha : s.sinkAnswer = none)
    (hp : s.sinkPending = none) (hi : decodeCmd c = .error e) :
    codecStep s = .next (s.completeErr ⟨.cmdInvalid, 0⟩) := by
  simp only [codecStep, hc, ha, hp, hi, Option.isSome_none, Bool.false_eq_true, if_false]

theorem codecStep_answered {s : State} {c : Word} {f : Bytes} {a : SinkAnswer} (hc : s.cmd = some c)
    (ha : s.sinkAnswer = some (f, a)) : codecStep s = .next (sendComplete f a s) := by
  simp only [codecStep, hc, ha]

/-- Settles O4: the three cases of `codecStep` before an answer. -/
theorem stepRunsCommand : Obligations.StepRunsCommand := by
  refine fun s ht => ⟨fun c i hc hp ha hi => ?_, fun hc => ?_, fun c f hc ha hp => ?_⟩
  · rw [step_codec ht, codecStep_command (s := s.begin) hc ha hp hi]
  · rw [step_codec ht, codecStep_idle (s := s.begin) hc]
  · rw [step_codec ht, codecStep_unanswered (s := s.begin) hc ha hp]

/-- Settles O6: the illegal case of `codecStep`. -/
theorem illegalWordCompletes : Obligations.IllegalWordCompletes := by
  intro s c e ht hc hp ha he
  rw [step_codec ht, codecStep_illegal (s := s.begin) hc ha hp he]
  rfl

/-! ## A turn of the HOST -/

/-- A word of one action bit performs that action. -/
theorem decodeRxctrl_encode {i : Instr} (hf : i.format = .rxctrl) : decodeRxctrl (encode i) = [i] := by
  cases i with
  | rxStart => rfl
  | rxReset => rfl
  | rxCancel => rfl
  | rxMsgPop => rfl
  | rxErrPop => rfl
  | _ => cases hf

theorem runActions_singleton (i : Instr) (s : State) : runActions [i] s = exec i s := by
  obtain ⟨t, ht⟩ := exec_next i s
  simp only [runActions, ht]

/-- Settles O5: the write runs the list of its one action. -/
theorem stepRunsAction : Obligations.StepRunsAction := by
  intro s i rest ht hf hp
  rw [step_rxCtrl_write ht hp, decodeRxctrl_encode hf, runActions_singleton]

/-- Settles O7: the write reaches CMD. -/
theorem commandIssue : Obligations.CommandIssue := by
  intro s c rest ht hp
  rw [step_write ht hp rfl, busWrite_of_reg c _ (regAt_cmd _)]
  rfl

/-! ## NOP and CFG.UNLOCK -/

/-- Settles O8. -/
theorem nopCompletes : Obligations.NopCompletes := fun _ => rfl

theorem commonChecks_cfgUnlock (s : State) : commonChecks .cfgUnlock s = none := rfl

/-- Settles O10: the body of CFG.UNLOCK asks whether the receiver runs. -/
theorem cfgUnlockResult : Obligations.CfgUnlockResult := by
  intro s
  simp only [← RxState.running_eq_false_iff]
  refine congrArg Host.Outcome.next ?_
  cases hr : s.rx.state.running with
  | false =>
    have hbody : cfgUnlockBody s = .ok (s.setLocked false) := by rw [cfgUnlockBody, hr]; rfl
    exact runCommand_of_ok (commonChecks_cfgUnlock s) hbody
  | true =>
    have hbody : cfgUnlockBody s = .error ⟨.busy, 0⟩ := by rw [cfgUnlockBody, hr]; rfl
    exact runCommand_of_error (commonChecks_cfgUnlock s) hbody

/-! ## Precise errors -/

theorem ErrCode.code_ne_zero (e : ErrCode) : e.code ≠ 0 := by cases e <;> decide

/-- Settles O36: of the effects of a command only the failed one leaves ERR set. -/
theorem errorsArePrecise : Obligations.ErrorsArePrecise := by
  intro i s t hf herr he hfailed
  cases exec_command hf he with
  | failed e => exact ⟨e.code.code, BitVec.ofNat 4 e.idx, e.code.code_ne_zero, rfl⟩
  | push hs hl f => rw [State.issuePush_status, herr] at hfailed; cases hfailed
  | _ => cases hfailed

end Sys2Proof.Machine
end

section
/-! The header commands (40_header_codecs.md R141 to R152). -/

namespace Sys2Proof.Machine

/-! ## HDR.VALIDATE -/

theorem commonChecks_validateOf (k : HeaderKind) (s : State) : commonChecks (Instr.validateOf k) s = none := by
  cases k <;> rfl

theorem commonChecks_encodeOf (k : HeaderKind) (s : State) : commonChecks (Instr.encodeOf k) s = none := by
  cases k <;> rfl

/-- HDR.DECODE reads IN, and no other check stops it. -/
theorem commonChecks_decodeOf (k : HeaderKind) (s : State) : commonChecks (Instr.decodeOf k) s =
    if s.params.datapathMax < s.inLen.toNat then some ⟨.operandInvalid, 0⟩ else none := by
  cases k <;> simp [commonChecks, Instr.decodeOf, needsLock, adapterIndex, readsIn]

/-- Settles O11: the body is `validate`, the lowest slot out of its range. -/
theorem hdrValidateResult : Obligations.HdrValidateResult := by
  intro k s
  rw [exec_validateOf, ← validate_eq]
  cases hv : validate k s.hf with
  | none =>
    have hbody : hdrValidate k s = .ok s := by rw [hdrValidate, hv]
    exact congrArg Host.Outcome.next (runCommand_of_ok (commonChecks_validateOf k s) hbody)
  | some j =>
    have hbody : hdrValidate k s = .error ⟨.headerFieldOutOfRange, j.val⟩ := by rw [hdrValidate, hv]
    exact congrArg Host.Outcome.next (runCommand_of_error (commonChecks_validateOf k s) hbody)

/-! ## HDR.ENCODE -/

theorem exec_encodeOf_of_valid {k : HeaderKind} {s : State} (hv : validate k s.hf = none) :
    exec (Instr.encodeOf k) s = .next (s.writeOut (pack k s.hf)).completeOk := by
  have hbody : hdrEncode k s = .ok (s.writeOut (pack k s.hf)) := by simp only [hdrEncode, encodeHeader, hv]
  rw [exec_encodeOf, runCommand_of_ok (commonChecks_encodeOf k s) hbody]

theorem exec_encodeOf_of_invalid {k : HeaderKind} {s : State} {j : Fin 8} (hv : validate k s.hf = some j) :
    exec (Instr.encodeOf k) s = .next (s.doneErr 0x03 (BitVec.ofNat 4 j.val)) := by
  have hbody : hdrEncode k s = .error ⟨.headerFieldOutOfRange, j.val⟩ := by simp only [hdrEncode, encodeHeader, hv]
  rw [exec_encodeOf, runCommand_of_error (commonChecks_encodeOf k s) hbody]
  rfl

/-- A header fits the datapath of any lawful sizes. -/
theorem pack_length_le {p : Params} (hp : p.wf) (k : HeaderKind) (h : Vector Half 8) :
    (pack k h).length ≤ p.datapathMax := by
  obtain ⟨-, ⟨hframe, -⟩, ⟨hroom, -⟩, -⟩ := hp
  rw [pack_length]
  cases k <;> simp only [hlen] <;> omega

/-- Settles O12: `pack` of a header in range gives the wire bytes. -/
theorem hdrEncodeResult : Obligations.HdrEncodeResult := by
  intro k s hp
  rw [← validate_eq]
  cases hv : validate k s.hf with
  | none =>
    refine ⟨_, exec_encodeOf_of_valid hv, ?_⟩
    show wroteOut s _ (wireHeader k s.hf)
    rw [← pack_eq_wire k s.hf ((validate_eq_none_iff k s.hf).1 hv)]
    exact wroteOut_completeOk s _ (pack_length_le hp k s.hf)
  | some j => exact ⟨_, exec_encodeOf_of_invalid hv, rfl⟩

/-! ## HDR.DECODE -/

theorem State.input_eq_bytesOf (s : State) : s.input = bytesOf s.inByte s.inLen.toNat := rfl

theorem decodeHeader_of_length_ne {k : HeaderKind} {v : Bytes} (h : v.length ≠ hlen k) :
    decodeHeader k v = .error .headerDecodeError := if_pos h

/-- The bytes b 0, b 1, ... of a header, 0 past its end. -/
def cut (n : Nat) (b : Nat → Byte) (i : Nat) : Byte := if i < n then b i else 0

theorem bytesOf_getD (b : Nat → Byte) (n : Nat) : (fun i => (bytesOf b n).getD i 0) = cut n b := by
  funext i
  by_cases h : i < n <;> simp [bytesOf, cut, h]

/-- The fields and the reserved bits rest on the header's own bytes. -/
theorem wire_cut (k : HeaderKind) (b : Nat → Byte) :
    wireFields k (cut (wireLength k) b) = wireFields k b ∧ wireReserved k (cut (wireLength k) b) = wireReserved k b := by
  cases k <;> exact ⟨rfl, rfl⟩

/-- decode_k of as many bytes as the header has. -/
theorem decodeHeader_bytesOf (k : HeaderKind) (b : Nat → Byte) :
    decodeHeader k (bytesOf b (wireLength k)) =
      if Config.decodeCheck k = true ∧ decodeRefuses k b then .error .headerDecodeError else .ok (wireFields k b) := by
  have hlength : (bytesOf b (wireLength k)).length = hlen k := by simp [bytesOf, hlen_eq_wireLength]
  have htake := decodeHeader_take k hlength.ge
  obtain ⟨hfields, hreserved⟩ := wire_cut k b
  rw [← hlength, List.take_length, bytesOf_getD] at htake
  rw [htake]
  simp only [decodeRefuses, hfields, hreserved]

theorem hdrDecode_eq (k : HeaderKind) (s : State) :
    hdrDecode k s =
      if s.inLen.toNat ≠ wireLength k then .error ⟨.headerDecodeError, 0⟩
      else if Config.decodeCheck k = true ∧ decodeRefuses k s.inByte then .error ⟨.headerDecodeError, 0⟩
      else .ok (s.writeHf (wireFields k s.inByte)) := by
  unfold hdrDecode
  by_cases hl : s.inLen.toNat = wireLength k
  · rw [State.input_eq_bytesOf, hl, decodeHeader_bytesOf, if_neg (not_not.2 rfl)]
    by_cases hbad : Config.decodeCheck k = true ∧ decodeRefuses k s.inByte
    · rw [if_pos hbad, if_pos hbad]
    · rw [if_neg hbad, if_neg hbad]
  · rw [decodeHeader_of_length_ne (by rwa [State.input_length, hlen_eq_wireLength]), if_pos hl]

/-- Settles O13: the length check, then the checks of `decodeHeader` on the input's bytes. -/
theorem hdrDecodeResult : Obligations.HdrDecodeResult := by
  intro k s
  rw [exec_decodeOf]
  refine congrArg Host.Outcome.next ?_
  have hchecks := commonChecks_decodeOf k s
  by_cases hlong : s.params.datapathMax < s.inLen.toNat
  · rw [if_pos hlong] at hchecks ⊢
    exact runCommand_of_check hchecks
  rw [if_neg hlong] at hchecks ⊢
  have hbody := hdrDecode_eq k s
  by_cases hlength : s.inLen.toNat ≠ wireLength k
  · rw [if_pos hlength] at hbody ⊢
    exact runCommand_of_error hchecks hbody
  rw [if_neg hlength] at hbody ⊢
  by_cases hbad : Config.decodeCheck k = true ∧ decodeRefuses k s.inByte
  · rw [if_pos hbad] at hbody ⊢
    exact runCommand_of_error hchecks hbody
  · rw [if_neg hbad] at hbody ⊢
    exact runCommand_of_ok hchecks hbody

end Sys2Proof.Machine
end

section
/-! The header round trip (40_header_codecs.md R144): unpack after pack, and the two commands one after the other. -/

namespace Sys2Proof.Machine

/-! ## Unpack after pack -/

theorem or_eq_add {a b i : Nat} (h : b < 2 ^ i) : a <<< i ||| b = a * 2 ^ i + b := by
  rw [← Nat.shiftLeft_add_eq_or_of_lt h, Nat.shiftLeft_eq]

theorem fromLe_le (n x : Nat) : fromLe (le n x) = x % 256 ^ n := by
  induction n generalizing x with
  | zero => simp [le, fromLe, Nat.mod_one]
  | succ n ih =>
    rw [le, fromLe, ih, BitVec.toNat_ofNat, Nat.shiftRight_eq_div_pow, pow_succ' 256 n, Nat.mod_mul]

/-- The fields of a header in its slot order: those its kind uses. -/
def usedFields (k : HeaderKind) (h : Vector Half 8) : List Nat := (ranges k).map fun r => fld h r.1

theorem fld_lt (h : Vector Half 8) (j : Fin 8) : fld h j < 65536 := h[j].isLt

theorem fld_le {k : HeaderKind} {h : Vector Half 8} (hv : validate k h = none) {j : Fin 8} {hi : Nat}
    (hj : (slotMaxima k)[j.val]? = some hi) : fld h j ≤ hi :=
  headerInRange_slot ((validate_eq_none_iff k h).1 hv) j hi hj

theorem unpack_pack_cspv1 {h : Vector Half 8} (hv : validate .cspv1 h = none) :
    unpack .cspv1 (pack .cspv1 h) = (header (usedFields .cspv1 h), 0) := by
  have h0 : fld h 0 ≤ 3 := fld_le hv rfl
  have h1 : fld h 1 ≤ 31 := fld_le hv rfl
  have h2 : fld h 2 ≤ 31 := fld_le hv rfl
  have h3 : fld h 3 ≤ 63 := fld_le hv rfl
  have h4 : fld h 4 ≤ 63 := fld_le hv rfl
  simp only [pack, unpack, usedFields, ranges, List.map_cons, List.map_nil]
  generalize fld h 0 = a, fld h 1 = b, fld h 2 = c, fld h 3 = d, fld h 4 = e at *
  have hw : a <<< 30 ||| b <<< 25 ||| c <<< 20 ||| d <<< 14 ||| e <<< 8
      = a * 2 ^ 30 + (b * 2 ^ 25 + (c * 2 ^ 20 + (d * 2 ^ 14 + e * 2 ^ 8))) := by
    rw [Nat.or_assoc, Nat.or_assoc, Nat.or_assoc, Nat.shiftLeft_eq e, or_eq_add (a := d) (by omega),
      or_eq_add (a := c) (by omega), or_eq_add (a := b) (by omega), or_eq_add (a := a) (by omega)]
  rw [hw, fromBe_be, Nat.mod_eq_of_lt (by omega)]
  simp only [slice, Nat.shiftRight_eq_div_pow, Prod.mk.injEq]
  refine ⟨congrArg header ?_, by omega⟩
  simp only [List.cons.injEq, and_true]
  omega

theorem unpack_pack_cspv2 {h : Vector Half 8} (hv : validate .cspv2 h = none) :
    unpack .cspv2 (pack .cspv2 h) = (header (usedFields .cspv2 h), 0) := by
  have h0 : fld h 0 ≤ 3 := fld_le hv rfl
  have h1 : fld h 1 ≤ 16383 := fld_le hv rfl
  have h2 : fld h 2 ≤ 16383 := fld_le hv rfl
  have h3 : fld h 3 ≤ 63 := fld_le hv rfl
  have h4 : fld h 4 ≤ 63 := fld_le hv rfl
  simp only [pack, unpack, usedFields, ranges, List.map_cons, List.map_nil]
  generalize fld h 0 = a, fld h 1 = b, fld h 2 = c, fld h 3 = d, fld h 4 = e at *
  have hw : a <<< 46 ||| b <<< 32 ||| c <<< 18 ||| d <<< 12 ||| e <<< 6
      = a * 2 ^ 46 + (b * 2 ^ 32 + (c * 2 ^ 18 + (d * 2 ^ 12 + e * 2 ^ 6))) := by
    rw [Nat.or_assoc, Nat.or_assoc, Nat.or_assoc, Nat.shiftLeft_eq e, or_eq_add (a := d) (by omega),
      or_eq_add (a := c) (by omega), or_eq_add (a := b) (by omega), or_eq_add (a := a) (by omega)]
  rw [hw, fromBe_be, Nat.mod_eq_of_lt (by omega)]
  simp only [slice, Nat.shiftRight_eq_div_pow, Prod.mk.injEq]
  refine ⟨congrArg header ?_, by omega⟩
  simp only [List.cons.injEq, and_true]
  omega

theorem unpack_pack_sfhdr {h : Vector Half 8} (hv : validate .sfhdr h = none) :
    unpack .sfhdr (pack .sfhdr h) = (header (usedFields .sfhdr h), 0) := by
  have h0 : fld h 0 ≤ 0 := fld_le hv rfl
  have h1 : fld h 1 ≤ 1024 := fld_le hv rfl
  simp only [pack, unpack, usedFields, ranges, List.map_cons, List.map_nil]
  rw [or_eq_add (by omega), fromBe_be, Nat.mod_eq_of_lt (by omega)]
  simp only [slice, Nat.shiftRight_eq_div_pow, Prod.mk.injEq]
  refine ⟨congrArg header ?_, by omega⟩
  simp only [List.cons.injEq, and_true]
  omega

/-- The OpenLST kinds have whole bytes and no reserved bit. -/
theorem unpack_pack_openLst {k : HeaderKind} {h : Vector Half 8} (hk : k = .olchdr ∨ k = .olshdr ∨ k = .olsftr)
    (hv : validate k h = none) : unpack k (pack k h) = (header (usedFields k h), 0) := by
  have hlt := fld_lt h
  have h0 := hlt 0
  have h1 := hlt 1
  have h2 := hlt 2
  obtain rfl | rfl | rfl := hk
  · have h0 : fld h 0 ≤ 251 := fld_le hv rfl
    have h3 : fld h 3 ≤ 255 := fld_le hv rfl
    have h4 : fld h 4 ≤ 255 := fld_le hv rfl
    simp [pack, unpack, sub, le, fromLe, usedFields, ranges, Nat.shiftRight_eq_div_pow]
    refine congrArg header ?_
    simp only [List.cons.injEq, and_true]
    omega
  · have h0 : fld h 0 ≤ 255 := fld_le hv rfl
    have h1 : fld h 1 ≤ 255 := fld_le hv rfl
    have h3 : fld h 3 ≤ 255 := fld_le hv rfl
    have h4 : fld h 4 ≤ 255 := fld_le hv rfl
    simp [pack, unpack, sub, le, fromLe, usedFields, ranges, Nat.shiftRight_eq_div_pow]
    refine congrArg header ?_
    simp only [List.cons.injEq, and_true]
    omega
  · have h1 : fld h 1 ≤ 255 := fld_le hv rfl
    have h2 : fld h 2 ≤ 255 := fld_le hv rfl
    simp [pack, unpack, sub, le, fromLe, usedFields, ranges, Nat.shiftRight_eq_div_pow]
    refine congrArg header ?_
    simp only [List.cons.injEq, and_true]
    omega

theorem unpack_pack {k : HeaderKind} {h : Vector Half 8} (hv : validate k h = none) :
    unpack k (pack k h) = (header (usedFields k h), 0) := by
  cases k with
  | cspv1 => exact unpack_pack_cspv1 hv
  | cspv2 => exact unpack_pack_cspv2 hv
  | sfhdr => exact unpack_pack_sfhdr hv
  | olchdr => exact unpack_pack_openLst (.inl rfl) hv
  | olshdr => exact unpack_pack_openLst (.inr (.inl rfl)) hv
  | olsftr => exact unpack_pack_openLst (.inr (.inr rfl)) hv

/-! ## The used slots -/

/-- The slots of a kind are 0, 1, ... in the table of maxima and in the table of ranges. -/
theorem usedFields_getElem? (k : HeaderKind) (h : Vector Half 8) (j : Fin 8) :
    (usedFields k h)[j.val]? = if (slotMaxima k)[j.val]?.isSome then some (fld h j) else none := by
  have hslots : (ranges k).map (·.1) = (List.finRange 8).take (slotMaxima k).length := by cases k <;> decide
  have hfields : usedFields k h = ((List.finRange 8).take (slotMaxima k).length).map (fld h) := by
    rw [← hslots, List.map_map]
    rfl
  rw [hfields, List.getElem?_map, List.getElem?_take]
  by_cases hj : j.val < (slotMaxima k).length <;> simp [hj]

theorem header_usedFields (k : HeaderKind) (h : Vector Half 8) (j : Fin 8) :
    (header (usedFields k h))[j] = if (slotMaxima k)[j.val]?.isSome then h[j] else 0 := by
  have hslot : (header (usedFields k h))[j] = BitVec.ofNat 16 ((usedFields k h)[j.val]?.getD 0) := by
    simp [header, List.getD_eq_getElem?_getD]
  rw [hslot, usedFields_getElem?]
  split
  · exact BitVec.ofNat_toNat 16 h[j] |>.trans (BitVec.setWidth_eq _)
  · rfl

/-- A slot's range asks for the slot only where the kind uses it. -/
theorem headerInRange_usedFields {k : HeaderKind} {h : Vector Half 8} (hr : headerInRange k h = true) :
    headerInRange k (header (usedFields k h)) = true := by
  rw [headerInRange, List.all_eq_true] at hr ⊢
  intro j hj
  have hslot := header_usedFields k h j
  specialize hr j hj
  unfold slotInRange at hr ⊢
  cases hmax : (slotMaxima k)[j.val]? with
  | none => rfl
  | some hi =>
    simp only [hmax, Option.isSome_some, if_true] at hr hslot ⊢
    rw [hslot]
    exact hr

/-- decode_k after pack_k, under either DECODE_CHECK. -/
theorem decodeHeader_pack {k : HeaderKind} {h : Vector Half 8} (hv : validate k h = none) :
    decodeHeader k (pack k h) = .ok (header (usedFields k h)) := by
  have hused : validate k (header (usedFields k h)) = none :=
    (validate_eq_none_iff _ _).2 (headerInRange_usedFields ((validate_eq_none_iff _ _).1 hv))
  simp [decodeHeader, pack_length, unpack_pack hv, hused]

/-! ## The two commands -/

/-- OUT_BUF as read after an output. -/
theorem outByte_writeOut {s : State} {v : Bytes} (hp : s.params.wf) (hv : v.length ≤ s.params.datapathMax) {a : Nat}
    (ha : a < v.length) : (s.writeOut v).completeOk.outByte a = v[a] := by
  have hlen : (s.writeOut v).completeOk.outLen.toNat = v.length := writeOut_outLen_toNat hp hv
  have hread : (s.writeOut v).completeOk.mem.read (outBase + a) = some v[a] := by
    rw [State.completeOk_mem, State.writeOut_read v s hv, if_pos (by omega), Nat.add_sub_cancel_left,
      List.getElem?_eq_getElem ha]
  rw [State.outByte, hlen, if_pos ha, hread]
  rfl

/-- An input that is the output of another command. -/
theorem input_eq_of_output {s u : State} {v : Bytes} (hp : s.params.wf) (hv : v.length ≤ s.params.datapathMax)
    (hlen : u.inLen = (s.writeOut v).completeOk.outLen)
    (hbytes : ∀ a, a < (s.writeOut v).completeOk.outLen.toNat → u.inByte a = (s.writeOut v).completeOk.outByte a) :
    u.input = v := by
  have hout : (s.writeOut v).completeOk.outLen.toNat = v.length := writeOut_outLen_toNat hp hv
  have hin : u.inLen.toNat = v.length := by rw [hlen, hout]
  apply List.ext_getElem
  · rw [State.input_length, hin]
  · intro a _ ha
    have hbyte := hbytes a (by rwa [hout])
    rw [outByte_writeOut hp hv ha] at hbyte
    simpa [State.input] using hbyte

theorem exec_decodeOf_pack {k : HeaderKind} {h : Vector Half 8} {u : State} (hp : u.params.wf)
    (hv : validate k h = none) (hin : u.input = pack k h) :
    exec (Instr.decodeOf k) u = .next { u.doneOk with hf := header (usedFields k h) } := by
  have hchecks : commonChecks (Instr.decodeOf k) u = none := by
    rw [commonChecks_decodeOf, if_neg]
    rw [Nat.not_lt, ← State.input_length, hin]
    exact pack_length_le hp k h
  have hbody : hdrDecode k u = .ok (u.writeHf (header (usedFields k h))) := by
    rw [hdrDecode, hin, decodeHeader_pack hv]
  rw [exec_decodeOf, runCommand_of_ok hchecks hbody]
  rfl

/-- Settles O14: unpack gives the packed fields, so both the codec and the commands give the header back. -/
theorem headerRoundTrip : Obligations.HeaderRoundTrip := by
  refine ⟨fun k h hv => ⟨_, decodeHeader_pack hv, header_usedFields k h⟩, fun k s t u hps hpu he herr hlen hbytes => ?_⟩
  cases hv : validate k s.hf with
  | some j =>
    rw [exec_encodeOf_of_invalid hv] at he
    cases he
    cases herr
  | none =>
    rw [exec_encodeOf_of_valid hv] at he
    cases he
    have hin := input_eq_of_output hps (pack_length_le hps k s.hf) hlen hbytes
    exact ⟨_, exec_decodeOf_pack hpu hv hin, header_usedFields k s.hf⟩

end Sys2Proof.Machine
end

section
/-! The CRC generator and the CRC commands (41_crc.md R200 to R213). -/

namespace Sys2Proof.Machine

/-! ## CC1110 as a generic CRC -/

/-- The parameters of CC1110 as a generic CRC (41_crc.md R203). -/
def cc1110Params : CrcParams 16 := { poly := 0x8005, init := 0xFFFF, refin := false, refout := false, xorout := 0 }

/-- Pending message bits d, the next one on top: a shift of the register with them is a bit-serial step beside the shift of
the bits. -/
theorem crcShift_xor (c d : BitVec 16) : crcShift 0x8005 (c ^^^ d) = cc1110Bit c d.msb ^^^ d <<< 1 := by
  have hc : c.getLsbD 15 = c.msb := (BitVec.msb_eq_getLsbD_last c).symm
  rw [crcShift, cc1110Bit, hc, BitVec.msb_xor, BitVec.shiftLeft_xor_distrib]
  cases Bool.xor c.msb d.msb
  · rfl
  · exact (BitVec.xor_assoc ..).trans ((congrArg _ (BitVec.xor_comm ..)).trans (BitVec.xor_assoc ..).symm)

/-- n shifts take in the n top bits, the highest first. -/
theorem crcShift_iterate_xor (n : Nat) (c d : BitVec 16) :
    (crcShift 0x8005)^[n] (c ^^^ d) =
      (List.range n).foldl (fun c j => cc1110Bit c (d <<< j).msb) c ^^^ d <<< n := by
  induction n generalizing c d with
  | zero => simp
  | succ n ih =>
    rw [Function.iterate_succ_apply', ih, crcShift_xor, List.range_succ, List.foldl_append, BitVec.shiftLeft_add]
    rfl

theorem cc1110Byte_eq (c : BitVec 16) (b : Byte) : cc1110Byte c b = crcByte cc1110Params c b := by
  have hbit : ∀ j, j < 8 → ((b.setWidth 16 <<< 8) <<< j).msb = b.getLsbD (7 - j) := by
    intro j hj
    interval_cases j <;> simp [BitVec.msb_eq_getLsbD_last]
  have hpast : (b.setWidth 16 <<< 8) <<< 8 = 0#16 := by
    rw [← BitVec.shiftLeft_add]
    exact BitVec.shiftLeft_eq_zero (by decide)
  have hserial : cc1110Byte c b = (List.range 8).foldl (fun c j => cc1110Bit c (b.getLsbD (7 - j))) c := rfl
  show _ = (crcShift 0x8005)^[8] (c ^^^ b.setWidth 16 <<< 8)
  rw [crcShift_iterate_xor, hpast, BitVec.xor_zero, hserial]
  exact List.foldl_ext _ _ _ fun c j hj => by rw [hbit j (List.mem_range.1 hj)]

theorem cc1110_eq_crc (v : Bytes) : cc1110 v = crc cc1110Params v := by
  have hbytes : cc1110Byte = crcByte cc1110Params := by
    funext c b
    exact cc1110Byte_eq c b
  rw [cc1110, hbytes]
  exact (BitVec.xor_zero).symm

/-- A reflected CRC of nothing is its reflected initial value with the final XOR. -/
theorem crc_nil_of_ones (p : CrcParams 32) (hout : p.refout = true) (hinit : p.init = 0xFFFFFFFF)
    (hxor : p.xorout = 0xFFFFFFFF) : crc p [] = 0 := by
  have hreflect : reflect 0xFFFFFFFF#32 = 0xFFFFFFFF#32 := by decide +kernel
  simp [crc, hout, hinit, hxor, hreflect]

/-- Settles O17: the check values by evaluation, and the two CC1110 algorithms bit by bit. -/
theorem crcVariants : Obligations.CrcVariants :=
  ⟨by decide +kernel, by decide +kernel, rfl, fun p _ hout hinit hxor => crc_nil_of_ones p hout hinit hxor, cc1110_eq_crc⟩

/-! ## The residue -/

/-- A register whose n top bits are clear is shifted n times without feedback. -/
theorem crcShift_iterate_of_clear {w : Nat} (poly : BitVec w) (n : Nat) (c : BitVec w)
    (h : ∀ i, i < n → c.getMsbD i = false) : (crcShift poly)^[n] c = c <<< n := by
  induction n with
  | zero => simp
  | succ n ih =>
    have hmsb : (c <<< n).msb = false := by
      rw [BitVec.msb_shiftLeft]
      exact h n (Nat.lt_succ_self n)
    rw [Function.iterate_succ_apply', ih fun i hi => h i (Nat.lt_succ_of_lt hi), crcShift, hmsb, BitVec.shiftLeft_add]
    rfl

/-- The byte on top of the register, fed into it, leaves the register's other bytes moved up. -/
theorem crcByte_top {w : Nat} {p : CrcParams w} (hin : p.refin = false) (c : BitVec w) (hw : 8 ≤ w) :
    crcByte p c (c.extractLsb' (w - 8) 8) = c <<< 8 := by
  have hclear : ∀ i, i < 8 → (c ^^^ (c.extractLsb' (w - 8) 8).setWidth w <<< (w - 8)).getMsbD i = false := by
    intro i hi
    have hsub : w - 1 - i - (w - 8) < 8 := by omega
    have hindex : w - 8 + (w - 1 - i - (w - 8)) = w - 1 - i := by omega
    have hlow : w - 1 - i < w ∧ ¬ w - 1 - i < w - 8 ∧ w - 1 - i - (w - 8) < w := by omega
    simp [BitVec.getMsbD_eq_getLsbD, hsub, hindex, hlow]
  rw [crcByte, hin]
  simp only [Bool.false_eq_true, if_false]
  rw [crcShift_iterate_of_clear _ _ _ hclear]
  apply BitVec.eq_of_getLsbD_eq
  intro i hi
  by_cases hlow : i < 8
  · simp [hlow]
  · have hkept : i - 8 < w - 8 := by omega
    simp [hi, hlow, hkept]

/-- Feeding the register its own k top bytes, highest first, moves it up by k bytes. -/
theorem foldl_crcByte_top {w : Nat} {p : CrcParams w} (hin : p.refin = false) (hw : 8 ≤ w) (c : BitVec w) (n : Nat) :
    ((List.range n).map fun j => (c <<< (8 * j)).extractLsb' (w - 8) 8).foldl (crcByte p) c = c <<< (8 * n) := by
  induction n with
  | zero => simp
  | succ n ih =>
    rw [List.range_succ, List.map_append, List.foldl_append, ih]
    simp only [List.map_cons, List.map_nil, List.foldl_cons, List.foldl_nil]
    rw [crcByte_top hin _ hw, ← BitVec.shiftLeft_add, Nat.mul_succ]

theorem crc_append {w : Nat} {p : CrcParams w} (hout : p.refout = false) (hxor : p.xorout = 0) (v t : Bytes) :
    crc p (v ++ t) = t.foldl (crcByte p) (crc p v) := by
  simp [crc, hout, hxor]

/-- The top byte after a move by k bits is the byte k bits lower. -/
theorem extractLsb'_top_shiftLeft {w k : Nat} (c : BitVec w) (h : k + 8 ≤ w) :
    (c <<< k).extractLsb' (w - 8) 8 = c.extractLsb' (w - 8 - k) 8 := by
  apply BitVec.eq_of_getLsbD_eq
  intro i hi
  have hin : w - 8 + i < w ∧ ¬ w - 8 + i < k := by omega
  have hindex : w - 8 + i - k = w - 8 - k + i := by omega
  simp only [BitVec.getLsbD_extractLsb', BitVec.getLsbD_shiftLeft, hi, hin, hindex, decide_true, decide_false,
    Bool.not_false, Bool.true_and]

theorem beHalf_eq_tops (c : Half) :
    beHalf c = (List.range 2).map fun j => (c <<< (8 * j)).extractLsb' (16 - 8) 8 := by
  have hcongr := List.map_congr_left fun j (hj : j ∈ List.range 2) =>
    extractLsb'_top_shiftLeft (k := 8 * j) c (by have := List.mem_range.1 hj; omega)
  rw [hcongr]
  rfl

theorem beWord_eq_tops (c : Word) :
    beWord c = (List.range 4).map fun j => (c <<< (8 * j)).extractLsb' (32 - 8) 8 := by
  have hcongr := List.map_congr_left fun j (hj : j ∈ List.range 4) =>
    extractLsb'_top_shiftLeft (k := 8 * j) c (by have := List.mem_range.1 hj; omega)
  rw [hcongr]
  rfl

/-- Settles O18: the trailer is the register's own bytes from the top, so it shifts the register out. -/
theorem crcResidueZero : Obligations.CrcResidueZero := by
  refine ⟨fun p v hin hout hxor => ?_, fun p v hin hout hxor => ?_⟩
  · rw [crc_append hout hxor, beHalf_eq_tops, foldl_crcByte_top hin (by decide)]
    exact BitVec.shiftLeft_eq_zero (by decide)
  · rw [crc_append hout hxor, beWord_eq_tops, foldl_crcByte_top hin (by decide)]
    exact BitVec.shiftLeft_eq_zero (by decide)

/-! ## The commands -/

/-- A command that names no adapter and needs no lock checks its input length only. -/
theorem commonChecks_of_input {i : Instr} {s : State} (hl : needsLock i = false) (ha : adapterIndex i = none)
    (hr : readsIn i = true) :
    commonChecks i s = if s.params.datapathMax < s.inLen.toNat then some ⟨.operandInvalid, 0⟩ else none := by
  simp [commonChecks, hl, ha, hr]

/-- Such a command with a result either fails that check or writes the result. -/
theorem runCommand_result_of_input {i : Instr} {s : State} (f : State → Word) (hl : needsLock i = false)
    (ha : adapterIndex i = none) (hr : readsIn i = true) :
    runCommand i (fun s => .ok (s.writeResult (f s))) s =
      if s.params.datapathMax < s.inLen.toNat then s.doneErr 0x21 0 else { s.doneOk with result := f s } := by
  have hchecks := commonChecks_of_input (s := s) hl ha hr
  split_ifs at hchecks ⊢
  · exact runCommand_of_check hchecks
  · exact runCommand_of_ok (t := s.writeResult (f s)) hchecks rfl

/-- Reserved bits above a field are 0. -/
theorem setWidth_eq_zero_append (k : Nat) {w : Nat} (x : BitVec w) : x.setWidth (k + w) = 0#k ++ x := by
  apply BitVec.eq_of_toNat_eq
  rw [BitVec.toNat_append, BitVec.toNat_setWidth_of_le (by omega)]
  simp

/-- Settles O15: the three commands check their input and write their CRC. -/
theorem crcCommandsResult : Obligations.CrcCommandsResult := by
  refine fun s => ⟨?_, ?_, ?_⟩
  · rw [← setWidth_eq_zero_append 16]
    exact congrArg Host.Outcome.next (runCommand_result_of_input (fun s => (cc1110 s.input).setWidth 32) rfl rfl rfl)
  · exact congrArg Host.Outcome.next (runCommand_result_of_input (fun s => crc c32c s.input) rfl rfl rfl)
  · exact congrArg Host.Outcome.next (runCommand_result_of_input (fun s => crc c32ieee s.input) rfl rfl rfl)

end Sys2Proof.Machine
end

section
/-! The wraps of the OpenLST adapters (42_adapters.md R260 to R262, R265 to R267). -/

namespace Sys2Proof.Machine

theorem wrap_olstClient {d : Desc} (hk : d.kind = 6) (p : Params) (v : Bytes) : wrap p d v = wrapOlc p d v := by
  rw [wrap, hk]; rfl

theorem wrap_olstSpace {d : Desc} (hk : d.kind = 7) (p : Params) (v : Bytes) : wrap p d v = wrapOls p d v := by
  rw [wrap, hk]; rfl

/-- The bytes of an OLST_CLIENT result (42_adapters.md R260 to R262). -/
def olcFrame (d : Desc) (v : Bytes) : Bytes :=
  [BitVec.ofNat 8 (6 + v.length)] ++ leHalf d.w1lo ++ leHalf d.w1hi ++ [d.w3b0, d.w3b1] ++ v

/-- The bytes of an OLST_SPACE result that its CRC covers (42_adapters.md R265, R266). -/
def olsCovered (d : Desc) (v : Bytes) : Bytes :=
  [BitVec.ofNat 8 (9 + v.length), d.w3b2] ++ leHalf d.w1hi ++ [d.w3b0, d.w3b1] ++ v ++ leHalf d.w1lo

/-- The bytes of an OLST_SPACE result (42_adapters.md R267). -/
def olsFrame (d : Desc) (v : Bytes) : Bytes := olsCovered d v ++ beHalf (cc1110 (olsCovered d v))

theorem olcFrame_length (d : Desc) (v : Bytes) : (olcFrame d v).length = v.length + 7 := by
  simp [olcFrame, leHalf]

theorem olsCovered_length (d : Desc) (v : Bytes) : (olsCovered d v).length = v.length + 8 := by
  simp [olsCovered, leHalf]

theorem olsFrame_length (d : Desc) (v : Bytes) : (olsFrame d v).length = v.length + 10 := by
  simp [olsFrame, olsCovered_length, beHalf]

/-- A slot that holds a byte or a half word holds its value. -/
theorem slot_half (x : Half) : BitVec.ofNat 16 x.toNat = x := by simp

theorem slot_byte (x : Byte) : (BitVec.ofNat 16 x.toNat).setWidth 8 = x := by
  apply BitVec.eq_of_toNat_eq
  simp

theorem slot_number (n : Nat) : (BitVec.ofNat 16 n).setWidth 8 = BitVec.ofNat 8 n := by
  apply BitVec.eq_of_toNat_eq
  simp

theorem pack_olcHeader (d : Desc) (n : Nat) : pack .olchdr (olcHeader d n) =
    [BitVec.ofNat 8 (6 + n)] ++ leHalf d.w1lo ++ leHalf d.w1hi ++ [d.w3b0, d.w3b1] := by
  have hwire : pack .olchdr (olcHeader d n) = wireHeader .olchdr (olcHeader d n) := by
    simp [pack, wireHeader, le_two, le_one, fld]
  have hslots : wireHeader .olchdr (olcHeader d n) =
      [(BitVec.ofNat 16 (6 + n)).setWidth 8] ++ leHalf (BitVec.ofNat 16 d.w1lo.toNat)
        ++ leHalf (BitVec.ofNat 16 d.w1hi.toNat)
        ++ [(BitVec.ofNat 16 d.w3b0.toNat).setWidth 8, (BitVec.ofNat 16 d.w3b1.toNat).setWidth 8] := by
    rw [olcHeader, header_five]
    rfl
  rw [hwire, hslots, slot_number, slot_half, slot_half, slot_byte, slot_byte]

theorem pack_olsHeader (d : Desc) (n : Nat) : pack .olshdr (olsHeader d n) =
    [BitVec.ofNat 8 (9 + n), d.w3b2] ++ leHalf d.w1hi ++ [d.w3b0, d.w3b1] := by
  have hwire : pack .olshdr (olsHeader d n) = wireHeader .olshdr (olsHeader d n) := by
    simp [pack, wireHeader, le_two, le_one, fld]
  have hslots : wireHeader .olshdr (olsHeader d n) =
      [(BitVec.ofNat 16 (9 + n)).setWidth 8, (BitVec.ofNat 16 d.w3b2.toNat).setWidth 8]
        ++ leHalf (BitVec.ofNat 16 d.w1hi.toNat)
        ++ [(BitVec.ofNat 16 d.w3b0.toNat).setWidth 8, (BitVec.ofNat 16 d.w3b1.toNat).setWidth 8] := by
    rw [olsHeader, header_five]
    rfl
  rw [hwire, hslots, slot_number, slot_half, slot_byte, slot_byte, slot_byte]

theorem wrapOlc_eq (p : Params) (d : Desc) (v : Bytes) :
    wrapOlc p d v = if 245 < v.length then .error .payloadTooLarge else withinDatapath p (olcFrame d v) := by
  have hsize : 251 < 6 + v.length ↔ 245 < v.length := by omega
  simp only [wrapOlc, pack_olcHeader, hsize]
  rfl

theorem wrapOls_eq (p : Params) (d : Desc) (v : Bytes) :
    wrapOls p d v = if 246 < v.length then .error .payloadTooLarge else withinDatapath p (olsFrame d v) := by
  have hsize : 255 < 9 + v.length ↔ 246 < v.length := by omega
  simp only [wrapOls, spcrc, pack_olsHeader, hsize, le_two, be_two_toNat, BitVec.ofNat_toNat, BitVec.setWidth_eq,
    List.append_assoc]
  simp only [olsFrame, olsCovered, List.append_assoc]

theorem withinDatapath_of_le {p : Params} {r : Bytes} (h : r.length ≤ p.datapathMax) : withinDatapath p r = .ok r :=
  if_neg (Nat.not_lt.2 h)

/-- The capacity check after the size check of an OpenLST kind, whose frame never passes 256 bytes (assumption 24). -/
theorem withinDatapath_of_sized {p : Params} {v r : Bytes} {n : Nat} (hr : v.length ≤ n → r.length ≤ 256)
    (hp : 256 ≤ p.datapathMax) :
    (if n < v.length then .error .payloadTooLarge else withinDatapath p r) =
      if n < v.length then .error .payloadTooLarge else .ok r :=
  if_ctx_congr Iff.rfl (fun _ => rfl) fun h => withinDatapath_of_le ((hr (Nat.not_lt.1 h)).trans hp)

/-- Settles O28: the frames byte by byte, and the capacity check that ends both wraps. -/
theorem openLstWrap : Obligations.OpenLstWrap := by
  intro p d v hwid seq
  have hclient : v.length ≤ 245 → (olcFrame d v).length ≤ 256 := by rw [olcFrame_length]; omega
  have hspace : v.length ≤ 246 → (olsFrame d v).length ≤ 256 := by rw [olsFrame_length]; omega
  refine ⟨fun hp hk => ?_, fun hp hk => ?_, fun hk => ?_⟩
  · rw [wrap_olstClient hk, wrapOlc_eq, withinDatapath_of_sized hclient hp]
    rfl
  · intro covered
    rw [wrap_olstSpace hk, wrapOls_eq, withinDatapath_of_sized hspace hp]
    rfl
  · obtain hk | hk := hk
    · rw [wrap_olstClient hk, wrap_olstClient hk, wrapOlc_eq, wrapOlc_eq,
        withinDatapath_of_sized (p := { p with datapathMax := 256 }) hclient (Nat.le_refl _)]
      split <;> rfl
    · rw [wrap_olstSpace hk, wrap_olstSpace hk, wrapOls_eq, wrapOls_eq,
        withinDatapath_of_sized (p := { p with datapathMax := 256 }) hspace (Nat.le_refl _)]
      split <;> rfl

end Sys2Proof.Machine
end

section
/-! What the wraps accept, their size and their way back (42_adapters.md R270). -/

namespace Sys2Proof.Machine

/-- The contract of a wrap on one input (42_adapters.md R270). -/
structure WrapRow (p : Params) (d : Desc) (x : Bytes) (accepts : Prop) : Prop where
  accepts_iff : (∃ r, wrap p d x = .ok r) ↔ accepts
  size : ∀ r, wrap p d x = .ok r → r.length = wsize d x.length
  back : ∀ r, wrap p d x = .ok r → (d.kind = 1 ∨ d.kind = 2 → 1 ≤ x.length) → unwrap d r = .ok x

/-- A wrap that gives one frame meets its contract when the frame has the wrapped size and unwraps to the input. -/
theorem WrapRow.of_frame {p : Params} {d : Desc} {x frame : Bytes} {accepts : Prop}
    (hwrap : ∀ r, wrap p d x = .ok r ↔ accepts ∧ r = frame) (hsize : accepts → frame.length = wsize d x.length)
    (hback : accepts → (d.kind = 1 ∨ d.kind = 2 → 1 ≤ x.length) → unwrap d frame = .ok x) :
    WrapRow p d x accepts where
  accepts_iff := ⟨fun ⟨r, hr⟩ => ((hwrap r).1 hr).1, fun h => ⟨frame, (hwrap frame).2 ⟨h, rfl⟩⟩⟩
  size r hr := by
    obtain ⟨h, rfl⟩ := (hwrap r).1 hr
    exact hsize h
  back r hr hne := by
    obtain ⟨h, rfl⟩ := (hwrap r).1 hr
    exact hback h hne

/-- A check that passes exactly when the result is .ok. -/
theorem check_ok_iff {ε α : Type} {c : Prop} [Decidable c] {e : ε} {x : Except ε α} {r : α} :
    (if c then .error e else x) = .ok r ↔ ¬ c ∧ x = .ok r := by
  by_cases h : c <;> simp [h]

theorem withinDatapath_ok_iff {p : Params} {f r : Bytes} :
    withinDatapath p f = .ok r ↔ f.length ≤ p.datapathMax ∧ r = f := by
  rw [withinDatapath, check_ok_iff, Nat.not_lt, Except.ok.injEq, eq_comm (a := f)]

theorem eq_ok_iff {α ε : Type} {f r : α} : (.ok f : Except ε α) = .ok r ↔ r = f := by
  rw [Except.ok.injEq, eq_comm]

/-! ## The CRC kinds -/

theorem wsize_crc {d : Desc} (hk : d.kind = 1 ∨ d.kind = 2) (n : Nat) : wsize d n = n + trailerLen d := by
  obtain hk | hk := hk <;> rw [wsize, hk] <;> rfl

/-- A message and its trailer come apart again. -/
theorem unwrapCrc_wrapped {p : Params} {d : Desc} (hd : d.accepted p) (hk : d.kind = 1 ∨ d.kind = 2) {x : Bytes}
    (hx : 1 ≤ x.length) : unwrapCrc d (x ++ be (trailerLen d) (d.crcValue x).toNat) = .ok x := by
  have hlength : (x ++ be (trailerLen d) (d.crcValue x).toNat).length = x.length + trailerLen d := by
    rw [List.length_append, be_length]
  rw [unwrapCrc_eq hd hk, hlength, Nat.add_sub_cancel, List.take_left, List.drop_left, if_neg (by omega), if_pos rfl]

theorem wrapRow_crc {p : Params} {d : Desc} {x : Bytes} (hd : d.accepted p) (hk : d.kind = 1 ∨ d.kind = 2) :
    WrapRow p d x (x.length + trailerLen d ≤ p.datapathMax) := by
  refine .of_frame (frame := x ++ be (trailerLen d) (d.crcValue x).toNat) (fun r => ?_) (fun _ => ?_) fun _ hne => ?_
  · rw [wrap_crc hk, wrapCrc_eq hd hk, check_ok_iff, Nat.not_lt, eq_ok_iff]
  · rw [wsize_crc hk, List.length_append, be_length]
  · rw [unwrap_crc hk, unwrapCrc_wrapped hd hk (hne hk)]

/-! ## The SPACEFRAME kind -/

theorem wsize_spaceframe {d : Desc} (hk : d.kind = 3) (n : Nat) : wsize d n = fsize d := by rw [wsize, hk]; rfl

/-- The frame between its marker and its CRC: the header, the message and the padding (42_adapters.md R241). -/
def sfBody (d : Desc) (x : Bytes) : Bytes := pack .sfhdr (header [0, x.length]) ++ (x ++ zeros (d.pds - x.length))

/-- A SPACEFRAME frame (42_adapters.md R241). -/
def sfFrame (d : Desc) (x : Bytes) : Bytes :=
  (if d.withAsm then asm else []) ++ (sfBody d x ++ (if d.withCrc then beWord (crc c32c (sfBody d x)) else []))

theorem wrapSf_ok_iff {d : Desc} (htype : d.sfType = 0) {x r : Bytes} :
    wrapSf d x = .ok r ↔ (x.length ≤ d.pds ∧ x.length ≤ 1024) ∧ r = sfFrame d x := by
  have hbody : beHalf (BitVec.ofNat 16 x.length) ++ x ++ zeros (d.pds - x.length) = sfBody d x := by
    rw [sfBody, pack_sfhdr_length, List.append_assoc]
  simp only [wrapSf_eq htype, hbody, check_ok_iff, Nat.not_lt, eq_ok_iff, and_assoc, List.append_assoc]
  rfl

theorem sfFrame_length {d : Desc} {x : Bytes} (hx : x.length ≤ d.pds) : (sfFrame d x).length = fsize d := by
  have hbody : (sfBody d x).length = 2 + d.pds := by
    simp only [sfBody, zeros, List.length_append, pack_length, hlen, List.length_replicate]
    omega
  rw [sfFrame, fsize, List.length_append, List.length_append, hbody]
  cases d.withAsm <;> cases d.withCrc <;> simp [asm] <;> omega

theorem unwrapSfBody_wrapped {d : Desc} (htype : d.sfType = 0) {x : Bytes} (hpds : x.length ≤ d.pds)
    (hx : x.length ≤ 1024) : unwrapSfBody d (sfBody d x) = .ok x := by
  have hvalid : validate .sfhdr (header [0, x.length]) = none :=
    (validate_eq_none_iff _ _).2 ((headerInRange_sfhdr_length (by omega)).2 hx)
  have hhead : (pack .sfhdr (header [0, x.length])).length = 2 := pack_length _ _
  have htake : (sfBody d x).take 2 = pack .sfhdr (header [0, x.length]) := by rw [sfBody, ← hhead, List.take_left]
  have hdrop : (sfBody d x).drop 2 = x ++ zeros (d.pds - x.length) := by rw [sfBody, ← hhead, List.drop_left]
  have hslots := header_usedFields .sfhdr (header [0, x.length])
  have hty : fld (header (usedFields .sfhdr (header [0, x.length]))) 0 = 0 := by
    rw [fld, hslots 0, header_two]; rfl
  have hln : fld (header (usedFields .sfhdr (header [0, x.length]))) 1 = x.length := by
    have hmod : x.length % 65536 = x.length := Nat.mod_eq_of_lt (by omega)
    rw [fld, hslots 1, header_two]
    exact (BitVec.toNat_ofNat x.length 16).trans hmod
  simp only [unwrapSfBody, htake, decodeHeader_pack hvalid, hty, hln, htype, sub, hdrop, ne_eq, not_true_eq_false,
    if_false, Nat.add_sub_cancel_left, List.take_left, Nat.not_lt.2 hpds]

theorem unwrapSf_wrapped {d : Desc} (htype : d.sfType = 0) {x : Bytes} (hpds : x.length ≤ d.pds)
    (hx : x.length ≤ 1024) : unwrapSf d (sfFrame d x) = .ok x := by
  refine (unwrapSf_marker_append (sfFrame_length hpds)).trans ?_
  rw [unwrapSfCrc_append, if_neg fun h => h.2 rfl, unwrapSfBody_wrapped htype hpds hx]

theorem wrapRow_spaceframe {p : Params} {d : Desc} {x : Bytes} (hd : d.accepted p) (hk : d.kind = 3) :
    WrapRow p d x (x.length ≤ d.pds ∧ x.length ≤ 1024) := by
  have htype := sfType_of_accepted hd hk
  refine .of_frame (frame := sfFrame d x) (fun r => ?_) (fun hx => ?_) fun hx _ => ?_
  · rw [wrap_spaceframe hk, wrapSf_ok_iff htype]
  · rw [wsize_spaceframe hk, sfFrame_length hx.1]
  · rw [unwrap_spaceframe hk, unwrapSf_wrapped htype hx.1 hx.2]

/-! ## The CSP kinds -/

theorem wrapCsp_ok_iff {p : Params} {k : HeaderKind} {hdr : Vector Half 8} {maxData : Nat} {x r : Bytes} :
    wrapCsp p k hdr maxData x = .ok r ↔
      (x.length ≤ maxData ∧ headerInRange k hdr = true ∧ hlen k + x.length ≤ p.datapathMax)
        ∧ r = pack k hdr ++ x := by
  simp only [wrapCsp, check_ok_iff, withinDatapath_ok_iff, validate_isSome_iff, not_not, Nat.not_lt, List.length_append,
    pack_length, and_assoc]

/-- A header and a message come apart again. -/
theorem unwrapCsp_wrapped {k : HeaderKind} {hdr : Vector Half 8} {maxData : Nat} {x : Bytes}
    (hr : headerInRange k hdr = true) (hx : x.length ≤ maxData) :
    unwrapCsp k maxData (pack k hdr ++ x) = .ok x := by
  have hhead : (pack k hdr).length = hlen k := pack_length k hdr
  have hlength : (pack k hdr ++ x).length = hlen k + x.length := by rw [List.length_append, hhead]
  have htake : (pack k hdr ++ x).take (hlen k) = pack k hdr := by rw [← hhead, List.take_left]
  have hdrop : (pack k hdr ++ x).drop (hlen k) = x := by rw [← hhead, List.drop_left]
  rw [unwrapCsp, hlength, htake, hdrop, decodeHeader_pack ((validate_eq_none_iff k hdr).2 hr), if_neg (by omega),
    if_neg (by omega)]

theorem wrapRow_cspv1 {p : Params} {d : Desc} {x : Bytes} (hk : d.kind = 4) :
    WrapRow p d x (x.length ≤ d.maxData ∧ headerInRange .cspv1 (cspv1Header d) = true
      ∧ 4 + x.length ≤ p.datapathMax) := by
  refine .of_frame (frame := pack .cspv1 (cspv1Header d) ++ x) (fun r => ?_) (fun _ => ?_) fun hx _ => ?_
  · rw [wrap_cspv1 hk, wrapCsp_ok_iff]; rfl
  · rw [List.length_append, pack_length, wsize, hk]; exact Nat.add_comm 4 _
  · rw [unwrap_cspv1 hk, unwrapCsp_wrapped hx.2.1 hx.1]

theorem wrapRow_cspv2 {p : Params} {d : Desc} {x : Bytes} (hk : d.kind = 5) :
    WrapRow p d x (x.length ≤ d.maxData ∧ headerInRange .cspv2 (cspv2Header d) = true
      ∧ 6 + x.length ≤ p.datapathMax) := by
  refine .of_frame (frame := pack .cspv2 (cspv2Header d) ++ x) (fun r => ?_) (fun _ => ?_) fun hx _ => ?_
  · rw [wrap_cspv2 hk, wrapCsp_ok_iff]; rfl
  · rw [List.length_append, pack_length, wsize, hk]; exact Nat.add_comm 6 _
  · rw [unwrap_cspv2 hk, unwrapCsp_wrapped hx.2.1 hx.1]

/-! ## The OpenLST kinds -/

theorem headerInRange_olcHeader (d : Desc) {n : Nat} (hn : n ≤ 245) :
    headerInRange .olchdr (olcHeader d n) = true := by
  have h3 := d.w3b0.isLt
  have h4 := d.w3b1.isLt
  rw [headerInRange_olchdr, olcHeader, header_five]
  simp
  omega

theorem olcFrame_eq_pack (d : Desc) (x : Bytes) : olcFrame d x = pack .olchdr (olcHeader d x.length) ++ x := by
  rw [pack_olcHeader]
  rfl

theorem unwrapOlc_wrapped (d : Desc) {x : Bytes} (hx : x.length ≤ 245) : unwrapOlc (olcFrame d x) = .ok x := by
  have hhead : (pack .olchdr (olcHeader d x.length)).length = 7 := pack_length _ _
  have hvalid := (validate_eq_none_iff _ _).2 (headerInRange_olcHeader d hx)
  have htake : (olcFrame d x).take 7 = pack .olchdr (olcHeader d x.length) := by
    rw [olcFrame_eq_pack, ← hhead, List.take_left]
  have hdrop : (olcFrame d x).drop 7 = x := by rw [olcFrame_eq_pack, ← hhead, List.drop_left]
  have hsize : fld (header (usedFields .olchdr (olcHeader d x.length))) 0 = 6 + x.length := by
    have hmod : (6 + x.length) % 65536 = 6 + x.length := Nat.mod_eq_of_lt (by omega)
    rw [fld, header_usedFields, olcHeader, header_five]
    exact (BitVec.toNat_ofNat (6 + x.length) 16).trans hmod
  have hbyte : 6 + x.length = x.length + 7 - 1 := by omega
  simp only [unwrapOlc, olcFrame_length, htake, decodeHeader_pack hvalid, hsize, hdrop, ne_eq, hbyte, not_true_eq_false,
    if_false, if_neg (show ¬ x.length + 7 < 7 by omega)]

theorem wrapRow_olstClient {p : Params} {d : Desc} {x : Bytes} (hk : d.kind = 6) :
    WrapRow p d x (x.length ≤ 245 ∧ x.length + 7 ≤ p.datapathMax) := by
  refine .of_frame (frame := olcFrame d x) (fun r => ?_) (fun _ => ?_) fun hx _ => ?_
  · rw [wrap_olstClient hk, wrapOlc_eq, check_ok_iff, withinDatapath_ok_iff, olcFrame_length, Nat.not_lt, and_assoc]
  · rw [olcFrame_length, wsize, hk]; rfl
  · rw [unwrap_olstClient hk, unwrapOlc_wrapped d hx.1]

theorem unwrapOls_wrapped (d : Desc) {x : Bytes} (hx : x.length ≤ 246) : unwrapOls (olsFrame d x) = .ok x := by
  have hcovered := olsCovered_length d x
  have hcut : (olsFrame d x).length - 2 = (olsCovered d x).length := by rw [olsFrame_length, hcovered]; omega
  have htake : (olsFrame d x).take ((olsFrame d x).length - 2) = olsCovered d x := by
    rw [hcut, olsFrame, List.take_left]
  have hdrop : (olsFrame d x).drop ((olsFrame d x).length - 2) = beHalf (cc1110 (olsCovered d x)) := by
    rw [hcut, olsFrame, List.drop_left]
  have hsize : ((olsFrame d x).getD 0 0).toNat = (olsFrame d x).length - 1 := by
    have hmod : (9 + x.length) % 256 = 9 + x.length := Nat.mod_eq_of_lt (by omega)
    rw [olsFrame_length]
    refine (BitVec.toNat_ofNat (9 + x.length) 8).trans (hmod.trans ?_)
    omega
  have hdata : ((olsFrame d x).drop 6).take ((olsFrame d x).length - 10) = x := by
    have hrest : (olsFrame d x).drop 6 = x ++ (leHalf d.w1lo ++ beHalf (cc1110 (olsCovered d x))) := by
      simp [olsFrame, olsCovered, leHalf]
    rw [hrest, olsFrame_length, Nat.add_sub_cancel, List.take_left]
  rw [unwrapOls_eq, htake, hdrop, hsize, hdata, if_neg (by rw [olsFrame_length]; omega), if_neg (not_not.2 rfl),
    if_neg (not_not.2 rfl)]

theorem wrapRow_olstSpace {p : Params} {d : Desc} {x : Bytes} (hk : d.kind = 7) :
    WrapRow p d x (x.length ≤ 246 ∧ x.length + 10 ≤ p.datapathMax) := by
  refine .of_frame (frame := olsFrame d x) (fun r => ?_) (fun _ => ?_) fun hx _ => ?_
  · rw [wrap_olstSpace hk, wrapOls_eq, check_ok_iff, withinDatapath_ok_iff, olsFrame_length, Nat.not_lt, and_assoc]
  · rw [olsFrame_length, wsize, hk]; rfl
  · rw [unwrap_olstSpace hk, unwrapOls_wrapped d hx.1]

/-! ## Every accepted descriptor -/

theorem WrapRow.congr {p : Params} {d : Desc} {x : Bytes} {a b : Prop} (h : WrapRow p d x a) (hab : a ↔ b) :
    WrapRow p d x b where
  accepts_iff := h.accepts_iff.trans hab
  size := h.size
  back := h.back

theorem kind_of_accepted {p : Params} {d : Desc} (hd : d.accepted p) :
    d.kind = 1 ∨ d.kind = 2 ∨ d.kind = 3 ∨ d.kind = 4 ∨ d.kind = 5 ∨ d.kind = 6 ∨ d.kind = 7 := by
  obtain ⟨hlo, hhi, -⟩ := hd
  simp only [← BitVec.toNat_inj]
  generalize d.kind.toNat = n at *
  simp
  omega

/-- Settles O22: the contract of each kind, by the kind. -/
theorem wrapContract : Obligations.WrapContract := by
  intro p d x hp hd
  obtain ⟨-, ⟨hframe, -⟩, ⟨hroom, -⟩, -⟩ := hp
  suffices h : WrapRow p d x _ from ⟨h.accepts_iff, fun r hr => ⟨h.size r hr, h.back r hr⟩⟩
  obtain hk | hk | hk | hk | hk | hk | hk := kind_of_accepted hd
  · have ht := trailerLen_eq (.inl hk)
    rw [if_pos hk] at ht
    refine (wrapRow_crc hd (.inl hk)).congr ?_
    simp [hk, ht]
    omega
  · have ht := trailerLen_eq (.inr hk)
    rw [hk] at ht
    refine (wrapRow_crc hd (.inr hk)).congr ?_
    simp [hk, ht]
    omega
  · refine (wrapRow_spaceframe hd hk).congr ?_
    simp [hk, Desc.pds, Desc.w1lo]
  · have hroom : 4 + x.length ≤ p.datapathMax ↔ x.length ≤ p.datapathMax - 4 := by omega
    refine (wrapRow_cspv1 hk).congr ?_
    rw [headerInRange_cspv1Header, hroom]
    simp only [hk, BitVec.reduceEq, Nat.le_min, Desc.maxData, Desc.w1lo, false_implies, forall_const, true_and, and_true]
    tauto
  · have hroom : 6 + x.length ≤ p.datapathMax ↔ x.length ≤ p.datapathMax - 6 := by omega
    refine (wrapRow_cspv2 hk).congr ?_
    rw [headerInRange_cspv2Header, hroom]
    simp only [hk, BitVec.reduceEq, Nat.le_min, Desc.maxData, Desc.w1lo, false_implies, forall_const, true_and, and_true]
    tauto
  · refine (wrapRow_olstClient hk).congr ?_
    simp [hk]
    omega
  · refine (wrapRow_olstSpace hk).congr ?_
    simp [hk]
    omega

end Sys2Proof.Machine
end

section
/-! The commands of one adapter (41_crc.md R210, 42_adapters.md R280 to R282). -/

namespace Sys2Proof.Machine

/-! ## Their checks -/

/-- The checks of a command that names an adapter, in order. -/
theorem commonChecks_indexed {i : Instr} {s : State} {idx : Nat} (hl : needsLock i = true)
    (ha : adapterIndex i = some idx) :
    commonChecks i s =
      if s.status.cfgLocked = false then some ⟨.notConfigured, 0⟩
      else if s.cfg.nAdp.toNat ≤ idx then some ⟨.operandInvalid, idx⟩
      else if needsCrcKind i = true ∧ (!(s.cfg.desc idx).isCrc) = true then some ⟨.operandInvalid, idx⟩
      else if readsIn i = true ∧ s.params.datapathMax < s.inLen.toNat then some ⟨.operandInvalid, 0⟩
      else none := by
  simp only [commonChecks, hl, ha, true_and]
  rfl

theorem desc_accepted_of_locked {s : State} {idx : Nat} (hs : lockedAccepted s)
    (hlocked : ¬ s.status.cfgLocked = false) (hidx : ¬ s.cfg.nAdp.toNat ≤ idx) :
    (s.cfg.desc idx).accepted s.params := by
  obtain ⟨-, hcheck⟩ := (lockedAccepted_iff s).1 hs
  obtain ⟨-, -, -, -, -, hvalid⟩ := cfgCheck_none (hcheck (Bool.eq_true_of_not_eq_false hlocked))
  exact (Desc.valid_iff_accepted s.params _).1 (hvalid idx (Nat.not_le.1 hidx))

theorem not_isCrc_iff (d : Desc) : (!d.isCrc) = true ↔ d.kind ≠ 1 ∧ d.kind ≠ 2 := by
  have hcrc : d.isCrc = true ↔ d.kind = 1 ∨ d.kind = 2 := by
    unfold Desc.isCrc
    generalize d.kind = k
    decide +revert
  rw [Bool.not_eq_true', ← Bool.not_eq_true, hcrc, not_or]

/-! ## The commands with an output -/

/-- From s to t a command completed with the output or the error r. -/
def CompletedWith (s t : State) : Except Raised Bytes → Prop
  | .error e => t = s.doneErr e.code.code (BitVec.ofNat 4 e.idx)
  | .ok v => wroteOut s t v

/-- The same, for an error that carries the index of an adapter. -/
def CompletedAt (idx : Nat) (s t : State) : Except ErrCode Bytes → Prop
  | .error e => t = s.doneErr e.code (BitVec.ofNat 4 idx)
  | .ok v => wroteOut s t v

/-- A command that passes its checks and has an output writes it, or raises its error. -/
theorem runCommand_pipeOutput {i : Instr} {body : State → Except Raised State} {s : State} {r : Except Raised Bytes}
    (hchecks : commonChecks i s = none) (hbody : body s = pipeOutput s r)
    (hfit : ∀ v, r = .ok v → v.length ≤ s.params.datapathMax) : CompletedWith s (runCommand i body s) r := by
  cases r with
  | error e => exact runCommand_of_error hchecks hbody
  | ok v =>
    rw [runCommand_of_ok hchecks hbody]
    exact wroteOut_completeOk s v (hfit v rfl)

theorem runCommand_output {i : Instr} {body : State → Except Raised State} {s : State} {idx : Nat}
    {r : Except ErrCode Bytes} (hchecks : commonChecks i s = none) (hbody : body s = output s idx r)
    (hfit : ∀ v, r = .ok v → v.length ≤ s.params.datapathMax) : CompletedAt idx s (runCommand i body s) r := by
  cases r with
  | error e => exact runCommand_of_error hchecks hbody
  | ok v => exact runCommand_pipeOutput (r := .ok v) hchecks hbody fun _ hv => hfit _ (by cases hv; rfl)

/-- The four cases of ADP.WRAP and ADP.UNWRAP, for a result that fits the datapath whenever the checks pass. -/
theorem runCommand_adapter {i : Instr} {body : State → Except Raised State} {s : State} {idx : Nat}
    {r : Except ErrCode Bytes} (hl : needsLock i = true) (ha : adapterIndex i = some idx) (hr : readsIn i = true)
    (hc : needsCrcKind i = false) (hbody : body s = output s idx r)
    (hfit : ¬ s.status.cfgLocked = false → ¬ s.cfg.nAdp.toNat ≤ idx → s.inLen.toNat ≤ s.params.datapathMax →
      ∀ v, r = .ok v → v.length ≤ s.params.datapathMax) :
    if s.status.cfgLocked = false then runCommand i body s = s.doneErr 0x22 0
    else if s.cfg.nAdp.toNat ≤ idx then runCommand i body s = s.doneErr 0x21 (BitVec.ofNat 4 idx)
    else if s.params.datapathMax < s.inLen.toNat then runCommand i body s = s.doneErr 0x21 0
    else CompletedAt idx s (runCommand i body s) r := by
  have hchecks := commonChecks_indexed (s := s) hl ha
  simp only [hc, hr, Bool.false_eq_true, false_and, true_and, if_false] at hchecks
  split_ifs at hchecks ⊢ with hlocked hidx hlong
  · exact runCommand_of_check hchecks
  · exact runCommand_of_check hchecks
  · exact runCommand_of_check hchecks
  · exact runCommand_output hchecks hbody (hfit hlocked hidx (Nat.not_lt.1 hlong))

/-- Settles O19: an accepted descriptor wraps within the datapath. -/
theorem adpWrapResult : Obligations.AdpWrapResult := by
  intro s idx hs
  refine ⟨_, rfl, runCommand_adapter rfl rfl rfl rfl rfl fun hlocked hidx _ v hv => ?_⟩
  have hvalid := (Desc.valid_iff_accepted s.params _).2 (desc_accepted_of_locked hs hlocked hidx)
  exact wrap_length_le hs.1 hvalid hv

/-- Settles O20: an unwrap gives no more bytes than it takes. -/
theorem adpUnwrapResult : Obligations.AdpUnwrapResult := by
  intro s idx _
  refine ⟨_, rfl, runCommand_adapter rfl rfl rfl rfl rfl fun _ _ hlong v hv => ?_⟩
  exact (unwrap_length_le hv).trans ((State.input_length s).trans_le hlong)

/-! ## CRC.ADP and ADP.WSIZE -/

/-- Settles O16: the checks in order; past them the descriptor is an accepted CRC one, which has a CRC. -/
theorem crcAdpResult : Obligations.CrcAdpResult := by
  intro s idx hs
  refine congrArg Host.Outcome.next ?_
  have hchecks : commonChecks (.crcAdp idx) s = _ := commonChecks_indexed rfl rfl
  simp only [not_isCrc_iff, show needsCrcKind (.crcAdp idx) = true from rfl, show readsIn (.crcAdp idx) = true from rfl,
    true_and] at hchecks
  split_ifs at hchecks ⊢ with hlocked hidx hkind hlong
  · exact runCommand_of_check hchecks
  · exact runCommand_of_check hchecks
  · exact runCommand_of_check hchecks
  · exact runCommand_of_check hchecks
  · have hcrc : (s.cfg.desc idx).kind = 1 ∨ (s.cfg.desc idx).kind = 2 := by tauto
    have hvalue := crcAdp_of_accepted (desc_accepted_of_locked hs hlocked hidx) hcrc s.input
    have hbody : crcAdpBody idx s = .ok (s.writeResult ((s.cfg.desc idx).crcValue s.input)) := by
      rw [crcAdpBody, hvalue]
    exact runCommand_of_ok hchecks hbody

/-- The wrapped size of each kind (42_adapters.md R234, R243, R252, R256, R264, R269). -/
theorem wsize_of_accepted {p : Params} {d : Desc} (hd : d.accepted p) (n : Nat) :
    wsize d n =
      if d.kind = 1 then n + 2
      else if d.kind = 2 ∨ d.kind = 4 then n + 4
      else if d.kind = 3 then
        2 + (d.w1.extractLsb' 0 16).toNat + (if d.opts.getLsbD 2 then 4 else 0) + (if d.opts.getLsbD 3 then 4 else 0)
      else if d.kind = 5 then n + 6
      else if d.kind = 6 then n + 7
      else n + 10 := by
  obtain hk | hk | hk | hk | hk | hk | hk := kind_of_accepted hd
  · rw [wsize_crc (.inl hk), trailerLen_eq (.inl hk), if_pos hk, if_pos hk]
  · rw [wsize_crc (.inr hk), trailerLen_eq (.inr hk), hk]; rfl
  · have hsize : fsize d = 2 + d.pds + (if d.withAsm then 4 else 0) + (if d.withCrc then 4 else 0) := by
      rw [fsize]; omega
    rw [wsize_spaceframe hk, hsize, hk]; rfl
  · rw [wsize, hk]; rfl
  · rw [wsize, hk]; rfl
  · rw [wsize, hk]; rfl
  · rw [wsize, hk]; rfl

/-- Settles O21: the checks without the one of the input, and the size by the kind. -/
theorem adpWsizeResult : Obligations.AdpWsizeResult := by
  intro s idx hs d n size
  refine congrArg Host.Outcome.next ?_
  have hchecks : commonChecks (.adpWsize idx) s = _ := commonChecks_indexed rfl rfl
  simp only [show needsCrcKind (.adpWsize idx) = false from rfl, show readsIn (.adpWsize idx) = false from rfl,
    Bool.false_eq_true, false_and, if_false] at hchecks
  split_ifs at hchecks ⊢ with hlocked hidx
  · exact runCommand_of_check hchecks
  · exact runCommand_of_check hchecks
  · have hsize : wsize d n = size := wsize_of_accepted (desc_accepted_of_locked hs hlocked hidx) n
    rw [← hsize]
    exact runCommand_of_ok (t := s.writeResult (BitVec.ofNat 32 (wsize d n))) hchecks rfl

end Sys2Proof.Machine
end

section
/-! The pipeline commands and SEND (43_pipeline_and_control.md R300 to R306). -/

namespace Sys2Proof.Machine

/-! ## The commands -/

/-- The checks of a command of the whole chain, in order. -/
theorem commonChecks_unindexed {i : Instr} {s : State} (hl : needsLock i = true) (ha : adapterIndex i = none) :
    commonChecks i s =
      if s.status.cfgLocked = false then some ⟨.notConfigured, 0⟩
      else if readsIn i = true ∧ s.params.datapathMax < s.inLen.toNat then some ⟨.operandInvalid, 0⟩
      else none := by
  simp only [commonChecks, hl, ha, true_and]

theorem runCommand_pipeline {i : Instr} {body : State → Except Raised State} {s : State} {r : Except Raised Bytes}
    (hl : needsLock i = true) (ha : adapterIndex i = none) (hr : readsIn i = true) (hbody : body s = pipeOutput s r)
    (hfit : ¬ s.status.cfgLocked = false → s.inLen.toNat ≤ s.params.datapathMax →
      ∀ v, r = .ok v → v.length ≤ s.params.datapathMax) :
    if s.status.cfgLocked = false then runCommand i body s = s.doneErr 0x22 0
    else if s.params.datapathMax < s.inLen.toNat then runCommand i body s = s.doneErr 0x21 0
    else CompletedWith s (runCommand i body s) r := by
  have hchecks := commonChecks_unindexed (s := s) hl ha
  simp only [hr, true_and] at hchecks
  split_ifs at hchecks ⊢ with hlocked hlong
  · exact runCommand_of_check hchecks
  · exact runCommand_of_check hchecks
  · exact runCommand_pipeOutput hchecks hbody (hfit hlocked (Nat.not_lt.1 hlong))

/-- Settles O30: the result of a checked chain fits the datapath, wrapped or unwrapped. -/
theorem pipeCommandsResult : Obligations.PipeCommandsResult := by
  intro s hs
  obtain ⟨hp, hcheck⟩ := (lockedAccepted_iff s).1 hs
  refine ⟨⟨_, rfl, runCommand_pipeline rfl rfl rfl rfl fun hlocked hlong v hv => ?_⟩,
    ⟨_, rfl, runCommand_pipeline rfl rfl rfl rfl fun _ hlong v hv => ?_⟩⟩
  · exact pipeWrap_length_le hp (hcheck (Bool.eq_true_of_not_eq_false hlocked)) ((State.input_length s).trans_le hlong) hv
  · exact (pipeUnwrap_length_le hv).trans ((State.input_length s).trans_le hlong)

/-! ## SEND -/

/-- Settles O34: the checks, then the error of the wrap, the frame size, or the push. -/
theorem sendPushes : Obligations.SendPushes := by
  intro s
  have hchecks : commonChecks .send s = _ := commonChecks_unindexed rfl rfl
  simp only [show readsIn .send = true from rfl, true_and] at hchecks
  show execSend s = _
  unfold execSend
  rw [hchecks]
  split_ifs with hlocked hlong
  · rfl
  · rfl
  · unfold sendFrame
    cases hw : pipeWrap s.params s.cfg s.input with
    | error e => rfl
    | ok x =>
      by_cases hsize : s.cfg.frameSize.toNat < x.length
      · have hfs : s.cfg.fs < x.length := hsize
        simp only [if_pos hsize, if_pos hfs]
        rfl
      · have hfs : ¬ s.cfg.fs < x.length := hsize
        simp only [if_neg hsize, if_neg hfs]
        rfl

/-- An answer within the port contract is presented as it is. -/
theorem presentSink_of_lawful {n : Nat} {a : SinkAnswer} (h : ∀ m, a = .accepted m → m ≤ n) : presentSink n a = a := by
  cases a with
  | accepted m => exact congrArg SinkAnswer.accepted (Nat.min_eq_left (h m rfl))
  | error => rfl

theorem sinkStep_of_answer {o : Ports} {s : State} {f : Bytes} {a : SinkAnswer} {rest : List SinkAnswer}
    (hp : s.sinkPending = some f) (hnext : s.sinkNext o = some (a, rest))
    (hlawful : ∀ n, a = .accepted n → n ≤ f.length) :
    sinkStep o s = { s with
      sinkPending := none, sinkAnswer := some (f, a), sinkPlan := rest, portLog := s.portLog ++ [.pushed a] } := by
  simp only [sinkStep, hp, hnext, presentSink_of_lawful hlawful]

/-- Settles O35: the SINK answers as planned or as its oracle says, and the answer ends SEND. -/
theorem sendCompletes : Obligations.SendCompletes := by
  refine ⟨fun o s f a rest hp hnext hlawful => ?_, fun s c f a ht hc ha => ?_⟩
  · have hanswer : s.begin.sinkNext o = some (a, rest) := nextAnswer_of hnext
    exact congrArg Host.Outcome.next (sinkStep_of_answer (s := s.begin) hp hanswer hlawful)
  · rw [step_codec ht, codecStep_answered (s := s.begin) hc ha]
    cases a with
    | accepted n =>
      simp only [sendComplete]
      split <;> rfl
    | error => rfl

/-! ## The first failing stage -/

/-- A failing chain fails in one of its stages, on what the stages before it give. -/
theorem runStages_error {f : Desc → Bytes → Except ErrCode Bytes} {l : List (Nat × Desc)} {v : Bytes} {e : Raised}
    (h : runStages f l v = .error e) :
    ∃ k d x, l[k]? = some (e.idx, d) ∧ runStages f (l.take k) v = .ok x ∧ f d x = .error e.code := by
  induction l generalizing v with
  | nil => cases h
  | cons c l ih =>
    obtain ⟨i, d⟩ := c
    simp only [runStages] at h
    split at h
    · rename_i e' hf
      cases h
      exact ⟨0, d, v, rfl, rfl, hf⟩
    · rename_i y hf
      obtain ⟨k, d', x, hk, hrun, hfail⟩ := ih h
      refine ⟨k + 1, d', x, hk, ?_, hfail⟩
      simp only [List.take_succ_cons, runStages, hf, hrun]

theorem chain_length (c : Cfg) : c.chain.length = c.n := by simp [Cfg.chain]

theorem chain_getElem? {c : Cfg} {k i : Nat} {d : Desc} (h : c.chain[k]? = some (i, d)) :
    k < c.n ∧ i = k ∧ d = c.desc k := by
  obtain ⟨hk, he⟩ := List.getElem?_eq_some_iff.1 h
  rw [chain_length] at hk
  simp [Cfg.chain] at he
  obtain ⟨rfl, rfl⟩ := he
  exact ⟨hk, rfl, rfl⟩

/-- Settles O31: stage k of the chain is the one at place k, and place N - 1 - k of the reversed chain. -/
theorem firstFailingStage : Obligations.FirstFailingStage := by
  refine fun p c v e => ⟨fun h => ?_, fun h => ?_⟩
  · obtain ⟨k, d, x, hk, hrun, hfail⟩ := runStages_error h
    obtain ⟨hlt, hidx, rfl⟩ := chain_getElem? hk
    rw [hidx]
    exact ⟨hlt, x, hrun, hfail⟩
  · obtain ⟨k, d, x, hk, hrun, hfail⟩ := runStages_error h
    have hlt : k < c.chain.length := by
      have := (List.getElem?_eq_some_iff.1 hk).1
      rwa [List.length_reverse] at this
    rw [List.getElem?_reverse hlt] at hk
    obtain ⟨hidx, heq, rfl⟩ := chain_getElem? hk
    rw [chain_length] at *
    have hplace : c.n - 1 - e.idx = k := by omega
    rw [hplace, heq]
    exact ⟨hidx, x, hrun, hfail⟩

/-! ## Composition -/

/-- The size of a chain's result, when every stage gives its wrapped size. -/
theorem runStages_wrap_length {p : Params} {l : List (Nat × Desc)} {x z : Bytes} (hp : p.wf)
    (hl : ∀ c ∈ l, c.2.accepted p) (h : runStages (wrap p) l x = .ok z) :
    z.length = l.foldl (fun n c => wsize c.2 n) x.length := by
  induction l generalizing x with
  | nil => cases h; rfl
  | cons c l ih =>
    obtain ⟨i, d⟩ := c
    obtain ⟨hd, hrest⟩ := List.forall_mem_cons.1 hl
    simp only [runStages] at h
    split at h
    · cases h
    · rename_i y hy
      obtain ⟨-, hok⟩ := wrapContract p d x hp hd
      rw [List.foldl_cons, ← (hok y hy).1]
      exact ih hrest h

/-- The stages unwrapped in the opposite order give the message back, when no CRC stage was given an empty input. -/
theorem runStages_unwrap_reverse {p : Params} {l : List (Nat × Desc)} {x z : Bytes} (hp : p.wf)
    (hl : ∀ c ∈ l, c.2.accepted p) (h : runStages (wrap p) l x = .ok z)
    (hne : ∀ k c y, l[k]? = some c → c.2.kind = 1 ∨ c.2.kind = 2 → runStages (wrap p) (l.take k) x = .ok y →
      1 ≤ y.length) :
    runStages unwrap l.reverse z = .ok x := by
  induction l generalizing x with
  | nil => cases h; rfl
  | cons c l ih =>
    obtain ⟨i, d⟩ := c
    obtain ⟨hd, hrest⟩ := List.forall_mem_cons.1 hl
    simp only [runStages] at h
    split at h
    · cases h
    · rename_i y hy
      obtain ⟨-, hok⟩ := wrapContract p d x hp hd
      have hback : unwrap d y = .ok x := (hok y hy).2 fun hk => hne 0 (i, d) x rfl hk rfl
      have htail : runStages unwrap l.reverse z = .ok y := by
        refine ih hrest h fun k c w hk hkind hrun => hne (k + 1) c w hk hkind ?_
        simp only [List.take_succ_cons, runStages, hy, hrun]
      rw [List.reverse_cons, runStages_append, htail]
      simp only [runStages, hback]

theorem chain_accepted {p : Params} {c : Cfg} (hp : p.wf) (hg : c.globalsAccepted p) (hb : c.firstBad p = none)
    {q : Nat × Desc} (hq : q ∈ c.chain) : q.2.accepted p :=
  (Desc.valid_iff_accepted p q.2).1 (chain_valid ((cfgCheck_eq_none_iff hp c).2 ⟨hg, hb⟩) hq)

/-- Settles O32: every stage is an accepted descriptor, so the contract of each gives the chain's. -/
theorem pipelineComposition : Obligations.PipelineComposition := by
  refine ⟨fun p c x z hp hg hb h => ⟨?_, fun hne => ?_⟩, fun p c x n hn => ?_⟩
  · exact runStages_wrap_length hp (fun _ => chain_accepted hp hg hb) h
  · refine runStages_unwrap_reverse hp (fun _ => chain_accepted hp hg hb) h fun k q y hk hkind hrun => ?_
    obtain ⟨i, d⟩ := q
    obtain ⟨hlt, rfl, rfl⟩ := chain_getElem? hk
    exact hne i y hlt hkind hrun
  · have hchain : c.chain = [] := by rw [Cfg.chain, hn]; rfl
    simp [pipeWrap, pipeUnwrap, pipeWsize, hchain, runStages]

/-! ## PIPE.WSIZE -/

/-- A stage adds at most 10 bytes, or gives a SPACEFRAME size, which is at most 10 bytes past a half word. -/
theorem wsize_le (d : Desc) {n b : Nat} (hn : n ≤ b) (hb : 0xFFFF ≤ b) : wsize d n ≤ b + 10 := by
  have hpds : d.pds < 65536 := d.w1lo.isLt
  have hframe : fsize d ≤ 0xFFFF + 10 := by
    rw [fsize]
    split_ifs <;> omega
  have htrailer : trailerLen d ≤ 4 := by
    rw [trailerLen]
    split_ifs <;> omega
  unfold wsize
  split <;> omega

theorem foldl_wsize_le (l : List (Nat × Desc)) {n b : Nat} (hn : n ≤ b) (hb : 0xFFFF ≤ b) :
    l.foldl (fun n c => wsize c.2 n) n ≤ b + l.length * 10 := by
  induction l generalizing n b with
  | nil => exact hn
  | cons c l ih =>
    have := ih (wsize_le c.2 hn hb) (by omega)
    rw [List.foldl_cons, List.length_cons]
    omega

theorem pipeWsize_eq (c : Cfg) (n : Nat) :
    pipeWsize c n = (List.range c.nAdp.toNat).foldl (fun n i => wsize (c.desc i) n) n := by
  rw [pipeWsize, Cfg.chain, List.foldl_map]
  rfl

/-- Settles O33: the lock is the only check, and a locked chain has at most 8 stages. -/
theorem pipeWsizeResult : Obligations.PipeWsizeResult := by
  refine fun s hs => ⟨congrArg Host.Outcome.next ?_, fun hlocked => ?_⟩
  · have hchecks : commonChecks .pipeWsize s = _ := commonChecks_unindexed rfl rfl
    simp only [show readsIn .pipeWsize = false from rfl, Bool.false_eq_true, false_and, if_false] at hchecks
    rw [← pipeWsize_eq]
    split_ifs at hchecks ⊢
    · exact runCommand_of_check hchecks
    · exact runCommand_of_ok (t := s.writeResult (BitVec.ofNat 32 (pipeWsize s.cfg s.arg.toNat))) hchecks rfl
  · obtain ⟨hp, hcheck⟩ := (lockedAccepted_iff s).1 hs
    obtain ⟨-, -, -, ⟨-, hmax⟩, -⟩ := hp
    obtain ⟨-, -, -, -, hn, -⟩ := cfgCheck_none (hcheck hlocked)
    have harg : s.arg.toNat ≤ 0xFFFF := by have := s.arg.isLt; omega
    have hsize := foldl_wsize_le s.cfg.chain harg (Nat.le_refl _)
    rw [chain_length] at hsize
    exact hsize.trans (by omega)

end Sys2Proof.Machine
end

section
/-! The register map (10_state.md R32): which register an offset names. -/

namespace Sys2Proof.Machine

/-- The offsets of the single registers. -/
def scalarOffsets : List Nat :=
  [0x000, 0x004, 0x008, 0x00C, 0x010, 0x014, 0x018, 0x040, 0x044, 0x080, 0x084, 0x088, 0x08C, 0x090, 0x094, 0x200, 0x204,
    0x208, 0x20C]

theorem scalarReg_of_not_mem {off : Nat} (h : off ∉ scalarOffsets) : scalarReg off = none := by
  unfold scalarReg
  split <;> simp [scalarOffsets] at h ⊢

/-- Outside the arrays and the windows the map has only the single registers. -/
theorem regAt_outside {p : Params} {off : Nat} (hhf : ¬ (0x020 ≤ off ∧ off < 0x040))
    (hadp : ¬ (0x100 ≤ off ∧ off < 0x180)) (hin : ¬ (inBase ≤ off ∧ off < inBase + p.datapathMax))
    (hout : ¬ (outBase ≤ off ∧ off < outBase + p.datapathMax))
    (hmsg : ¬ (msgBase ≤ off ∧ off < msgBase + p.msgbufSize)) : regAt p off = scalarReg off := by
  rw [regAt, if_neg hhf, if_neg hadp, if_neg hin, if_neg hout, if_neg hmsg]

theorem regAt_scalar (p : Params) {off : Nat} {r : Reg} (h : scalarReg off = some r) : regAt p off = some r := by
  have hmem : off ∈ scalarOffsets := by
    by_contra hmem
    rw [scalarReg_of_not_mem hmem] at h
    cases h
  have hplace : ∀ o ∈ scalarOffsets, ¬ (0x020 ≤ o ∧ o < 0x040) ∧ ¬ (0x100 ≤ o ∧ o < 0x180) ∧ o < 0x1000 := by decide
  obtain ⟨hhf, hadp, hlow⟩ := hplace off hmem
  obtain ⟨h1, h2, h3⟩ := window_bases
  rw [regAt_outside hhf hadp (by omega) (by omega) (by omega), h]

theorem regAt_hf_range (p : Params) {off : Nat} (h : 0x020 ≤ off ∧ off < 0x040) : ∃ j, regAt p off = some (.hf j) :=
  ⟨_, if_pos h⟩

theorem regAt_adp_range (p : Params) {off : Nat} (h : 0x100 ≤ off ∧ off < 0x180) :
    ∃ i w, regAt p off = some (.adp i w) :=
  ⟨_, _, (if_neg (by omega)).trans (if_pos h)⟩

theorem regAt_inBuf_range {p : Params} {off : Nat} (h : 0x1000 ≤ off ∧ off < 0x1000 + p.datapathMax) :
    ∃ a, regAt p off = some (.inBuf a) := by
  obtain ⟨a, rfl⟩ : ∃ a, off = inBase + a := ⟨off - 0x1000, by simp only [inBase]; omega⟩
  exact ⟨a, regAt_inBuf p a (by simp only [inBase] at h; omega)⟩

/-! ## What a write to a register can change -/

/-- The operand registers and IN_BUF, whose writes are dropped while BUSY (10_state.md R33). -/
def Reg.operand : Reg → Prop
  | .inLen | .arg | .hf _ | .inBuf _ => True
  | _ => False

/-- The configuration registers, whose writes are dropped while locked (10_state.md R33). -/
def Reg.config : Reg → Prop
  | .syncLen | .sync0 | .sync1 | .frameSize | .nAdp | .flags | .adp _ _ => True
  | _ => False

/-- The registers and windows the host cannot write (10_state.md R33). -/
def Reg.readOnly : Reg → Prop
  | .id | .status | .outLen | .result | .rxStatus | .msgLen | .errInfo | .outBuf _ | .msgBuf _ => True
  | _ => False

theorem operandWrite_of_busy {s : State} (t : State) (h : s.status.busy = true) : operandWrite s t = s.drop := if_pos h

theorem operandWrite_of_idle {s : State} (t : State) (h : s.status.busy = false) : operandWrite s t = t :=
  if_neg (by simp [h])

theorem configWrite_of_locked {s : State} (c : Cfg) (h : s.status.cfgLocked = true) : configWrite s c = s.drop := if_pos h

theorem configWrite_of_unlocked {s : State} (c : Cfg) (h : s.status.cfgLocked = false) :
    configWrite s c = { s with cfg := c } := if_neg (by simp [h])

theorem writeReg_operand_busy {r : Reg} (hr : r.operand) (v : Word) {s : State} (h : s.status.busy = true) :
    writeReg v s r = .next s.drop := by
  have hdrop := fun t => operandWrite_of_busy t h
  cases r with
  | inLen | arg | hf | inBuf => exact congrArg Host.Outcome.next (hdrop _)
  | _ => cases hr

theorem writeReg_config_locked {r : Reg} (hr : r.config) (v : Word) {s : State} (h : s.status.cfgLocked = true) :
    writeReg v s r = .next s.drop := by
  have hdrop := fun c => configWrite_of_locked c h
  cases r with
  | syncLen | sync0 | sync1 | frameSize | nAdp | flags | adp => exact congrArg Host.Outcome.next (hdrop _)
  | _ => cases hr

theorem writeReg_readOnly {r : Reg} (hr : r.readOnly) (v : Word) (s : State) : writeReg v s r = .next s := by
  cases r with
  | id | status | outLen | result | rxStatus | msgLen | errInfo | outBuf | msgBuf => rfl
  | _ => cases hr

/-- Which offsets name an operand register. -/
theorem regAt_operand {p : Params} {off : Nat}
    (h : off = 0x00C ∨ off = 0x018 ∨ (0x020 ≤ off ∧ off < 0x040) ∨ (0x1000 ≤ off ∧ off < 0x1000 + p.datapathMax)) :
    ∃ r, regAt p off = some r ∧ r.operand := by
  obtain rfl | rfl | h | h := h
  · exact ⟨.inLen, regAt_scalar p rfl, trivial⟩
  · exact ⟨.arg, regAt_scalar p rfl, trivial⟩
  · obtain ⟨j, hj⟩ := regAt_hf_range p h
    exact ⟨_, hj, trivial⟩
  · obtain ⟨a, ha⟩ := regAt_inBuf_range h
    exact ⟨_, ha, trivial⟩

/-- Which offsets name a configuration register. -/
theorem regAt_config (p : Params) {off : Nat} (ha : off % 4 = 0)
    (h : (0x080 ≤ off ∧ off ≤ 0x094) ∨ (0x100 ≤ off ∧ off < 0x180)) : ∃ r, regAt p off = some r ∧ r.config := by
  obtain h | h := h
  · have hcases : off = 0x080 ∨ off = 0x084 ∨ off = 0x088 ∨ off = 0x08C ∨ off = 0x090 ∨ off = 0x094 := by omega
    obtain rfl | rfl | rfl | rfl | rfl | rfl := hcases
    · exact ⟨.syncLen, regAt_scalar p rfl, trivial⟩
    · exact ⟨.sync0, regAt_scalar p rfl, trivial⟩
    · exact ⟨.sync1, regAt_scalar p rfl, trivial⟩
    · exact ⟨.frameSize, regAt_scalar p rfl, trivial⟩
    · exact ⟨.nAdp, regAt_scalar p rfl, trivial⟩
    · exact ⟨.flags, regAt_scalar p rfl, trivial⟩
  · obtain ⟨i, w, hr⟩ := regAt_adp_range p h
    exact ⟨_, hr, trivial⟩

theorem scalarReg_readOnly {off : Nat} {r : Reg} (h : scalarReg off = some r) (hin : off ≠ 0x00C) (harg : off ≠ 0x018)
    (hconfig : ¬ (0x080 ≤ off ∧ off < 0x180)) (hcmd : off ≠ 0x004) (hen : off ≠ 0x040) (hst : off ≠ 0x044)
    (hctrl : off ≠ 0x200) : r.readOnly := by
  unfold scalarReg at h
  split at h <;> cases h <;> trivial

/-- What stands at the offsets past all writable registers. -/
theorem regAt_readOnly {p : Params} {off : Nat} {r : Reg} (h : regAt p off = some r)
    (hoperand : ¬ (off = 0x00C ∨ off = 0x018 ∨ (0x020 ≤ off ∧ off < 0x040)
      ∨ (0x1000 ≤ off ∧ off < 0x1000 + p.datapathMax)))
    (hconfig : ¬ (0x080 ≤ off ∧ off < 0x180)) (hcmd : off ≠ 0x004) (hen : off ≠ 0x040) (hst : off ≠ 0x044)
    (hctrl : off ≠ 0x200) : r.readOnly := by
  simp only [not_or] at hoperand
  obtain ⟨hinLen, harg, hhf, hinBuf⟩ := hoperand
  have hwindow : ¬ (inBase ≤ off ∧ off < inBase + p.datapathMax) := hinBuf
  unfold regAt at h
  rw [if_neg hhf, if_neg (by omega), if_neg hwindow] at h
  split_ifs at h
  · cases h; trivial
  · cases h; trivial
  · exact scalarReg_readOnly h hinLen harg hconfig hcmd hen hst hctrl

/-- The HOST's turn with an aligned write to a mapped offset first. -/
theorem step_write_reg {s : State} {off : BitVec 16} {v : Word} {rest : List HostStmt} {r : Reg} (h : s.turn = .host)
    (hp : s.program = .wr off 4 v :: rest) (ha : off.toNat % 4 = 0) (hr : regAt s.params off.toNat = some r) :
    step s = writeReg v { s.begin with program := rest } r :=
  (step_write h hp ha).trans (busWrite_of_reg v _ hr)

/-- Settles O50: the register at the offset is an operand or configuration register, or a read-only one, or none. -/
theorem hostWritesIgnored : Obligations.HostWritesIgnored := by
  intro s off v rest ht hprog ha o operand config
  refine ⟨fun hdropped => ?_, fun ⟨hoperand, hconfig, hcmd, hen, hst, hctrl⟩ => ?_⟩
  · obtain ⟨ho, hbusy⟩ | ⟨hc, hlocked⟩ := hdropped
    · obtain ⟨r, hr, hkind⟩ := regAt_operand ho
      exact (step_write_reg ht hprog ha hr).trans (writeReg_operand_busy hkind v hbusy)
    · obtain ⟨r, hr, hkind⟩ := regAt_config s.params ha hc
      exact (step_write_reg ht hprog ha hr).trans (writeReg_config_locked hkind v hlocked)
  · cases hr : regAt s.params off.toNat with
    | none => exact (step_write ht hprog ha).trans (busWrite_unmapped v _ hr)
    | some r =>
      have hkind := regAt_readOnly hr hoperand hconfig hcmd hen hst hctrl
      exact (step_write_reg ht hprog ha hr).trans (writeReg_readOnly hkind v _)

end Sys2Proof.Machine
end

section
/-! What the host's writes to operand and configuration registers store (10_state.md R36 to R49, R62). -/

namespace Sys2Proof.Machine

theorem ofNat_toNat_of_lt {n : Nat} (h : n < 65536) : (BitVec.ofNat 16 n).toNat = n :=
  (BitVec.toNat_ofNat n 16).trans (Nat.mod_eq_of_lt h)

theorem regAt_hf_ofNat (p : Params) (j : Fin 8) : regAt p (BitVec.ofNat 16 (0x020 + 4 * j.val)).toNat = some (.hf j) := by
  rw [ofNat_toNat_of_lt (by omega), regAt_hf]

theorem regAt_adp_ofNat (p : Params) (i : Fin 8) (w : Fin 4) {base : Nat} (hbase : base = 0x100 + 4 * w.val) :
    regAt p (BitVec.ofNat 16 (base + 16 * i.val)).toNat = some (.adp i w) := by
  have hplace : base + 16 * i.val = 0x100 + 16 * i.val + 4 * w.val := by omega
  rw [ofNat_toNat_of_lt (by omega), hplace, regAt_adp]

theorem regAt_inBuf_ofNat {p : Params} (hp : p.wf) {a : Nat} (ha : a < p.datapathMax) :
    regAt p (BitVec.ofNat 16 (0x1000 + a)).toNat = some (.inBuf a) := by
  obtain ⟨hmax, -⟩ := Params.windows_apart hp
  rw [ofNat_toNat_of_lt (by omega)]
  exact regAt_inBuf p a ha

/-! ## IN_BUF -/

/-- The four lanes of a word, lowest first. -/
theorem lane_getElem? (v : Word) {j : Nat} (hj : j < 4) :
    [v.extractLsb' 0 8, v.extractLsb' 8 8, v.extractLsb' 16 8, v.extractLsb' 24 8][j]? = some (v.extractLsb' (8 * j) 8) := by
  interval_cases j <;> rfl

theorem writeInWord_read_lane (v : Word) (s : State) {a j : Nat} (hj : j < 4) (ha : a + j < s.params.datapathMax) :
    (s.writeInWord a v).mem.read (inBase + a + j) = some (v.extractLsb' (8 * j) 8) := by
  have htake : j < s.params.datapathMax - a := by omega
  rw [State.writeInWord_mem, Memory.read_splice_inside, List.getElem?_take, if_pos htake, lane_getElem? v hj]
  rw [List.length_take, List.length_cons, List.length_cons, List.length_cons, List.length_cons, List.length_nil]
  omega

theorem writeInWord_sameOutside (v : Word) (s : State) (a : Nat) :
    sameOutside (inBase + a) (min 4 (s.params.datapathMax - a)) s.mem (s.writeInWord a v).mem := by
  intro b hb
  refine Memory.read_splice_outside _ _ _ _ ?_
  simpa [Nat.min_comm] using hb

/-! ## Operand registers -/

/-- A write to an operand register while BUSY = 0 lands. -/
theorem step_write_operand {s t : State} {off : BitVec 16} {v : Word} {rest : List HostStmt} {r : Reg}
    (h : s.turn = .host) (hp : s.program = .wr off 4 v :: rest) (ha : off.toNat % 4 = 0)
    (hr : regAt s.params off.toNat = some r) (hidle : s.status.busy = false)
    (hw : writeReg v { s.begin with program := rest } r = .next (operandWrite { s.begin with program := rest } t)) :
    step s = .next t :=
  (step_write_reg h hp ha hr).trans (hw.trans (congrArg Host.Outcome.next (operandWrite_of_idle t hidle)))

/-- Settles O51: each offset names its register, whose write stores the operand. -/
theorem operandWritesLand : Obligations.OperandWritesLand := by
  intro s off v rest ht hprog u
  refine ⟨?_, ?_, fun j => ?_, fun w hp hw => ?_, ?_, ?_⟩
  · rintro rfl hidle
    exact step_write_operand ht hprog rfl (regAt_scalar s.params rfl) hidle rfl
  · rintro rfl hidle
    exact step_write_operand ht hprog rfl (regAt_scalar s.params rfl) hidle rfl
  · rintro rfl hidle
    have haligned : (BitVec.ofNat 16 (0x020 + 4 * j.val)).toNat % 4 = 0 := by
      rw [ofNat_toNat_of_lt (by omega)]; omega
    exact step_write_operand ht hprog haligned (regAt_hf_ofNat s.params j) hidle rfl
  · rintro rfl hidle
    obtain ⟨hmax, -⟩ := Params.windows_apart hp
    have haligned : (BitVec.ofNat 16 (0x1000 + 4 * w)).toNat % 4 = 0 := by
      rw [ofNat_toNat_of_lt (by omega)]; omega
    refine ⟨u.writeInWord (4 * w) v, step_write_operand ht hprog haligned (regAt_inBuf_ofNat hp hw) hidle rfl, rfl,
      fun j hj hlane => writeInWord_read_lane v u hj hlane, writeInWord_sameOutside v u (4 * w)⟩
  · rintro rfl
    exact step_write_reg ht hprog rfl (regAt_scalar s.params rfl)
  · rintro rfl
    exact step_write_reg ht hprog rfl (regAt_scalar s.params rfl)

/-! ## Configuration registers -/

/-- A write to a configuration register while CFG_LOCKED = 0 lands. -/
theorem step_write_config {s : State} {off : BitVec 16} {v : Word} {rest : List HostStmt} {r : Reg} {c : Cfg}
    (h : s.turn = .host) (hp : s.program = .wr off 4 v :: rest) (ha : off.toNat % 4 = 0)
    (hr : regAt s.params off.toNat = some r) (hunlocked : s.status.cfgLocked = false)
    (hw : writeReg v { s.begin with program := rest } r = .next (configWrite { s.begin with program := rest } c)) :
    step s = .next { s.begin with program := rest, cfg := c } :=
  (step_write_reg h hp ha hr).trans (hw.trans (congrArg Host.Outcome.next (configWrite_of_unlocked c hunlocked)))

theorem adp_aligned (i : Fin 8) {base : Nat} (hbase : base ≤ 0x10C) (h4 : base % 4 = 0) :
    (BitVec.ofNat 16 (base + 16 * i.val)).toNat % 4 = 0 := by
  rw [ofNat_toNat_of_lt (by omega)]
  omega

/-- Settles O52: each offset names its register, whose write stores its implemented bits. -/
theorem configWritesLand : Obligations.ConfigWritesLand := by
  intro s off v rest ht hprog hunlocked after
  refine ⟨?_, ?_, ?_, ?_, ?_, ?_, fun i => ⟨?_, ?_, ?_, ?_⟩⟩
  · rintro rfl
    exact step_write_config ht hprog rfl (regAt_scalar s.params rfl) hunlocked rfl
  · rintro rfl
    exact step_write_config ht hprog rfl (regAt_scalar s.params rfl) hunlocked rfl
  · rintro rfl
    exact step_write_config ht hprog rfl (regAt_scalar s.params rfl) hunlocked rfl
  · rintro rfl
    exact step_write_config ht hprog rfl (regAt_scalar s.params rfl) hunlocked rfl
  · rintro rfl
    exact step_write_config ht hprog rfl (regAt_scalar s.params rfl) hunlocked rfl
  · rintro rfl
    exact step_write_config ht hprog rfl (regAt_scalar s.params rfl) hunlocked rfl
  · rintro rfl
    exact step_write_config ht hprog (adp_aligned i (by decide) rfl) (regAt_adp_ofNat s.params i 0 rfl) hunlocked rfl
  · rintro rfl
    exact step_write_config ht hprog (adp_aligned i (by decide) rfl) (regAt_adp_ofNat s.params i 1 rfl) hunlocked rfl
  · rintro rfl
    exact step_write_config ht hprog (adp_aligned i (by decide) rfl) (regAt_adp_ofNat s.params i 2 rfl) hunlocked rfl
  · rintro rfl
    exact step_write_config ht hprog (adp_aligned i (by decide) rfl) (regAt_adp_ofNat s.params i 3 rfl) hunlocked rfl

end Sys2Proof.Machine
end

section
/-! What the host reads (10_state.md R31 to R64, 20_memory.md R81 to R86, 60_exceptions.md R402). -/

namespace Sys2Proof.Machine

theorem busRead_scalar (s : State) {off : BitVec 16} {r : Reg} (h : scalarReg off.toNat = some r) :
    busRead s off = readReg s r := busRead_of_reg s (regAt_scalar s.params h)

theorem busRead_unmapped {s : State} {off : BitVec 16} (h : regAt s.params off.toNat = none) : busRead s off = 0 := by
  rw [busRead, h]

theorem setWidth_and {w v : Nat} (x y : BitVec w) : (x &&& y).setWidth v = x.setWidth v &&& y.setWidth v := by
  apply BitVec.eq_of_getLsbD_eq
  intro i hi
  simp only [BitVec.getLsbD_setWidth, BitVec.getLsbD_and, hi, decide_true, Bool.true_and]

/-- A field of 4 bits is 0 exactly when the word it is read in is. -/
theorem setWidth_ne_zero (x : BitVec 4) : x.setWidth 32 ≠ 0 ↔ x ≠ 0 := by decide +revert

/-- Byte lane j of a word put together from its bytes. -/
theorem append_lane (b0 b1 b2 b3 : Byte) {j : Nat} (hj : j < 4) :
    (b3 ++ b2 ++ b1 ++ b0 : Word).extractLsb' (8 * j) 8 = [b0, b1, b2, b3].getD j 0 := by
  apply BitVec.eq_of_getLsbD_eq
  intro i hi
  rw [BitVec.getLsbD_extractLsb', decide_eq_true hi, Bool.true_and, BitVec.getLsbD_append, BitVec.getLsbD_append,
    BitVec.getLsbD_append]
  interval_cases j
  · simp [hi]
  · rw [if_neg (by omega), if_pos (by omega), show 8 * 1 + i - 8 = i by omega]; rfl
  · rw [if_neg (by omega), if_neg (by omega), if_pos (by omega), show 8 * 2 + i - 8 - 8 = i by omega]; rfl
  · rw [if_neg (by omega), if_neg (by omega), if_neg (by omega), show 8 * 3 + i - 8 - 8 - 8 = i by omega]; rfl

/-- A lane of a window word is the byte of its offset. -/
theorem lanes_lane {size a j : Nat} (byte : Nat → Byte) (hj : j < 4) (ha : a + j < size) :
    (lanes size byte a).extractLsb' (8 * j) 8 = byte (a + j) := by
  rw [lanes, append_lane _ _ _ _ hj]
  interval_cases j <;> exact if_pos ha

theorem busRead_inBuf_lane {s : State} (hp : s.params.wf) {a j : Nat} {b : Byte} (hj : j < 4)
    (ha : a + j < s.params.datapathMax) (hb : s.mem.read (inBase + a + j) = some b) :
    (busRead s (BitVec.ofNat 16 (0x1000 + a))).extractLsb' (8 * j) 8 = b := by
  rw [busRead_of_reg s (regAt_inBuf_ofNat hp (by omega)), readReg, lanes_lane _ hj ha, State.inByte, ← Nat.add_assoc, hb]
  rfl

theorem busRead_outBuf_lane {s : State} (hp : s.params.wf) {a j : Nat} {b : Byte} (hj : j < 4)
    (ha : a + j < s.params.datapathMax) (hlen : a + j < s.outLen.toNat)
    (hb : s.mem.read (outBase + a + j) = some b) :
    (busRead s (BitVec.ofNat 16 (0x2000 + a))).extractLsb' (8 * j) 8 = b := by
  obtain ⟨hmax, -⟩ := Params.windows_apart hp
  have hreg : regAt s.params (BitVec.ofNat 16 (0x2000 + a)).toNat = some (.outBuf a) := by
    rw [ofNat_toNat_of_lt (by omega)]
    exact regAt_outBuf s.params a hp (by omega)
  rw [busRead_of_reg s hreg, readReg, lanes_lane _ hj ha, State.outByte, if_pos hlen, ← Nat.add_assoc, hb]
  rfl

theorem busRead_msgBuf_lane {s : State} (hp : s.params.wf) {a j : Nat} {b : Byte} (hj : j < 4)
    (ha : a + j < s.params.frameMax) (hvalid : s.rx.msgValid = true) (hlen : a + j < s.msgLen.toNat)
    (hb : s.mem.read (msgBase + a + j) = some b) :
    (busRead s (BitVec.ofNat 16 (0x3000 + a))).extractLsb' (8 * j) 8 = b := by
  have hsize : a + j < s.params.msgbufSize := ha
  obtain ⟨hmax, hroom⟩ := Params.windows_apart hp
  have hreg : regAt s.params (BitVec.ofNat 16 (0x3000 + a)).toNat = some (.msgBuf a) := by
    rw [ofNat_toNat_of_lt (by omega)]
    exact regAt_msgBuf s.params a hp (by omega)
  rw [busRead_of_reg s hreg, readReg, lanes_lane _ hj hsize, State.msgByte, if_pos ⟨hvalid, hlen⟩, ← Nat.add_assoc, hb]
  rfl

/-- The interrupt line is what the two registers read share (60_exceptions.md R402). -/
theorem irq_iff_busRead (s : State) : s.irq = true ↔ busRead s 0x044 &&& busRead s 0x040 ≠ 0 := by
  have hsource : busRead s 0x044 = s.irqStatus.setWidth 32 := busRead_scalar s (r := .irqStatus) rfl
  have henable : busRead s 0x040 = s.irqEn.setWidth 32 := busRead_scalar s (r := .irqEn) rfl
  rw [hsource, henable, ← setWidth_and, setWidth_ne_zero, State.irq, decide_eq_true_iff]

theorem busRead_rxStatus (s : State) : busRead s 0x204 = s.rx.word := busRead_scalar s (r := .rxStatus) rfl

/-- Settles O53: each offset names its register, whose read is its fields. -/
theorem hostReads : Obligations.HostReads := by
  refine ⟨fun s off rest ht hprog ha => step_read ht hprog ha, fun s => ?_⟩
  refine ⟨busRead_scalar s (r := .id) rfl, busRead_scalar s (r := .cmd) rfl, busRead_scalar s (r := .status) rfl,
    (busRead_scalar s (r := .inLen) rfl).trans (setWidth_eq_zero_append 16 _),
    (busRead_scalar s (r := .outLen) rfl).trans (setWidth_eq_zero_append 16 _), busRead_scalar s (r := .result) rfl,
    (busRead_scalar s (r := .arg) rfl).trans (setWidth_eq_zero_append 16 _), fun j => ?_,
    (busRead_scalar s (r := .irqEn) rfl).trans (setWidth_eq_zero_append 28 _),
    (busRead_scalar s (r := .irqStatus) rfl).trans (setWidth_eq_zero_append 28 _), irq_iff_busRead s,
    (busRead_scalar s (r := .syncLen) rfl).trans (setWidth_eq_zero_append 28 _), busRead_scalar s (r := .sync0) rfl,
    busRead_scalar s (r := .sync1) rfl, (busRead_scalar s (r := .frameSize) rfl).trans (setWidth_eq_zero_append 16 _),
    (busRead_scalar s (r := .nAdp) rfl).trans (setWidth_eq_zero_append 28 _),
    (busRead_scalar s (r := .flags) rfl).trans (setWidth_eq_zero_append 31 _), fun i => ⟨?_, ?_, ?_, ?_⟩,
    busRead_scalar s (r := .rxCtrl) rfl, ?_, (busRead_scalar s (r := .msgLen) rfl).trans (setWidth_eq_zero_append 16 _),
    busRead_scalar s (r := .errInfo) rfl, fun hp w j b hj => ⟨?_, ?_, ?_⟩, ?_⟩
  · exact (busRead_of_reg s (regAt_hf_ofNat s.params j)).trans (setWidth_eq_zero_append 16 _)
  · exact busRead_of_reg s (regAt_adp_ofNat s.params i 0 rfl)
  · exact busRead_of_reg s (regAt_adp_ofNat s.params i 1 rfl)
  · exact busRead_of_reg s (regAt_adp_ofNat s.params i 2 rfl)
  · exact busRead_of_reg s (regAt_adp_ofNat s.params i 3 rfl)
  · rw [busRead_rxStatus, RxStatus.word]
    cases s.rx.state <;> rfl
  · exact busRead_inBuf_lane hp hj
  · exact busRead_outBuf_lane hp hj
  · exact busRead_msgBuf_lane hp hj
  · intro off _ o hscalar hhf hadp hin hout hmsg
    exact busRead_unmapped ((regAt_outside hhf hadp hin hout hmsg).trans (scalarReg_of_not_mem hscalar))

end Sys2Proof.Machine
end
